-- ==== Sys2Proof/Word.lean ====
section
/-! DEFINITION. The words of the QOI codec core: the byte, the 32-bit header word and the pixel (spec/00_scope.md R7, R8;
spec/10_state.md R20, R24, R36). -/

namespace Sys2Proof

/-- `u8`: one byte of a stream, one channel of a pixel (R8). Bit 7 is the most significant bit (R7). -/
abbrev Byte := BitVec 8

/-- `u32`: a width or a height (R8). -/
abbrev U32 := BitVec 32

/-- A pixel: four independent 8-bit lanes, equal exactly when all four bytes are equal (R8, R20).
The default of `a` is R20's "Alpha defaults to 255 (opaque) when not specified", which concerns a host that builds a pixel
from three values; the hardware always names all four. -/
structure Pixel where
  r : Byte
  g : Byte
  b : Byte
  a : Byte := 255#8
deriving DecidableEq, Repr, Inhabited

/-- The four header registers of a block (R24 decoder, R36 encoder). `channels` and `colorspace` are 8-bit registers: an
illegal value can be presented to the encoder (R36) and can stand in a stream (R105). -/
structure HeaderRegs where
  width      : U32
  height     : U32
  channels   : Byte
  colorspace : Byte
deriving DecidableEq, Repr, Inhabited

/-- `ChunkType`: the six chunk types (R48). -/
inductive ChunkType where
  | rgb | rgba | index | diff | luma | run
deriving DecidableEq, Repr

/-- The seven kinds that key the debug sentinel colors (R170). -/
inductive DebugKind where
  | rgb | rgba | index | diff | luma | run | runCont
deriving DecidableEq, Repr

end Sys2Proof
end

