-- ==== Sys2Proof/Config.lean ====
section
/-! DEFINITION. What an implementation fixes (spec/00_scope.md R6) and the free values, which the spec leaves open
(spec/93_implementation_defined.md U7, U11). An `opaque` constant has no body: nothing can be proved about its value. -/

namespace Sys2Proof.Config

/-- The parameter `CACHE_SEED` (R6, R134, D2): its value for this hardware is 1. The operations of the model take the
parameter as an argument, so that a claim can be stated for either value (spec/92_eei_decisions.md D2); only the machine's
`START` and its reset use this constant. -/
def cacheSeed : Bool := true

/-- Free value (log entry 2): the open table `DEBUG_COLOR` (R170, D11, U7) as seven values of an unknown permutation of the
32-bit words. R170's only constraint is that the seven colors are pairwise different, and every injective choice of seven
words extends to a permutation, so this leaves open exactly what the spec leaves open. -/
opaque debugPermutation : Equiv.Perm (BitVec 32)

/-- Free value (log entry 3): what the decoder's header registers hold from `START` until the header is parsed
(R24, R43 "unspecified until parsed", U11 "any value"), one unknown per start. -/
opaque unparsedHeader : Nat → HeaderRegs

end Sys2Proof.Config
end

