-- ==== Sys2Proof/Syntax.lean ====
section
/-! DEFINITION. The items of a QOI byte stream: one constructor per row of spec/opcode_table.json (spec/30_encoding.md R90 to
R100). The fields are the encoded fields, as wide as the encoding has them; the operands they stand for (biases removed)
are computed by Sys2Proof/Machine/Operands.lean from R101. -/

namespace Sys2Proof

/-- The stream's items: the six chunks, which produce pixels, and the two framing items (R90). -/
inductive Instr where
  /-- RGB, `11111110 rrrrrrrr gggggggg bbbbbbbb` (R95). -/
  | rgb (r g b : Byte)
  /-- RGBA, `11111111 rrrrrrrr gggggggg bbbbbbbb aaaaaaaa` (R96). -/
  | rgba (r g b a : Byte)
  /-- INDEX, `00iiiiii` (R97). -/
  | index (idx : BitVec 6)
  /-- DIFF, `01rrggbb`: each field is a delta plus 2 (R98). -/
  | diff (dr2 dg2 db2 : BitVec 2)
  /-- LUMA, `10gggggg rrrrbbbb`: green delta plus 32, then (red delta − green delta) plus 8 and (blue delta − green delta)
  plus 8 (R99). -/
  | luma (dg32 : BitVec 6) (drg8 dbg8 : BitVec 4)
  /-- RUN, `11nnnnnn`: run length minus 1, 0 to 61 (R100). -/
  | run (len1 : BitVec 6)
  /-- HEADER, 14 bytes: magic, width, height, channels, colorspace (R91). -/
  | header (width height : U32) (channels colorspace : Byte)
  /-- END, the 8-byte end marker, which has no fields (R92). -/
  | endMarker
deriving DecidableEq, Repr

/-- The chunk type of an item; the two framing items are no chunks (R48, R90). -/
def Instr.chunkType : Instr → Option ChunkType
  | .rgb _ _ _ => some .rgb
  | .rgba _ _ _ _ => some .rgba
  | .index _ => some .index
  | .diff _ _ _ => some .diff
  | .luma _ _ _ => some .luma
  | .run _ => some .run
  | .header _ _ _ _ => none
  | .endMarker => none

end Sys2Proof
end

