-- ==== Sys2Proof/WellFormed.lean ====
section
/-! DEFINITION. Which items are well formed: the run lengths that can be encoded (spec/30_encoding.md R100, R104) and the
legal header values (R105). Every other field value of every other item is legal (R102, R103). -/

namespace Sys2Proof

/-- The check: a run's stored length is at most 61, since 62 and 63 would be the tags `FE` and `FF` (R104); byte 12
of a header is 3 or 4 and its byte 13 is 0 or 1 (R105). -/
def WellFormed : Instr → Bool
  | .rgb _ _ _ => true
  | .rgba _ _ _ _ => true
  | .index _ => true
  | .diff _ _ _ => true
  | .luma _ _ _ => true
  | .run len1 => decide (len1.toNat ≤ 61)
  | .header _ _ c s => (c == 3#8 || c == 4#8) && (s == 0#8 || s == 1#8)
  | .endMarker => true

end Sys2Proof
end

