-- ==== Sys2Proof/Decode.lean ====
section
/-! DEFINITION. From bytes to items and back (spec/30_encoding.md R90 to R104, spec/20_memory.md R68 to R71): the decoder,
total on any bytes and rejecting by name, then the encoder, then the two readings the host asks for. -/

namespace Sys2Proof

/-! ## Constants of the wire format -/

/-- `MAGIC`, "qoif" (R6, R91). -/
def magic : List Byte := [0x71#8, 0x6F#8, 0x69#8, 0x66#8]

/-- `END_MARKER` (R6, R92). -/
def endMarkerBytes : List Byte := [0#8, 0#8, 0#8, 0#8, 0#8, 0#8, 0#8, 1#8]

/-- `HEADER_LEN` (R6). -/
def headerLen : Nat := 14

/-- Byte 12 of a header is legal when it is 3 or 4 (`ChannelType`, R46, R105). -/
def legalChannels (c : Byte) : Bool := c == 3#8 || c == 4#8

/-- Byte 13 of a header is legal when it is 0 or 1 (`ColorspaceType`, R47, R105). -/
def legalColorspace (s : Byte) : Bool := s == 0#8 || s == 1#8

/-! ## Byte order and bit fields -/

/-- Four bytes read as one big-endian u32 (R68). -/
def be32 (b0 b1 b2 b3 : Byte) : U32 := (b0 ++ b1 ++ b2 ++ b3 : BitVec 32)

/-- The big-endian bytes of a u32, most significant first (R68, R91). -/
def be32Bytes (w : U32) : List Byte :=
  [w.extractLsb' 24 8, w.extractLsb' 16 8, w.extractLsb' 8 8, w.extractLsb' 0 8]

/-- A pixel as one 32-bit word: r in bits 31:24, g in 23:16, b in 15:8, a in 7:0 (R71). -/
def Pixel.toWord (p : Pixel) : BitVec 32 := be32 p.r p.g p.b p.a

/-- The pixel a 32-bit word packs (R71). -/
def Pixel.ofWord (w : BitVec 32) : Pixel :=
  ⟨w.extractLsb' 24 8, w.extractLsb' 16 8, w.extractLsb' 8 8, w.extractLsb' 0 8⟩

/-- The header fields of 14 header bytes (R91). Bytes past the end of a shorter list read as 0: the callers give it 14. -/
def headerFields (h : List Byte) : HeaderRegs where
  width := be32 (h.getD 4 0) (h.getD 5 0) (h.getD 6 0) (h.getD 7 0)
  height := be32 (h.getD 8 0) (h.getD 9 0) (h.getD 10 0) (h.getD 11 0)
  channels := h.getD 12 0
  colorspace := h.getD 13 0

/-- The header registers after the input has ended inside the header, its magic being right: each field is written as soon as
its own bytes are read, and an illegal channel byte is not written (R151). -/
def HeaderRegs.readSoFar (bytes : List Byte) (old : HeaderRegs) : HeaderRegs where
  width := if bytes.length < 8 then old.width else (headerFields bytes).width
  height := if bytes.length < 12 then old.height else (headerFields bytes).height
  channels :=
    if 13 ≤ bytes.length ∧ legalChannels (headerFields bytes).channels then (headerFields bytes).channels else old.channels
  colorspace := old.colorspace

/-- `npix` = width × height, the mathematical product, never truncated to 32 bits (R25). One home: it is computed from the
header registers. -/
def HeaderRegs.npix (h : HeaderRegs) : Nat := h.width.toNat * h.height.toNat

/-! ## Decoding -/

/-- The three sections of a stream in which an item can stand (R76, R90). The same bytes mean different items in different
sections: the end marker's bytes are INDEX chunks inside the chunk stream (R107). -/
inductive StreamSection where
  | header | chunks | marker
deriving DecidableEq, Repr

/-- Why no item is read. Each but `notMarker` is the FormatError of the same name (R271); `notMarker` is the absent end
marker, which is an error only where the marker is required (R167). -/
inductive Reject where
  /-- The input ends inside the field being read (R275). -/
  | truncated
  /-- The first four bytes are not the magic (R272). -/
  | badMagic
  /-- Byte 12 is the last byte there is and it is illegal: it is judged before byte 13 is missed (R279). -/
  | badChannels
  /-- The next eight bytes are not the end marker (R167). -/
  | notMarker
deriving DecidableEq, Repr

/-- How many continuation bytes follow a tag byte: the length of a chunk is decided by its first byte alone (R93). -/
def continuationBytes (t : Byte) : Nat :=
  if t = 0xFE#8 then 3
  else if t = 0xFF#8 then 4
  else if t.extractLsb' 6 2 = 0b10#2 then 1
  else 0

/-- The tag-dispatcher: the two 8-bit tags are tested first, on the whole byte, and only then the top two bits (R94, R156). -/
def dispatchTag (t : Byte) : ChunkType :=
  if t = 0xFE#8 then .rgb
  else if t = 0xFF#8 then .rgba
  else if t.extractLsb' 6 2 = 0b00#2 then .index
  else if t.extractLsb' 6 2 = 0b01#2 then .diff
  else if t.extractLsb' 6 2 = 0b10#2 then .luma
  else .run

/-- One chunk and the bytes after it (R95 to R100): the tag byte decides the chunk, and too few continuation bytes are the
TRUNCATED error (R165, R275). -/
def decodeChunk : List Byte → Except Reject (Instr × List Byte)
  | [] => .error .truncated
  | t :: rest =>
    match dispatchTag t with
    | .rgb =>
      match rest with
      | r :: g :: b :: rest => .ok (.rgb r g b, rest)
      | _ => .error .truncated
    | .rgba =>
      match rest with
      | r :: g :: b :: a :: rest => .ok (.rgba r g b a, rest)
      | _ => .error .truncated
    | .index => .ok (.index (t.extractLsb' 0 6), rest)
    | .diff => .ok (.diff (t.extractLsb' 4 2) (t.extractLsb' 2 2) (t.extractLsb' 0 2), rest)
    | .luma =>
      match rest with
      | b2 :: rest => .ok (.luma (t.extractLsb' 0 6) (b2.extractLsb' 4 4) (b2.extractLsb' 0 4), rest)
      | [] => .error .truncated
    | .run => .ok (.run (t.extractLsb' 0 6), rest)

/-- The header item (R91), judged in stream order (R279): fewer than four bytes are TRUNCATED, then the magic is compared,
then the fields are read. An illegal channel or colorspace byte is decoded: HEADER's own meaning judges it (R151). Only
where byte 13 is missing is byte 12 judged here, because nothing can be executed then. -/
def decodeHeader (bytes : List Byte) : Except Reject (Instr × List Byte) :=
  if bytes.length < 4 then .error .truncated
  else if bytes.take 4 ≠ magic then .error .badMagic
  else if bytes.length < 13 then .error .truncated
  else
    let h := headerFields bytes
    if bytes.length < 14 then
      if legalChannels h.channels then .error .truncated else .error .badChannels
    else .ok (.header h.width h.height h.channels h.colorspace, bytes.drop 14)

/-- The end marker: eight bytes, all equal (R92, R167). Fewer than eight bytes are an absent marker and no truncation. -/
def decodeMarker (bytes : List Byte) : Except Reject (Instr × List Byte) :=
  if bytes.take 8 = endMarkerBytes then .ok (.endMarker, bytes.drop 8) else .error .notMarker

/-- The item that stands at the front of the bytes in a section of the stream, and the bytes after it. -/
def decode (sec : StreamSection) (bytes : List Byte) : Except Reject (Instr × List Byte) :=
  match sec with
  | .header => decodeHeader bytes
  | .chunks => decodeChunk bytes
  | .marker => decodeMarker bytes

/-! ## Encoding -/

/-- The bytes of an item, written from the formats of R91, R92 and R95 to R100. -/
def encode : Instr → List Byte
  | .rgb r g b => [0xFE#8, r, g, b]
  | .rgba r g b a => [0xFF#8, r, g, b, a]
  | .index idx => [(0b00#2 ++ idx : BitVec 8)]
  | .diff dr2 dg2 db2 => [(0b01#2 ++ dr2 ++ dg2 ++ db2 : BitVec 8)]
  | .luma dg32 drg8 dbg8 => [(0b10#2 ++ dg32 : BitVec 8), (drg8 ++ dbg8 : BitVec 8)]
  | .run len1 => [(0b11#2 ++ len1 : BitVec 8)]
  | .header w h c s => magic ++ be32Bytes w ++ be32Bytes h ++ [c, s]
  | .endMarker => endMarkerBytes

/-- The section in which an item stands (R90). -/
def Instr.streamSection : Instr → StreamSection
  | .rgb _ _ _ => .chunks
  | .rgba _ _ _ _ => .chunks
  | .index _ => .chunks
  | .diff _ _ _ => .chunks
  | .luma _ _ _ => .chunks
  | .run _ => .chunks
  | .header _ _ _ _ => .header
  | .endMarker => .marker

/-- The length of an item in bytes (R91, R92, R93). -/
def Instr.byteLength : Instr → Nat
  | .rgb _ _ _ => 4
  | .rgba _ _ _ _ => 5
  | .index _ => 1
  | .diff _ _ _ => 1
  | .luma _ _ _ => 2
  | .run _ => 1
  | .header _ _ _ _ => headerLen
  | .endMarker => 8

/-! ## The notation for items (R108) -/

/-- A field with its bias removed, in decimal (R101, R108). -/
def biasedText (field bias : Nat) : String := toString ((field : Int) - (bias : Int))

/-- The text R108 gives an item. The second and third operands of LUMA are the stored differences from the green delta. -/
def Instr.text : Instr → String
  | .rgb r g b => "RGB " ++ toString r.toNat ++ "," ++ toString g.toNat ++ "," ++ toString b.toNat
  | .rgba r g b a =>
    "RGBA " ++ toString r.toNat ++ "," ++ toString g.toNat ++ "," ++ toString b.toNat ++ "," ++ toString a.toNat
  | .index idx => "INDEX " ++ toString idx.toNat
  | .diff dr2 dg2 db2 =>
    "DIFF " ++ biasedText dr2.toNat 2 ++ "," ++ biasedText dg2.toNat 2 ++ "," ++ biasedText db2.toNat 2
  | .luma dg32 drg8 dbg8 =>
    "LUMA " ++ biasedText dg32.toNat 32 ++ "," ++ biasedText drg8.toNat 8 ++ "," ++ biasedText dbg8.toNat 8
  | .run len1 => "RUN " ++ toString (len1.toNat + 1)
  | .header w h c s =>
    "HEADER " ++ toString w.toNat ++ "," ++ toString h.toNat ++ "," ++ toString c.toNat ++ "," ++ toString s.toNat
  | .endMarker => "END"

/-! ## Items given as numbers

An item as the opcode table numbers its bits: bit 0 is the least significant bit of the first byte, and the second byte is
bits 15..8. The HEADER row numbers its first four bytes differently: its match is the magic "taken as a big-endian 32-bit
number" (the row's own words in spec/opcode_table.json), so that number, too, is read as the magic; and the END row's match
is its eight bytes as one big-endian number (log entry 13). -/

/-- The lowest `n` bytes of a number, least significant first. -/
def leBytes : Nat → Nat → List Byte
  | 0, _ => []
  | n + 1, w => BitVec.ofNat 8 w :: leBytes n (w / 256)

/-- The HEADER row's match, the magic as a big-endian number. -/
def magicNumber : Nat := 0x716F6966

/-- The bytes of a table word, as the stream holds them, filled up with zeros to the longest item, 14 bytes. -/
def tableBytes (nbits w : Nat) : List Byte :=
  let w := w % 2 ^ nbits
  if nbits ≥ 32 ∧ w % 2 ^ 32 = magicNumber then magic ++ leBytes 10 (w / 2 ^ 32)
  else if nbits = 64 ∧ w = 1 then endMarkerBytes ++ leBytes 6 0
  else leBytes 14 w

/-- The section a table word stands in: a row that begins with the magic is the header, the one 64-bit row is the end
marker, and every other row is a chunk. -/
def tableSection (nbits w : Nat) : StreamSection :=
  if nbits ≥ 32 ∧ (tableBytes nbits w).take 4 = magic then .header
  else if nbits = 64 then .marker
  else .chunks

/-- The item the decoder reads from a table word (none where it rejects). -/
def decodeTableWord (nbits w : Nat) : Option Instr :=
  match decode (tableSection nbits w) (tableBytes nbits w) with
  | .ok (i, _) => some i
  | .error _ => none

end Sys2Proof
end

