-- ==== Sys2Proof/Machine/Params.lean ====
section
/-! DEFINITION. The built-in values of the codec (spec/00_scope.md R6, R8) and the debug colors (spec/41_decoder.md R170). -/

namespace Sys2Proof.Machine

/-- `ZERO_PIXEL`, "fully transparent black" (R8). -/
def zeroPixel : Pixel := ⟨0#8, 0#8, 0#8, 0#8⟩

/-- `PREV_INIT` (R6, R8, R21). -/
def prevInit : Pixel := ⟨0#8, 0#8, 0#8, 255#8⟩

/-- `RUN_MAX` (R6, R104). -/
def runMax : Nat := 62

/-- The number of a debug kind, which picks its word out of the free permutation. -/
def debugIndex : DebugKind → BitVec 32
  | .rgb => 0
  | .rgba => 1
  | .index => 2
  | .diff => 3
  | .luma => 4
  | .run => 5
  | .runCont => 6

/-- `DEBUG_COLOR`: seven pairwise different pixels of unknown value (R170, D11, U7; log entry 2). -/
def debugColor (k : DebugKind) : Pixel := Pixel.ofWord (Config.debugPermutation (debugIndex k))

/-- The kind that keys the sentinel of pixel number `k` of a chunk: every pixel of a run after its head is a RUN
continuation (R170). -/
def debugKind (type : ChunkType) (k : Nat) : DebugKind :=
  match type with
  | .rgb => .rgb
  | .rgba => .rgba
  | .index => .index
  | .diff => .diff
  | .luma => .luma
  | .run => if k = 0 then .run else .runCont

end Sys2Proof.Machine
end

