-- ==== Sys2Proof/Machine/Cache.lean ====
section
/-! DEFINITION. `color_index_cache`: the 64-slot store, its hash and its operations CLEAR, SEED, READ, LOOKUP and UPDATE
(spec/40_cache.md R130 to R137). -/

namespace Sys2Proof.Machine

/-- `cache[0..63]`: 64 slots of one pixel each, direct-mapped, with no tag and no valid bit (R22, R130). -/
abbrev Cache := Vector Pixel 64

/-- HASH: (3r + 5g + 7b + 11a) mod 64, on unbounded integers, as a 6-bit slot number (R131, R132). -/
def hash (p : Pixel) : BitVec 6 :=
  BitVec.ofNat 6 (p.r.toNat * 3 + p.g.toNat * 5 + p.b.toNat * 7 + p.a.toNat * 11)

/-- READ of a slot. A slot number is a 6-bit field, so it cannot be out of range (R135). -/
def Cache.read (slots : Cache) (k : BitVec 6) : Pixel := slots[k.toNat]'(k.isLt)

/-- UPDATE: the slot the pixel hashes to takes the pixel; the other 63 are unchanged (R137). -/
def Cache.update (c : Cache) (p : Pixel) : Cache := c.set (hash p).toNat p (hash p).isLt

/-- CLEAR: every slot becomes (0,0,0,0) (R133). -/
def Cache.cleared : Cache := Vector.replicate 64 zeroPixel

/-- SEED: with `CACHE_SEED` = 1 the slot of `PREV_INIT` takes it, with 0 nothing happens (R134). -/
def Cache.seeded (seed : Bool) (c : Cache) : Cache := if seed then c.update prevInit else c

/-- The cache at the start of a pass: CLEAR, then SEED (R312). -/
def Cache.initial (seed : Bool) : Cache := Cache.seeded seed Cache.cleared

/-- LOOKUP's hit: the slot the pixel hashes to holds it, all four channels equal (R136). -/
def Cache.hit (c : Cache) (p : Pixel) : Bool := c.read (hash p) == p

end Sys2Proof.Machine
end

