-- ==== Sys2Proof/Machine/State.lean ====
section
/-! DEFINITION. The architectural state (spec/10_state.md R20 to R49, spec/20_memory.md R60 to R67) and its reset
(R43, spec/70_reset_and_hazards.md R311), as plain data. -/

namespace Sys2Proof.Machine

/-! ## The values the host hands over -/

/-- Decoder option registers, with their defaults (R23, R6). -/
structure DecoderOptions where
  requireEndTag         : Bool := true
  debugMode             : Bool := false
  storeFullIndexHistory : Bool := false
deriving DecidableEq, Repr

/-- Encoder option registers, with their defaults (R35, R6). -/
structure EncoderOptions where
  insertEndTag      : Bool := true
  stripTrailingData : Bool := false
  useIndex          : Bool := true
  useDiff           : Bool := true
  useLuma           : Bool := true
  useRun            : Bool := true
  useRgb            : Bool := true
deriving DecidableEq, Repr

/-- `Image`: the value the decoder produces and the encoder consumes (R44). -/
structure Image where
  regs     : HeaderRegs
  pixels   : List Pixel
  trailing : List Byte
deriving DecidableEq, Repr

/-- What the host can do to the core, as a queue of pending inputs. The first five are the events of the step level (R240);
the last two hand over a whole buffer or a whole Image, the contracts of the pass level (R150, R190). -/
inductive Event where
  /-- `START` of a byte-serial decode pass. -/
  | startDecode (o : DecoderOptions)
  /-- `START` of a pixel-serial encode pass: it latches the options and the four header registers, and the encoder's
  trailing input is given whole with it. -/
  | startEncode (o : EncoderOptions) (regs : HeaderRegs) (trailing : List Byte)
  /-- `BYTE(b)`. -/
  | byte (b : Byte)
  /-- `EOI`, the end of the decoder's input. -/
  | eoi
  /-- `PIXEL(p)`. -/
  | pixel (p : Pixel)
  /-- A decode pass over a whole input. -/
  | decode (o : DecoderOptions) (input : List Byte)
  /-- An encode pass over a whole Image. -/
  | encode (o : EncoderOptions) (image : Image)
deriving DecidableEq, Repr

/-! ## Decoder state -/

/-- Phases of the decoder (R33, R241). `endMark` is the spec's END. A pass over a whole input shows them too (DESIGN CHOICE,
log entry 22). -/
inductive DecoderPhase where
  | idle | header | tag | args | endMark | trailing | done | error
deriving DecidableEq, Repr

/-- The cause register (R28, R271). `sizeMismatch` is reserved for a host-side wrapper; no rule of the hardware sets it (R277). -/
inductive Cause where
  | none | badMagic | badChannels | badColorspace | missingEndTag | truncated | runOverrun | sizeMismatch
deriving DecidableEq, Repr

/-- The six chunk counters `count[t]`, Nat (R29, R285). -/
structure ChunkCounts where
  rgb   : Nat := 0
  rgba  : Nat := 0
  index : Nat := 0
  diff  : Nat := 0
  luma  : Nat := 0
  run   : Nat := 0
deriving DecidableEq, Repr

/-- Every register, flag, counter and stream of `QOI_decoder`. -/
structure Decoder where
  /-- The option registers, latched by a start (R23, R240). -/
  opts                : DecoderOptions
  /-- The model's own strap: this decoder's pixel port carries one pixel per transfer and serialises a run (R247, log entry 8). -/
  serialPort          : Bool
  phase               : DecoderPhase
  /-- `IN`, the whole input of a pass-level decode (R60); empty in a byte-serial pass, whose input are the BYTE events. -/
  input               : List Byte
  ipos                : Nat
  opix                : Nat
  regs                : HeaderRegs
  prev                : Pixel
  cache               : Cache
  /-- `PIX` (R61). -/
  pix                 : List Pixel
  /-- `TRAIL` (R62, R41). -/
  trail               : List Byte
  /-- `HIST` (R63, R31). -/
  hist                : List Cache
  endTagPresent       : Bool
  done                : Bool
  error               : Bool
  cause               : Cause
  count               : ChunkCounts
  pixelDataByteLength : Nat
  /-- `hdr[0..13]` and its count, the list's length (R34). -/
  hdr                 : List Byte
  tag                 : Byte
  /-- `args[0..3]` and `nargs`, the list's length (R34). -/
  args                : List Byte
  need                : Nat
  /-- `mk`: how many leading bytes of the end marker have matched in phase END (R34). -/
  matched             : Nat
  runLeft             : Nat
deriving DecidableEq, Repr

/-! ## Encoder state -/

/-- Phases of the encoder (R39, R250). A pass over a whole Image shows them too (DESIGN CHOICE, log entry 22). -/
inductive EncoderPhase where
  | idle | pixels | tail | done
deriving DecidableEq, Repr

/-- Every register, flag and stream of `QOI_encoder`. -/
structure Encoder where
  /-- The option registers, latched by a start (R35, R240). -/
  opts     : EncoderOptions
  phase    : EncoderPhase
  regs     : HeaderRegs
  /-- The input pixel stream of a pass-level encode (R64); empty in a pixel-serial pass, whose input are the PIXEL events. -/
  pixels   : List Pixel
  /-- The input trailing buffer (R65, R41). -/
  trailing : List Byte
  i        : Nat
  opos     : Nat
  prev     : Pixel
  cache    : Cache
  run      : Nat
  /-- `OUT` (R66). -/
  out      : List Byte
  done     : Bool
deriving DecidableEq, Repr

/-! ## The machine -/

/-- Which agent makes the next step. During a whole-buffer pass it is the block that runs the pass; at all other times the
core waits for the host's next event (R12). -/
inductive Agent where
  | host | decoder | encoder
deriving DecidableEq, Repr

/-- The whole state: one decoder and one encoder, each with its own registers and its own cache (R2), and the host's
pending inputs, oldest first. `agent` and `freeIndex` are the model's own: whose step is next, and the number of the next
free value. -/
structure State where
  dec       : Decoder
  enc       : Encoder
  agent     : Agent
  pending   : List Event
  freeIndex : Nat
deriving DecidableEq, Repr

/-- Faults: none. Every error the spec names is taken as a next state (R280), and no item stops the machine, so this type is
empty. -/
inductive Fault where
deriving DecidableEq, Repr

/-- Refusals: inputs outside the domain of the core. -/
inductive Refusal where
  /-- An item with no meaning in this model. Raised by no arm of `exec`. Safe. -/
  | notModelled (mnemonic : String)
  /-- Raised by the start of an encode pass, and by an encode step that finds its pixel missing: the Image's pixel count is
  not width × height (R45, R190, R289, U5: "refuse"). Safe: the machine stops where the spec gives the pass no meaning. -/
  | imageSizeMismatch
  /-- Raised by the start of an encode pass: `channels` is not 3 or 4, or `colorspace` is not 0 or 1 (R36, R190, R289,
  U6: "refuse"). Safe, for the same reason. -/
  | imageFieldIllegal
deriving DecidableEq, Repr

/-! ## Reset -/

/-- The decoder at power-on: IDLE, default options, `done` = `error` = 0 (R311). Everything else is unspecified there; it
holds R43's start-of-pass values, and the header registers hold 0 (log entry 1). -/
def Decoder.reset : Decoder where
  opts := {}
  serialPort := false
  phase := .idle
  input := []
  ipos := 0
  opix := 0
  regs := ⟨0#32, 0#32, 0#8, 0#8⟩
  prev := prevInit
  cache := Cache.initial Config.cacheSeed
  pix := []
  trail := []
  hist := []
  endTagPresent := false
  done := false
  error := false
  cause := .none
  count := {}
  pixelDataByteLength := 0
  hdr := []
  tag := 0#8
  args := []
  need := 0
  matched := 0
  runLeft := 0

/-- The encoder at power-on (R311; log entry 1 for what R311 leaves unspecified). -/
def Encoder.reset : Encoder where
  opts := {}
  phase := .idle
  regs := ⟨0#32, 0#32, 0#8, 0#8⟩
  pixels := []
  trailing := []
  i := 0
  opos := 0
  prev := prevInit
  cache := Cache.initial Config.cacheSeed
  run := 0
  out := []
  done := false

/-- The machine right after power-on reset: both blocks idle, no host input pending. -/
def State.reset : State where
  dec := Decoder.reset
  enc := Encoder.reset
  agent := .host
  pending := []
  freeIndex := 0

end Sys2Proof.Machine
end

