-- ==== Sys2Proof/Machine/Flags.lean ====
section
/-! DEFINITION. The status flags: `end_tag_present`, `done`, `error` and `cause` (spec/10_state.md R27, R28, R39,
spec/60_exceptions.md R271). There are no arithmetic condition codes (R49). -/

namespace Sys2Proof.Machine

/-- The 3-bit code of a cause (R271). -/
def Cause.code : Cause → BitVec 3
  | .none => 0
  | .badMagic => 1
  | .badChannels => 2
  | .badColorspace => 3
  | .missingEndTag => 4
  | .truncated => 5
  | .runOverrun => 6
  | .sizeMismatch => 7

/-- `end_tag_present <- v` (R27). -/
def Decoder.setEndTag (v : Bool) (d : Decoder) : Decoder := { d with endTagPresent := v }

/-- `phase <- p`, for a transition that changes nothing else (R33, R241). -/
def Decoder.goTo (p : DecoderPhase) (d : Decoder) : Decoder := { d with phase := p }

/-- `phase <- p` of the encoder (R39, R250). -/
def Encoder.goTo (p : EncoderPhase) (e : Encoder) : Encoder := { e with phase := p }

/-- The decoder's transition into DONE, which sets `done` (R28, R241). -/
def Decoder.finish (d : Decoder) : Decoder := { d with phase := .done, done := true }

/-- The encoder's transition into DONE, which sets `done` (R39, R252). -/
def Encoder.finish (e : Encoder) : Encoder := { e with phase := .done, done := true }

end Sys2Proof.Machine
end

