-- ==== Sys2Proof/Machine/Operands.lean ====
section
/-! DEFINITION. Operand assembly in both directions and the channel arithmetic (spec/00_scope.md R9, spec/30_encoding.md R101,
spec/42_encoder.md R194 to R196). -/

namespace Sys2Proof.Machine

/-! ## Channel arithmetic (R9) -/

/-- `add8(x, d)` = (x + d) mod 256, the mathematical remainder: wrap-around, no clamping (R9). -/
def add8 (x : Byte) (d : Int) : Byte := BitVec.ofInt 8 ((x.toNat : Int) + d)

/-- `sdelta(x, y)` = sext_8((x − y) mod 256), the signed delta from y to x (R9). -/
def sdelta (x y : Byte) : Int := (x - y).toInt

/-! ## Decoder direction: field to operand (R101). Every biased field is excess-K: the operand is the field minus K. -/

/-- A DIFF delta, −2 to 1 (R98). -/
def diffDelta (field : BitVec 2) : Int := (field.toNat : Int) - 2

/-- LUMA's green delta, −32 to 31 (R99). -/
def lumaGreenDelta (field : BitVec 6) : Int := (field.toNat : Int) - 32

/-- LUMA's red or blue delta relative to the green delta, −8 to 7 (R99). -/
def lumaRelativeDelta (field : BitVec 4) : Int := (field.toNat : Int) - 8

/-- RUN's length, 1 to 62 (R100). -/
def runLength (field : BitVec 6) : Nat := field.toNat + 1

/-! ## Encoder direction: operand to field (R101) -/

/-- A DIFF field: the delta plus 2 (R195). -/
def diffField (d : Int) : BitVec 2 := BitVec.ofInt 2 (d + 2)

/-- LUMA's green field: the delta plus 32 (R196). -/
def lumaGreenField (dg : Int) : BitVec 6 := BitVec.ofInt 6 (dg + 32)

/-- LUMA's red or blue field: the relative delta plus 8 (R196). -/
def lumaRelativeField (d : Int) : BitVec 4 := BitVec.ofInt 4 (d + 8)

/-- RUN's field: the length minus 1 (R198). -/
def runField (n : Nat) : BitVec 6 := BitVec.ofNat 6 (n - 1)

/-! ## The delta-coder (R194 to R196) -/

/-- The three channel deltas of a pixel against the previous one; no alpha delta is formed (R194). -/
structure Deltas where
  dr : Int
  dg : Int
  db : Int
deriving DecidableEq, Repr

/-- The deltas from `prev` to `c` (R194). -/
def deltas (c prev : Pixel) : Deltas := ⟨sdelta c.r prev.r, sdelta c.g prev.g, sdelta c.b prev.b⟩

/-- `fits_diff`: each delta lies in −2 to 1 (R195). -/
def fitsDiff (d : Deltas) : Bool :=
  decide (-2 ≤ d.dr ∧ d.dr ≤ 1 ∧ -2 ≤ d.dg ∧ d.dg ≤ 1 ∧ -2 ≤ d.db ∧ d.db ≤ 1)

/-- `fits_luma`: dg lies in −32 to 31, and dr − dg and db − dg, plain integer differences, in −8 to 7 (R196). -/
def fitsLuma (d : Deltas) : Bool :=
  decide (-32 ≤ d.dg ∧ d.dg ≤ 31 ∧ -8 ≤ d.dr - d.dg ∧ d.dr - d.dg ≤ 7 ∧ -8 ≤ d.db - d.dg ∧ d.db - d.dg ≤ 7)

end Sys2Proof.Machine
end

