-- ==== Sys2Proof/Machine/Ops.lean ====
section
/-! DEFINITION. The named operations over the registers and streams (spec/00_scope.md R10): the start of a pass, raising a
FormatError, the pixel commit of the decoder, emission by the encoder. -/

namespace Sys2Proof.Machine

/-! ## Parts of the machine's state -/

/-- Replace the decoder. -/
def State.setDec (s : State) (d : Decoder) : State := { s with dec := d }

/-- Replace the encoder. -/
def State.setEnc (s : State) (e : Encoder) : State := { s with enc := e }

/-- Say who makes the next step. -/
def State.setAgent (s : State) (a : Agent) : State := { s with agent := a }

/-- `npix` of the decoder (R25). -/
abbrev Decoder.npix (d : Decoder) : Nat := d.regs.npix

/-- `npix` of the encoder (R25, R36). -/
abbrev Encoder.npix (e : Encoder) : Nat := e.regs.npix

/-! ## The start of a decode pass -/

/-- A decoder takes a start in IDLE, DONE and ERROR only (R240). -/
def Decoder.startable (d : Decoder) : Bool := d.phase == .idle || d.phase == .done || d.phase == .error

/-- The decoder's START: it latches the options and gives every other register its reset value (R43, R240, R310, R312).
`unparsed` is what the header registers hold until they are parsed, which the spec leaves open (R24). The strap
`serialPort` is a property of the implementation and stays (R247). -/
def Decoder.start (seed : Bool) (unparsed : HeaderRegs) (o : DecoderOptions) (input : List Byte) (d : Decoder) : Decoder where
  opts := o
  serialPort := d.serialPort
  phase := .header
  input := input
  ipos := 0
  opix := 0
  regs := unparsed
  prev := prevInit
  cache := Cache.initial seed
  pix := []
  trail := []
  hist := []
  endTagPresent := false
  done := false
  error := false
  cause := .none
  count := {}
  pixelDataByteLength := 0
  hdr := []
  tag := 0#8
  args := []
  need := 0
  matched := 0
  runLeft := 0

/-! ## Taking an exception -/

/-- `raise FormatError(c)`: `error <- 1`, `cause <- c`, `phase <- ERROR`. `done` stays 0, nothing is saved and control goes
nowhere: there is no handler, vector or mode (R280, R248). There is no return from it: the next START resets all state
(R282). -/
def Decoder.raise (c : Cause) (d : Decoder) : Decoder := { d with error := true, cause := c, phase := .error }

/-! ## The decoder's commit -/

/-- `out_color`: the pixel itself, or in debug mode the sentinel of the chunk that made it (R170). -/
def outColor (debugMode : Bool) (p : Pixel) (type : ChunkType) (k : Nat) : Pixel :=
  if debugMode then debugColor (debugKind type k) else p

/-- One logical pixel: put it out, UPDATE the cache with the true pixel, make it `prev`, and append a snapshot of the
updated cache when the history is asked for (R163, R171). `k` is its number within its chunk. -/
def Decoder.commitPixel (p : Pixel) (type : ChunkType) (k : Nat) (d : Decoder) : Decoder :=
  { d with
    pix := d.pix ++ [outColor d.opts.debugMode p type k]
    opix := d.opix + 1
    cache := d.cache.update p
    prev := p
    hist := if d.opts.storeFullIndexHistory then d.hist ++ [d.cache.update p] else d.hist }

/-- The pixels number k, k+1, … of a chunk, `n` of them (R163). -/
def Decoder.commitPixels (p : Pixel) (type : ChunkType) : Nat → Nat → Decoder → Decoder
  | _, 0, d => d
  | k, n + 1, d => Decoder.commitPixels p type (k + 1) n (d.commitPixel p type k)

/-- One more completely decoded chunk of a type (R29, R169). -/
def ChunkCounts.bump (type : ChunkType) (n : ChunkCounts) : ChunkCounts :=
  match type with
  | .rgb => { n with rgb := n.rgb + 1 }
  | .rgba => { n with rgba := n.rgba + 1 }
  | .index => { n with index := n.index + 1 }
  | .diff => { n with diff := n.diff + 1 }
  | .luma => { n with luma := n.luma + 1 }
  | .run => { n with run := n.run + 1 }

/-- Count a chunk, once whatever its number of pixels (R169, D20). -/
def Decoder.countChunk (type : ChunkType) (d : Decoder) : Decoder := { d with count := d.count.bump type }

/-- `commit(p, n, type)` (R163). -/
def Decoder.commit (p : Pixel) (n : Nat) (type : ChunkType) (d : Decoder) : Decoder :=
  (d.commitPixels p type 0 n).countChunk type

/-- `ipos <- ipos + n` (R26). -/
def Decoder.advance (n : Nat) (d : Decoder) : Decoder := { d with ipos := d.ipos + n }

/-! ## The encoder's emission and start -/

/-- `emit(bytes)`: append at `opos`, which is the end of `OUT` (R66). -/
def Encoder.emit (bytes : List Byte) (e : Encoder) : Encoder :=
  { e with out := e.out ++ bytes, opos := e.opos + bytes.length }

/-- Emit one item. -/
def Encoder.emitItem (i : Instr) (e : Encoder) : Encoder := e.emit (encode i)

/-- An encoder takes a start in IDLE and DONE only (R240; it has no ERROR). -/
def Encoder.startable (e : Encoder) : Bool := e.phase == .idle || e.phase == .done

/-- The encoder's START: it latches the options, the header registers and the trailing input, gives every other register
its reset value, emits the header, and goes to PIXELS, or to TAIL when there is no pixel (R43, R190, R191, R240). -/
def Encoder.start (seed : Bool) (o : EncoderOptions) (regs : HeaderRegs) (pixels : List Pixel) (trailing : List Byte) :
    Encoder :=
  Encoder.emitItem (.header regs.width regs.height regs.channels regs.colorspace)
    { opts := o
      phase := if regs.npix = 0 then .tail else .pixels
      regs := regs
      pixels := pixels
      trailing := trailing
      i := 0
      opos := 0
      prev := prevInit
      cache := Cache.initial seed
      run := 0
      out := []
      done := false }

/-- The two enum fields of an Image are legal (R46, R47, R190). -/
def fieldsLegal (regs : HeaderRegs) : Bool := legalChannels regs.channels && legalColorspace regs.colorspace

/-- A valid Image: exactly width × height pixels and legal enum fields, the encoder's precondition (R45, R190). -/
def Image.valid (x : Image) : Bool := fieldsLegal x.regs && x.pixels.length == x.regs.npix

end Sys2Proof.Machine
end

