-- ==== Sys2Proof/Machine/Encode.lean ====
section
/-! DEFINITION. `QOI_encoder` at the pass level (spec/42_encoder.md R190 to R208): the chunk-selector, the six emissions, the
commit, the framing after the pixels, and one step of an encode pass over a whole Image. -/

namespace Sys2Proof.Machine

/-! ## The chunks the encoder writes -/

/-- RUN of a length (R198). -/
def runChunk (n : Nat) : Instr := .run (runField n)

/-- INDEX of the slot the pixel hashes to (R199). -/
def indexChunk (c : Pixel) : Instr := .index (hash c)

/-- RGBA, forced by an alpha change or as the substitute for RGB (R200, R204). -/
def rgbaChunk (c : Pixel) : Instr := .rgba c.r c.g c.b c.a

/-- DIFF of three deltas that fit (R201). -/
def diffChunk (d : Deltas) : Instr := .diff (diffField d.dr) (diffField d.dg) (diffField d.db)

/-- LUMA of three deltas that fit (R202). -/
def lumaChunk (d : Deltas) : Instr :=
  .luma (lumaGreenField d.dg) (lumaRelativeField (d.dr - d.dg)) (lumaRelativeField (d.db - d.dg))

/-- RGB, the fallback (R203). -/
def rgbChunk (c : Pixel) : Instr := .rgb c.r c.g c.b

/-! ## The chunk-selector -/

/-- Case 1 applies: RUN is enabled and the pixel equals `prev` (R197, R198, D3). -/
def Encoder.runApplies (e : Encoder) (c : Pixel) : Bool := e.opts.useRun && c == e.prev

/-- Cases 2 to 7 in their fixed precedence, first match wins; a disabled case does not match (R197, R199 to R205). -/
def Encoder.selectSingle (e : Encoder) (c : Pixel) : Instr :=
  if e.opts.useIndex && e.cache.hit c then indexChunk c
  else if c.a ≠ e.prev.a then rgbaChunk c
  else if e.opts.useDiff && fitsDiff (deltas c e.prev) then diffChunk (deltas c e.prev)
  else if e.opts.useLuma && fitsLuma (deltas c e.prev) then lumaChunk (deltas c e.prev)
  else if e.opts.useRgb then rgbChunk c
  else rgbaChunk c

/-- How many pixels at the front of a list equal `prev`, at most `limit` (R198). -/
def runAhead (prev : Pixel) : Nat → List Pixel → Nat
  | 0, _ => 0
  | _, [] => 0
  | limit + 1, p :: rest => if p = prev then runAhead prev limit rest + 1 else 0

/-! ## Commit and one chunk -/

/-- The encoder's commit of one pixel: UPDATE, then `prev` (R206). -/
def Encoder.commitPixel (e : Encoder) (p : Pixel) : Encoder := { e with cache := e.cache.update p, prev := p }

/-- The commit of the pixels a chunk covers, in order (R206). -/
def Encoder.commitPixels (e : Encoder) (ps : List Pixel) : Encoder := ps.foldl Encoder.commitPixel e

/-- How many pixels the chunk for a position covers, given the pixels from that position on: a run as long as it can be,
one pixel otherwise (R193, R198). -/
def Encoder.covered (e : Encoder) (c : Pixel) (ahead : List Pixel) : Nat :=
  if e.runApplies c then runAhead e.prev (min runMax (e.npix - e.i)) (c :: ahead) else 1

/-- The chunk for a position: case 1 if it applies, else cases 2 to 7 (R197). -/
def Encoder.select (e : Encoder) (c : Pixel) (ahead : List Pixel) : Instr :=
  if e.runApplies c then runChunk (e.covered c ahead) else e.selectSingle c

/-- `i <- i + n` (R37). -/
def Encoder.advance (n : Nat) (e : Encoder) : Encoder := { e with i := e.i + n }

/-- One turn of the pixel loop: select and emit the chunk for position `i`, commit its pixels, advance (R193). There is no
turn when the pixel buffer ends before position `i`, which a valid Image excludes (R190, U5). -/
def Encoder.encodeChunk (e : Encoder) : Option Encoder :=
  match e.pixels.drop e.i with
  | [] => none
  | c :: ahead =>
    some (((e.emitItem (e.select c ahead)).commitPixels ((c :: ahead).take (e.covered c ahead))).advance (e.covered c ahead))

/-! ## After the pixels -/

/-- The end marker, unless disabled (R207). -/
def Encoder.writeMarker (e : Encoder) : Encoder := if e.opts.insertEndTag then e.emitItem .endMarker else e

/-- The trailing data, verbatim, unless disabled (R208). -/
def Encoder.writeTrailing (e : Encoder) : Encoder := if e.opts.stripTrailingData then e else e.emit e.trailing

/-- TAIL: the end marker, then the trailing data, then DONE (R207, R208, R252). -/
def Encoder.writeTail (e : Encoder) : Encoder := e.writeMarker.writeTrailing.finish

/-- One step of an encode pass over a whole Image (R190, R193); none is an Image whose pixels run out.
The phase it shows between its turns is a DESIGN CHOICE (log entry 22). -/
def Encoder.passStep (e : Encoder) : Option Encoder :=
  match e.phase with
  | .pixels => if e.i < e.npix then e.encodeChunk else some (e.goTo .tail)
  | .tail => some e.writeTail
  | .idle => some e
  | .done => some e

/-- The encoder's step in the machine: a pass that is over gives the next step back to the host. -/
def encoderStep (s : State) : Host.Outcome State Fault Refusal :=
  if s.enc.startable then .next (s.setAgent .host)
  else
    match s.enc.passStep with
    | some e => .next (s.setEnc e)
    | none => .refused .imageSizeMismatch

/-! ## The pass as a function -/

/-- `n` steps of an encode pass. -/
def Encoder.runPass : Nat → Encoder → Option Encoder
  | 0, e => some e
  | n + 1, e =>
    match e.passStep with
    | some e => Encoder.runPass n e
    | none => none

/-- `encode(Image, options) -> bytes` (R190): the output of the pass that a valid Image starts, none for an Image outside
the contract. -/
def encodePass (seed : Bool) (o : EncoderOptions) (x : Image) : Option (List Byte) :=
  if x.valid then
    match (Encoder.start seed o x.regs x.pixels x.trailing).runPass (x.pixels.length + 2) with
    | some e => if e.done then some e.out else none
    | none => none
  else none

end Sys2Proof.Machine
end

