-- ==== Sys2Proof/Machine/Delta.lean ====
section
/-! DEFINITION. The chunks that carry deltas from the previous pixel: DIFF and LUMA (spec/41_decoder.md R160, R161). -/

namespace Sys2Proof.Machine

/-- DIFF's pixel: each color channel of `prev` plus its delta, alpha unchanged (R160). -/
def diffPixel (dr2 dg2 db2 : BitVec 2) (prev : Pixel) : Pixel :=
  ⟨add8 prev.r (diffDelta dr2), add8 prev.g (diffDelta dg2), add8 prev.b (diffDelta db2), prev.a⟩

/-- DIFF on the decoder (R160). -/
def diffEffect (dr2 dg2 db2 : BitVec 2) (d : Decoder) : Decoder :=
  (d.advance 1).commit (diffPixel dr2 dg2 db2 d.prev) 1 .diff

/-- DIFF (R160). -/
def execDiff (dr2 dg2 db2 : BitVec 2) (s : State) : Host.Outcome State Fault Refusal :=
  .next (s.setDec (diffEffect dr2 dg2 db2 s.dec))

/-- LUMA's pixel: green plus the green delta, red and blue plus the green delta and their own relative delta, alpha
unchanged (R161). -/
def lumaPixel (dg32 : BitVec 6) (drg8 dbg8 : BitVec 4) (prev : Pixel) : Pixel :=
  ⟨add8 prev.r (lumaGreenDelta dg32 + lumaRelativeDelta drg8), add8 prev.g (lumaGreenDelta dg32),
   add8 prev.b (lumaGreenDelta dg32 + lumaRelativeDelta dbg8), prev.a⟩

/-- LUMA on the decoder (R161). -/
def lumaEffect (dg32 : BitVec 6) (drg8 dbg8 : BitVec 4) (d : Decoder) : Decoder :=
  (d.advance 2).commit (lumaPixel dg32 drg8 dbg8 d.prev) 1 .luma

/-- LUMA (R161). -/
def execLuma (dg32 : BitVec 6) (drg8 dbg8 : BitVec 4) (s : State) : Host.Outcome State Fault Refusal :=
  .next (s.setDec (lumaEffect dg32 drg8 dbg8 s.dec))

end Sys2Proof.Machine
end

