-- ==== Sys2Proof/Machine/FullColor.lean ====
section
/-! DEFINITION. The chunks that carry whole channels or a slot number: RGB, RGBA, INDEX (spec/41_decoder.md R157 to R159). -/

namespace Sys2Proof.Machine

/-- RGB on the decoder: the three channels of the chunk, alpha of `prev` (R157). -/
def rgbEffect (r g b : Byte) (d : Decoder) : Decoder := (d.advance 4).commit ⟨r, g, b, d.prev.a⟩ 1 .rgb

/-- RGB (R157). -/
def execRgb (r g b : Byte) (s : State) : Host.Outcome State Fault Refusal := .next (s.setDec (rgbEffect r g b s.dec))

/-- RGBA on the decoder: all four channels of the chunk (R158). -/
def rgbaEffect (r g b a : Byte) (d : Decoder) : Decoder := (d.advance 5).commit ⟨r, g, b, a⟩ 1 .rgba

/-- RGBA (R158). -/
def execRgba (r g b a : Byte) (s : State) : Host.Outcome State Fault Refusal := .next (s.setDec (rgbaEffect r g b a s.dec))

/-- INDEX on the decoder: the pixel the slot holds before this chunk's own commit (R159, R319). -/
def indexEffect (idx : BitVec 6) (d : Decoder) : Decoder := (d.advance 1).commit (d.cache.read idx) 1 .index

/-- INDEX (R159). -/
def execIndex (idx : BitVec 6) (s : State) : Host.Outcome State Fault Refusal := .next (s.setDec (indexEffect idx s.dec))

end Sys2Proof.Machine
end

