-- ==== Sys2Proof/Machine/Run.lean ====
section
/-! DEFINITION. The RUN chunk (spec/41_decoder.md R162, R164). -/

namespace Sys2Proof.Machine

/-- RUN on the decoder: `prev`, committed once per pixel of the run; a run longer than the pixels still expected raises
RUN_OVERRUN and produces no pixel (R162, R164). -/
def runEffect (len1 : BitVec 6) (d : Decoder) : Decoder :=
  if d.opix + runLength len1 > d.npix then d.raise .runOverrun
  else (d.advance 1).commit d.prev (runLength len1) .run

/-- RUN (R162). -/
def execRun (len1 : BitVec 6) (s : State) : Host.Outcome State Fault Refusal := .next (s.setDec (runEffect len1 s.dec))

end Sys2Proof.Machine
end

