-- ==== Sys2Proof/Machine/Framing.lean ====
section
/-! DEFINITION. The framing items HEADER and END (spec/41_decoder.md R151, R167), and the effect of any item on the decoder. -/

namespace Sys2Proof.Machine

/-- The header's width and height are written as soon as they are read (R151). -/
def Decoder.writeSize (width height : U32) (d : Decoder) : Decoder :=
  { d with regs := { d.regs with width := width, height := height } }

/-- A legal channel byte is written (R151). -/
def Decoder.writeChannels (channels : Byte) (d : Decoder) : Decoder := { d with regs := { d.regs with channels := channels } }

/-- A legal colorspace byte is written; the header is complete, `ipos` is 14 and the chunk loop is next (R151).
That the phase then shows TAG, for a zero-pixel image too, is a DESIGN CHOICE (R33 gives the pass level no phase; log entry 22). -/
def Decoder.writeColorspace (colorspace : Byte) (d : Decoder) : Decoder :=
  { d with regs := { d.regs with colorspace := colorspace }, ipos := headerLen, phase := .tag }

/-- HEADER on the decoder: width and height are written, then channels and colorspace are judged and written in stream
order (R151, R273, R274, R279). -/
def headerEffect (width height : U32) (channels colorspace : Byte) (d : Decoder) : Decoder :=
  if legalChannels channels = false then (d.writeSize width height).raise .badChannels
  else if legalColorspace colorspace = false then ((d.writeSize width height).writeChannels channels).raise .badColorspace
  else ((d.writeSize width height).writeChannels channels).writeColorspace colorspace

/-- HEADER (R151). -/
def execHeader (width height : U32) (channels colorspace : Byte) (s : State) : Host.Outcome State Fault Refusal :=
  .next (s.setDec (headerEffect width height channels colorspace s.dec))

/-- END on the decoder: the marker is present and stripped, and the trailing data is next (R167), which the
phase shows (DESIGN CHOICE, log entry 22). -/
def endMarkerEffect (d : Decoder) : Decoder := ((d.setEndTag true).advance 8).goTo .trailing

/-- END (R167). -/
def execEndMarker (s : State) : Host.Outcome State Fault Refusal := .next (s.setDec (endMarkerEffect s.dec))

/-- The effect of an item on the decoder alone: what `exec` does, seen from the decoder's registers (log entry 12). -/
def itemEffect (i : Instr) (d : Decoder) : Decoder :=
  match i with
  | .rgb r g b => rgbEffect r g b d
  | .rgba r g b a => rgbaEffect r g b a d
  | .index idx => indexEffect idx d
  | .diff dr2 dg2 db2 => diffEffect dr2 dg2 db2 d
  | .luma dg32 drg8 dbg8 => lumaEffect dg32 drg8 dbg8 d
  | .run len1 => runEffect len1 d
  | .header w h c s => headerEffect w h c s d
  | .endMarker => endMarkerEffect d

end Sys2Proof.Machine
end

