-- ==== Sys2Proof/Machine/Pass.lean ====
section
/-! DEFINITION. `QOI_decoder` at the pass level: a decode pass over a whole input, one item at a time (spec/41_decoder.md R150,
R155, R165 to R168, R173), and its result (R150, R280). -/

namespace Sys2Proof.Machine

/-- What a decode pass does next. -/
inductive DecoderAction where
  /-- Execute the item that stands at `ipos`. -/
  | item (i : Instr)
  /-- Raise the FormatError met in reading the item. -/
  | raise (c : Cause)
  /-- Leave the chunk loop (R166). -/
  | loopEnd
  /-- The end marker does not stand at `ipos` (R167). -/
  | markerAbsent
  /-- Copy the trailing data and end the pass (R168). -/
  | copyTrailing
  /-- No decode pass over a whole input is running. -/
  | rest
deriving DecidableEq, Repr

/-- What a rejected reading leads to (R271). -/
def rejectAction : Reject → DecoderAction
  | .truncated => .raise .truncated
  | .badMagic => .raise .badMagic
  | .badChannels => .raise .badChannels
  | .notMarker => .markerAbsent

/-- Read the item at `ipos` of a section. -/
def Decoder.fetch (sec : StreamSection) (d : Decoder) : DecoderAction :=
  match decode sec (d.input.drop d.ipos) with
  | .ok (i, _) => .item i
  | .error r => rejectAction r

/-- The order of a decode pass: header, chunk loop, end marker, trailing data. The loop's two conditions are tested between
chunks only (R150, R155). Where the pass stands is held in `phase`, with the step level's names: a DESIGN CHOICE, since the
pass-level rules do not mention the phase (R33; log entry 22). -/
def Decoder.nextAction (d : Decoder) : DecoderAction :=
  match d.phase with
  | .header => d.fetch .header
  | .tag => if d.ipos < d.input.length ∧ d.opix < d.npix then d.fetch .chunks else .loopEnd
  | .endMark => d.fetch .marker
  | .trailing => .copyTrailing
  | .idle => .rest
  | .args => .rest
  | .done => .rest
  | .error => .rest

/-- What the header registers hold once reading the item has failed: in the header they have the fields read before the
failure (R151); nothing else reads a register's value out of the stream. -/
def Decoder.regsRead (d : Decoder) : HeaderRegs :=
  if d.phase = .header ∧ (d.input.drop d.ipos).take 4 = magic then d.regs.readSoFar (d.input.drop d.ipos) else d.regs

/-- The reading has failed: the header fields that were read stay written, and the FormatError is raised (R151, R280). -/
def Decoder.failReading (c : Cause) (d : Decoder) : Decoder := Decoder.raise c { d with regs := d.regsRead }

/-- Loop end: `pixel_data_byte_length <- ipos − 14` (R30, R166); the marker test is next, which the phase shows (DESIGN CHOICE,
log entry 22). -/
def Decoder.endLoop (d : Decoder) : Decoder :=
  { d with pixelDataByteLength := d.ipos - headerLen, phase := .endMark }

/-- The absent end marker: an error when it is required, else reported and nothing is stripped (R167, R278). -/
def Decoder.missMarker (d : Decoder) : Decoder :=
  if d.opts.requireEndTag then (d.setEndTag false).raise .missingEndTag
  else (d.setEndTag false).goTo .trailing

/-- Trailing data: all the remaining bytes, verbatim; then `done` (R168, R150). -/
def Decoder.takeTrailing (d : Decoder) : Decoder :=
  Decoder.finish { d with trail := d.input.drop d.ipos, ipos := d.input.length }

/-- The actions that execute no item. -/
def Decoder.control (a : DecoderAction) (d : Decoder) : Decoder :=
  match a with
  | .item _ => d
  | .raise c => d.failReading c
  | .loopEnd => d.endLoop
  | .markerAbsent => d.missMarker
  | .copyTrailing => d.takeTrailing
  | .rest => d

/-- The decoder's step in the machine: it executes the item it has read, and a pass that is over gives the next step back to
the host. -/
def decoderStep (s : State) : Host.Outcome State Fault Refusal :=
  match s.dec.nextAction with
  | .item i => exec i s
  | .raise c => .next (s.setDec (s.dec.control (.raise c)))
  | .loopEnd => .next (s.setDec (s.dec.control .loopEnd))
  | .markerAbsent => .next (s.setDec (s.dec.control .markerAbsent))
  | .copyTrailing => .next (s.setDec (s.dec.control .copyTrailing))
  | .rest => .next (s.setAgent .host)

/-! ## The pass as a function -/

/-- The same step, on the decoder alone. -/
def Decoder.passStep (d : Decoder) : Decoder :=
  match d.nextAction with
  | .item i => itemEffect i d
  | a => d.control a

/-- `n` steps of a decode pass. -/
def Decoder.runPass : Nat → Decoder → Decoder
  | 0, d => d
  | n + 1, d => Decoder.runPass n d.passStep

/-- What a successful decode delivers: the Image's fields, whose pixels are the `PIX` put out (fewer than width × height in
the tolerated short case, R173), and the side outputs (R150). -/
structure DecodeResult where
  image               : Image
  endTagPresent       : Bool
  count               : ChunkCounts
  pixelDataByteLength : Nat
  history             : Option (List Cache)
deriving DecidableEq, Repr

/-- The outputs of a pass that is done. -/
def Decoder.outputs (d : Decoder) : DecodeResult where
  image := ⟨d.regs, d.pix, d.trail⟩
  endTagPresent := d.endTagPresent
  count := d.count
  pixelDataByteLength := d.pixelDataByteLength
  history := if d.opts.storeFullIndexHistory then some d.hist else none

/-- The result of a pass: its outputs once `done` is set; the cause alone once `error` is set, since every other output is
then void (R280, D10); nothing while it runs. -/
def Decoder.result (d : Decoder) : Option (Except Cause DecodeResult) :=
  if d.error then some (.error d.cause)
  else if d.done then some (.ok d.outputs)
  else none

/-- The end state of `decode(bytes, options)` (R150): a pass takes one step for the header, at most one per payload byte for
the chunks, and three to leave the loop, test the marker and copy the trailing data. -/
def decodeFinal (seed : Bool) (unparsed : HeaderRegs) (o : DecoderOptions) (input : List Byte) (d : Decoder) : Decoder :=
  (d.start seed unparsed o input).runPass (input.length + 4)

/-- `decode(bytes, options)` (R150), on a decoder just out of reset; by R42 the choice does not matter. -/
def decodePass (seed : Bool) (o : DecoderOptions) (input : List Byte) : Option (Except Cause DecodeResult) :=
  (decodeFinal seed (Config.unparsedHeader 0) o input Decoder.reset).result

end Sys2Proof.Machine
end

