-- ==== Sys2Proof/Machine/Stream.lean ====
section
/-! DEFINITION. The step level: the decoder that takes one byte per event and the encoder that takes one pixel per event, and the
delivery of the host's events (spec/43_streaming_fsm.md R240 to R256). -/

namespace Sys2Proof.Machine

/-! ## The decoder, byte by byte -/

/-- A BYTE event is accepted: `ipos` counts the accepted bytes (R241). -/
def Decoder.accept (d : Decoder) : Decoder := { d with ipos := d.ipos + 1 }

/-- An accepted byte of the pixel section counts toward its length (R243, R244). -/
def Decoder.acceptPixelByte (d : Decoder) : Decoder :=
  { d.accept with pixelDataByteLength := d.pixelDataByteLength + 1 }

/-- `next_phase()`: END once `npix` pixels are out, else TAG; a chunk that has raised stays in ERROR (R243, R248). -/
def Decoder.nextPhase (d : Decoder) : Decoder :=
  if d.error then d else { d with phase := if d.opix = d.npix then .endMark else .tag }

/-- A header byte is appended to `hdr` (R242). -/
def Decoder.pushHeader (b : Byte) (d : Decoder) : Decoder := { d.accept with hdr := d.hdr ++ [b] }

/-- The complete header is written to the header registers, and the pass goes to END when there is no pixel, else to TAG
(R242). -/
def Decoder.latchHeader (regs : HeaderRegs) (d : Decoder) : Decoder :=
  { d with regs := regs, phase := if regs.npix = 0 then .endMark else .tag }

/-- The magic is judged at the 4th byte, channels at the 13th, colorspace at the 14th, which completes the header (R242). -/
def Decoder.judgeHeader (b : Byte) (d : Decoder) : Decoder :=
  if d.hdr.length = 4 ∧ d.hdr ≠ magic then d.raise .badMagic
  else if d.hdr.length = 13 ∧ legalChannels b = false then d.raise .badChannels
  else if d.hdr.length = 14 then
    if legalColorspace b = false then d.raise .badColorspace else d.latchHeader (headerFields d.hdr)
  else d

/-- Phase HEADER (R242). -/
def Decoder.byteHeader (b : Byte) (d : Decoder) : Decoder := (d.pushHeader b).judgeHeader b

/-- Put the cursor at a position. -/
def Decoder.setIpos (n : Nat) (d : Decoder) : Decoder := { d with ipos := n }

/-- Execute the chunk whose bytes are all in, with `ipos` left at the accepted count, then go to the next phase (R243, R244).
A chunk's bytes always decode once the tag's continuation bytes are in. -/
def Decoder.completeChunk (bytes : List Byte) (d : Decoder) : Decoder :=
  match decodeChunk bytes with
  | .ok (i, _) => ((itemEffect i d).setIpos d.ipos).nextPhase
  | .error _ => d

/-- A RUN on a port that carries one pixel per transfer: `run_left` is loaded with the length (R247). The tag is kept, so
that the head of the run can be told from its continuation (log entry 8). -/
def Decoder.loadRun (t : Byte) (d : Decoder) : Decoder :=
  if d.opix + runLength (t.extractLsb' 0 6) > d.npix then d.raise .runOverrun
  else { d with tag := t, runLeft := runLength (t.extractLsb' 0 6) }

/-- The tag of a longer chunk is kept until its continuation bytes are in (R243). -/
def Decoder.openChunk (t : Byte) (d : Decoder) : Decoder :=
  { d with tag := t, need := continuationBytes t, args := [], phase := .args }

/-- What an accepted tag byte starts (R243). -/
def Decoder.takeTag (t : Byte) (d : Decoder) : Decoder :=
  if continuationBytes t ≠ 0 then d.openChunk t
  else if d.serialPort && dispatchTag t == .run then d.loadRun t
  else d.completeChunk [t]

/-- Phase TAG (R243). -/
def Decoder.byteTag (t : Byte) (d : Decoder) : Decoder := d.acceptPixelByte.takeTag t

/-- A continuation byte is kept (R244). -/
def Decoder.pushArg (b : Byte) (d : Decoder) : Decoder := { d.acceptPixelByte with args := d.args ++ [b] }

/-- The chunk is executed once its continuation bytes are in (R244). -/
def Decoder.takeArgs (d : Decoder) : Decoder :=
  if d.args.length = d.need then d.completeChunk (d.tag :: d.args) else d

/-- Phase ARGS (R244). -/
def Decoder.byteArgs (b : Byte) (d : Decoder) : Decoder := (d.pushArg b).takeArgs

/-- One more byte of the marker has matched; the eighth completes it (R245). -/
def Decoder.matchMarker (d : Decoder) : Decoder :=
  if d.matched = 7 then { d with matched := 8, endTagPresent := true, phase := .trailing }
  else { d with matched := d.matched + 1 }

/-- Append bytes to `TRAIL` (R62). -/
def Decoder.pushTrail (bytes : List Byte) (d : Decoder) : Decoder := { d with trail := d.trail ++ bytes }

/-- The marker is not there: an error when it is required, else the bytes held back are given back as trailing data (R245). -/
def Decoder.breakMarker (held : List Byte) (d : Decoder) : Decoder :=
  if d.opts.requireEndTag then (d.setEndTag false).raise .missingEndTag
  else ((d.setEndTag false).pushTrail held).goTo .trailing

/-- Phase END: bytes are held back while they match the marker (R245). -/
def Decoder.byteEnd (b : Byte) (d : Decoder) : Decoder :=
  if endMarkerBytes[d.matched]? = some b then d.accept.matchMarker
  else d.accept.breakMarker (endMarkerBytes.take d.matched ++ [b])

/-- Phase TRAILING (R246). -/
def Decoder.byteTrailing (b : Byte) (d : Decoder) : Decoder := d.accept.pushTrail [b]

/-- `BYTE(b)`: ignored in IDLE, DONE and ERROR (R248, U14), and not accepted while a serialised run is put out (R247). -/
def Decoder.byteEvent (b : Byte) (d : Decoder) : Decoder :=
  if d.runLeft ≠ 0 then d
  else
    match d.phase with
    | .idle => d
    | .header => d.byteHeader b
    | .tag => d.byteTag b
    | .args => d.byteArgs b
    | .endMark => d.byteEnd b
    | .trailing => d.byteTrailing b
    | .done => d
    | .error => d

/-- The end of input with the marker not complete: an error when it is required, else the held bytes are trailing data
(R243, R245, R173). -/
def Decoder.eoiWithoutMarker (held : List Byte) (d : Decoder) : Decoder :=
  if d.opts.requireEndTag then (d.setEndTag false).raise .missingEndTag
  else ((d.setEndTag false).pushTrail held).finish

/-- `EOI` (R242 to R246): ignored in IDLE, DONE and ERROR (R248, U14). -/
def Decoder.eoiEvent (d : Decoder) : Decoder :=
  if d.runLeft ≠ 0 then d
  else
    match d.phase with
    | .idle => d
    | .header => d.raise .truncated
    | .tag => d.eoiWithoutMarker []
    | .args => d.raise .truncated
    | .endMark => d.eoiWithoutMarker (endMarkerBytes.take d.matched)
    | .trailing => d.finish
    | .done => d
    | .error => d

/-- `run_left <- n` (R247). -/
def Decoder.setRunLeft (n : Nat) (d : Decoder) : Decoder := { d with runLeft := n }

/-- After its last transfer a serialised run is counted, and the next phase is taken (R247, R243). -/
def Decoder.closeRun (d : Decoder) : Decoder := if d.runLeft = 0 then (d.countChunk .run).nextPhase else d

/-- One transfer of a serialised run: one pixel equal to `prev` is put out and `run_left` is decremented (R247). It is pixel
number length − `run_left` of its chunk. -/
def Decoder.transfer (d : Decoder) : Decoder :=
  if d.runLeft = 0 then d
  else
    ((d.commitPixel d.prev .run (runLength (d.tag.extractLsb' 0 6) - d.runLeft)).setRunLeft (d.runLeft - 1)).closeRun

/-- All the transfers that are due, `n` of them. -/
def Decoder.transfers : Nat → Decoder → Decoder
  | 0, d => d
  | n + 1, d => Decoder.transfers n d.transfer

/-- One byte with all the transfers it causes. -/
def Decoder.feedByte (d : Decoder) (b : Byte) : Decoder := (d.byteEvent b).transfers (d.byteEvent b).runLeft

/-- A whole input fed byte by byte, then EOI (R249). -/
def Decoder.feed (d : Decoder) (input : List Byte) : Decoder := (input.foldl Decoder.feedByte d).eoiEvent

/-! ## The encoder, pixel by pixel -/

/-- `run <- n` (R38). -/
def Encoder.setRun (n : Nat) (e : Encoder) : Encoder := { e with run := n }

/-- Write out the pending run, if there is one (R251). -/
def Encoder.flushRun (e : Encoder) : Encoder := if e.run > 0 then (e.emitItem (runChunk e.run)).setRun 0 else e

/-- A run of 62 is written out at once (R251). -/
def Encoder.flushFullRun (e : Encoder) : Encoder := if e.run = runMax then e.flushRun else e

/-- A pixel equal to `prev` with RUN enabled is counted and committed (R251). -/
def Encoder.absorb (c : Pixel) (e : Encoder) : Encoder := ((e.setRun (e.run + 1)).commitPixel c).flushFullRun

/-- A chunk of cases 2 to 7 for a pixel, and its commit (R251). -/
def Encoder.emitPixel (c : Pixel) (e : Encoder) : Encoder := (e.emitItem (e.selectSingle c)).commitPixel c

/-- Any other pixel: the pending run is written out, then the pixel's own chunk (R251). -/
def Encoder.emitSingle (c : Pixel) (e : Encoder) : Encoder := e.flushRun.emitPixel c

/-- TAIL waits for no event: it is entered and left within the step that completes the image (R252). -/
def Encoder.settle (e : Encoder) : Encoder := if e.phase = .tail then e.writeTail else e

/-- The end of the image writes out the pending run and goes to TAIL (R251). -/
def Encoder.endOfImage (e : Encoder) : Encoder :=
  if e.i = e.npix then e.flushRun.goTo .tail else e

/-- One pixel is absorbed into the pending run or written out (R251). -/
def Encoder.takePixel (e : Encoder) (c : Pixel) : Encoder := if e.runApplies c then e.absorb c else e.emitSingle c

/-- `PIXEL(c)`: not accepted outside phase PIXELS (R251, U14). -/
def Encoder.pixelEvent (c : Pixel) (e : Encoder) : Encoder :=
  match e.phase with
  | .pixels => ((e.takePixel c).advance 1).endOfImage.settle
  | .idle => e
  | .tail => e
  | .done => e

/-- A pixel-serial encode: START, then the pixels in order (R254). -/
def Encoder.feed (seed : Bool) (o : EncoderOptions) (x : Image) : Encoder :=
  x.pixels.foldl (fun e c => e.pixelEvent c) (Encoder.start seed o x.regs [] x.trailing).settle

/-! ## The host's events -/

/-- A decode pass starts; a start during a decode pass is not accepted (R240, U14). The header registers take the next
free value (log entry 3). -/
def State.startDecode (s : State) (o : DecoderOptions) (input : List Byte) (next : Agent) : State :=
  if s.dec.startable then
    { s with
      dec := s.dec.start Config.cacheSeed (Config.unparsedHeader s.freeIndex) o input
      freeIndex := s.freeIndex + 1
      agent := next }
  else s

/-- The host's event takes effect. An encode start outside the encoder's contract is refused (R190, R289, U5, U6, D19); a
start during an encode pass is not accepted (R240, U14). -/
def deliver (ev : Event) (s : State) : Host.Outcome State Fault Refusal :=
  match ev with
  | .startDecode o => .next (s.startDecode o [] .host)
  | .decode o input => .next (s.startDecode o input .decoder)
  | .byte b => .next (s.setDec (s.dec.byteEvent b))
  | .eoi => .next (s.setDec s.dec.eoiEvent)
  | .startEncode o regs trailing =>
    if s.enc.startable = false then .next s
    else if fieldsLegal regs = false then .refused .imageFieldIllegal
    else .next (s.setEnc (Encoder.start Config.cacheSeed o regs [] trailing).settle)
  | .pixel p => .next (s.setEnc (s.enc.pixelEvent p))
  | .encode o x =>
    if s.enc.startable = false then .next s
    else if fieldsLegal x.regs = false then .refused .imageFieldIllegal
    else if x.pixels.length ≠ x.regs.npix then .refused .imageSizeMismatch
    else .next ((s.setEnc (Encoder.start Config.cacheSeed o x.regs x.pixels x.trailing)).setAgent .encoder)

/-- The host's turn: a transfer that is due comes first, since no further byte is accepted before it (R247); then the oldest
pending event; with none pending the core waits, and nothing times out (R256). -/
def hostStep (s : State) : Host.Outcome State Fault Refusal :=
  if s.dec.runLeft ≠ 0 then .next (s.setDec s.dec.transfer)
  else
    match s.pending with
    | [] => .next s
    | ev :: later => deliver ev { s with pending := later }

end Sys2Proof.Machine
end

