-- ==== Sys2Proof/Machine/Step.lean ====
section
/-! DEFINITION. One step of the machine, and how a test places the item that the next step runs. -/

namespace Sys2Proof.Machine

/-- One step: a whole-buffer pass that is running takes it, else the host's next event does (spec/00_scope.md R12,
log entry 4). -/
def step (s : State) : Host.Outcome State Fault Refusal :=
  match s.agent with
  | .host => hostStep s
  | .decoder => decoderStep s
  | .encoder => encoderStep s

/-- A decode pass that has put nothing out yet, with an input and a position to read it at. -/
def Decoder.fresh (phase : DecoderPhase) (input : List Byte) (ipos : Nat) (regs : HeaderRegs) (d : Decoder) : Decoder :=
  { d with
    phase := phase
    input := input
    ipos := ipos
    regs := regs
    opix := 0
    pix := []
    hist := []
    runLeft := 0
    done := false
    error := false
    cause := .none }

/-- The decoder with `bytes` as the input of a running pass at the point where it reads an item of a section: a header at
offset 0; a chunk after the header of a 64 × 1 image of which no pixel is out yet; an end marker after the header of an
image with no pixels (log entry 14). -/
def Decoder.load (sec : StreamSection) (bytes : List Byte) (d : Decoder) : Decoder :=
  match sec with
  | .header => d.fresh .header bytes 0 d.regs
  | .chunks => d.fresh .tag (encode (.header 64#32 1#32 4#8 0#8) ++ bytes) headerLen ⟨64#32, 1#32, 4#8, 0#8⟩
  | .marker => d.fresh .endMark (encode (.header 0#32 0#32 4#8 0#8) ++ bytes) headerLen ⟨0#32, 0#32, 4#8, 0#8⟩

/-- The state whose next step reads and runs the item the table word stands for. -/
def State.withFetchWord (s : State) (nbits w : Nat) : State :=
  { s with dec := s.dec.load (tableSection nbits w) (tableBytes nbits w), agent := .decoder }

end Sys2Proof.Machine
end

