-- ==== Sys2Proof/Safety.lean ====
section
/-! DEFINITION. What counts as a sound state, in the terms the claims use: the form of the streams and the invariants of the two
blocks and of the machine. -/

namespace Sys2Proof.Machine

/-- The memories of this hardware are its streams (spec/20_memory.md R60 to R66), each a finite sequence. They are in
canonical form when every stream that is written is exactly as long as the cursor that indexes it: `PIX` and `HIST` by
`opix`, `OUT` by `opos` (R61, R63, R66). -/
def Memory.wf (s : State) : Bool :=
  s.dec.pix.length == s.dec.opix
    && (!s.dec.opts.storeFullIndexHistory || s.dec.hist.length == s.dec.opix)
    && (s.dec.opts.storeFullIndexHistory || s.dec.hist.length == 0)
    && s.enc.out.length == s.enc.opos

/-- The cache is direct-mapped: a slot holds the reset value or a pixel that hashes to it (R130, R138). -/
def Cache.DirectMapped (slots : Cache) : Prop :=
  ∀ k : BitVec 6, slots.read k = zeroPixel ∨ hash (slots.read k) = k

/-- The header has been parsed in this pass and the pass has not failed. -/
def Decoder.afterHeader (d : Decoder) : Bool :=
  match d.phase with
  | .tag => true
  | .args => true
  | .endMark => true
  | .trailing => true
  | .done => true
  | .idle => false
  | .header => false
  | .error => false

/-- The invariant of the decoder. -/
structure Decoder.Inv (d : Decoder) : Prop where
  /-- R130, R138. -/
  directMapped : d.cache.DirectMapped
  /-- `prev` is in its slot, since the cache is seeded and every pixel is committed (R134, R139, R163). -/
  prevCached : d.cache.read (hash d.prev) = d.prev
  /-- Without debug colors `prev` is the last pixel put out, or `PREV_INIT` before the first (R21). -/
  prevIsLast : d.opts.debugMode = false → d.prev = d.pix.getLastD prevInit
  pixLength : d.pix.length = d.opix
  /-- With the history asked for there is one snapshot per pixel, without it none (R31, R171). -/
  histLength : d.opts.storeFullIndexHistory = true → d.hist.length = d.opix
  histEmpty : d.opts.storeFullIndexHistory = false → d.hist = []
  /-- Before the header is parsed nothing has been put out (R43). -/
  nothingYet : d.phase = .idle ∨ d.phase = .header → d.opix = 0 ∧ d.runLeft = 0
  /-- `opix` never exceeds `npix` (R164, R166), not even with the serialised run still to come. -/
  withinImage : d.afterHeader = true → d.opix + d.runLeft ≤ d.npix
  /-- A parsed header has legal enum fields (R24, R105). -/
  headerLegal : d.afterHeader = true → fieldsLegal d.regs = true
  /-- `done` is the phase DONE (R28, R241). -/
  doneFlag : d.done = true ↔ d.phase = .done
  /-- `error` is the phase ERROR (R28, R248). -/
  errorFlag : d.error = true ↔ d.phase = .error
  /-- The cause is set exactly with `error` (R28, R271). -/
  causeFlag : d.cause = .none ↔ d.error = false
  /-- The hardware never reports SIZE_MISMATCH (R277). -/
  neverSizeMismatch : d.cause ≠ .sizeMismatch
  /-- `hdr` is full only when the header is done (R242). -/
  headerOpen : d.phase = .header → d.hdr.length < headerLen
  /-- Past the 13th header byte, that byte is a legal channel count (R242). -/
  headerChannels : d.phase = .header → 13 ≤ d.hdr.length → legalChannels (d.hdr.getD 12 0) = true
  /-- ARGS waits for at least one more byte of the chunk its tag names (R243, R244). -/
  argsOpen : d.phase = .args → d.args.length < d.need ∧ d.need = continuationBytes d.tag
  /-- Until the marker has been found, at least one more of its bytes is to come (R245). -/
  markerOpen : d.phase = .trailing ∨ d.phase = .done ∨ d.matched < 8
  /-- Only a serial port in phase TAG has a run in transfer, and never more of it than its length (R247). -/
  runInTransfer : 0 < d.runLeft →
    d.phase = .tag ∧ d.serialPort = true ∧ d.runLeft ≤ runLength (d.tag.extractLsb' 0 6)

/-- The invariant of the encoder. -/
structure Encoder.Inv (e : Encoder) : Prop where
  /-- R130, R138. -/
  directMapped : e.cache.DirectMapped
  /-- `prev` is in its slot (R134, R139, R206). -/
  prevCached : e.cache.read (hash e.prev) = e.prev
  outLength : e.out.length = e.opos
  /-- `run` never exceeds 61 between steps (R38, R251). -/
  runShort : e.run < runMax
  /-- A run is pending only while pixels are consumed (R38, R252). -/
  runPending : 0 < e.run → e.phase = .pixels
  /-- `i` never passes `npix` (R37). -/
  withinImage : e.i ≤ e.npix
  /-- `done` is the phase DONE (R39). -/
  doneFlag : e.done = true ↔ e.phase = .done
  /-- A pass that has started has legal enum fields (R36, R190). -/
  headerLegal : e.phase ≠ .idle → fieldsLegal e.regs = true
  /-- After k pixels at most 14 + 5k bytes are written, with the byte of a pending run counted in (R253). -/
  sizeInPixels : e.phase = .pixels ∨ e.phase = .tail → e.out.length + min e.run 1 ≤ headerLen + 5 * e.i
  /-- The worst case of the whole output (R209). -/
  sizeAtEnd : e.phase = .done → e.out.length ≤ headerLen + 8 + 5 * e.npix + e.trailing.length

/-- The invariant of the machine: both blocks are sound, and a pass that runs over a whole buffer has the buffer it needs. -/
structure State.Inv (s : State) : Prop where
  decoder : s.dec.Inv
  encoder : s.enc.Inv
  /-- A decode pass over a whole input reads inside it and uses none of the byte-serial registers. -/
  wholeInput : s.agent = .decoder →
    s.dec.ipos ≤ s.dec.input.length ∧ s.dec.phase ≠ .args ∧ s.dec.runLeft = 0 ∧ (s.dec.phase = .header → s.dec.ipos = 0)
  /-- A decode pass over a whole input writes `TRAIL` once, at its end (R62). -/
  trailUnwritten : s.agent = .decoder → s.dec.startable = false → s.dec.trail = []
  /-- A byte-serial pass in TAG or ARGS expects at least one more pixel (R243, `next_phase`). -/
  chunkExpected : s.agent ≠ .decoder → s.dec.phase = .tag ∨ s.dec.phase = .args → s.dec.opix < s.dec.npix
  /-- An encode pass over a whole Image has exactly its pixels, and never leaves a run pending (R45, R193). -/
  wholeImage : s.agent = .encoder → s.enc.pixels.length = s.enc.npix ∧ s.enc.run = 0
  /-- A pixel-serial pass in phase PIXELS expects at least one more pixel (R251). -/
  pixelsExpected : s.agent ≠ .encoder → s.enc.phase = .pixels → s.enc.i < s.enc.npix
  /-- Only an encode pass over a whole Image stands in TAIL between steps (R252). -/
  tailLeft : s.agent ≠ .encoder → s.enc.phase ≠ .tail

end Sys2Proof.Machine
end

