-- ==== Sys2Proof/Certificates/Slice0/Obligations.lean ====
section
/-! DEFINITION. The statements for the provers. Each names the rules of spec/ it formalises; no program is assumed. -/

open Sys2Proof Sys2Proof.Machine

/-! ## Reset and the start of a pass -/

/-- R311: power-on leaves both blocks in IDLE with default options (R23, R35) and `done` = `error` = 0; and no rule reads
what stood before a START: a started decoder depends on nothing of the old one but the implementation's own port strap.
`serialPort`, that strap of R247, is the model's own choice (log entry 8, DESIGN CHOICE), and a START keeps it. -/
def Obligations.PowerOnReset : Prop :=
  State.reset.dec.phase = .idle ∧ State.reset.enc.phase = .idle ∧
  State.reset.dec.opts = { requireEndTag := true, debugMode := false, storeFullIndexHistory := false } ∧
  State.reset.enc.opts =
    { insertEndTag := true, stripTrailingData := false, useIndex := true, useDiff := true, useLuma := true,
      useRun := true, useRgb := true } ∧
  State.reset.dec.done = false ∧ State.reset.dec.error = false ∧ State.reset.enc.done = false ∧
  ∀ (seed : Bool) (unparsed : HeaderRegs) (o : DecoderOptions) (input : List Byte) (d d' : Decoder),
    d.serialPort = d'.serialPort → d.start seed unparsed o input = d'.start seed unparsed o input

/-- R43, R133, R134, R310: after START every register holds the value of the reset table, for both values of `CACHE_SEED`;
the encoder has then also emitted its 14 header bytes (R191, R240). The header registers of the decoder hold what the free value
says (R24, log entry 3); the statement holds for any value of it. `serialPort`, the model's strap of R247 (log entry 8), is kept. -/
def Obligations.StartResetsEveryRegister : Prop :=
  (∀ (seed : Bool) (unparsed : HeaderRegs) (o : DecoderOptions) (input : List Byte) (d : Decoder),
    d.start seed unparsed o input =
      { opts := o, serialPort := d.serialPort, phase := .header, input := input, ipos := 0, opix := 0, regs := unparsed,
        prev := ⟨0#8, 0#8, 0#8, 255#8⟩, cache := (d.start seed unparsed o input).cache, pix := [], trail := [], hist := [],
        endTagPresent := false, done := false, error := false, cause := .none, count := ⟨0, 0, 0, 0, 0, 0⟩,
        pixelDataByteLength := 0, hdr := [], tag := 0#8, args := [], need := 0, matched := 0, runLeft := 0 } ∧
    ∀ k : BitVec 6, (d.start seed unparsed o input).cache.read k =
      if seed = true ∧ k = 53#6 then ⟨0#8, 0#8, 0#8, 255#8⟩ else ⟨0#8, 0#8, 0#8, 0#8⟩) ∧
  ∀ (seed : Bool) (o : EncoderOptions) (regs : HeaderRegs) (pixels : List Pixel) (trailing : List Byte),
    Encoder.start seed o regs pixels trailing =
      { opts := o, phase := if regs.npix = 0 then .tail else .pixels, regs := regs, pixels := pixels, trailing := trailing,
        i := 0, opos := 14, prev := ⟨0#8, 0#8, 0#8, 255#8⟩, cache := (Encoder.start seed o regs pixels trailing).cache,
        run := 0, done := false
        out :=
          [0x71#8, 0x6F#8, 0x69#8, 0x66#8,
           regs.width.extractLsb' 24 8, regs.width.extractLsb' 16 8, regs.width.extractLsb' 8 8, regs.width.extractLsb' 0 8,
           regs.height.extractLsb' 24 8, regs.height.extractLsb' 16 8, regs.height.extractLsb' 8 8,
           regs.height.extractLsb' 0 8, regs.channels, regs.colorspace] } ∧
    ∀ k : BitVec 6, (Encoder.start seed o regs pixels trailing).cache.read k =
      if seed = true ∧ k = 53#6 then ⟨0#8, 0#8, 0#8, 255#8⟩ else ⟨0#8, 0#8, 0#8, 0#8⟩

/-- R42: the result of a pass is a function of its own options and input, whatever the earlier pass left and whatever the
header registers held before the header was parsed; and the outputs stay readable: in DONE no data event changes the
decoder.
That the event comes from a queue and is served in one step is the model's own choice (log entry 4, DESIGN CHOICE). -/
def Obligations.NoStateSurvivesAPass : Prop :=
  (∀ (seed : Bool) (unparsed unparsed' : HeaderRegs) (o : DecoderOptions) (input : List Byte) (d d' : Decoder),
    (decodeFinal seed unparsed o input d).result = (decodeFinal seed unparsed' o input d').result) ∧
  (∀ (s s' : State) (o : EncoderOptions) (x : Image) (later later' : List Event),
    s.agent = .host → s'.agent = .host → s.dec.runLeft = 0 → s'.dec.runLeft = 0 →
    s.enc.startable = true → s'.enc.startable = true → x.valid = true →
    s.pending = .encode o x :: later → s'.pending = .encode o x :: later' →
    ∃ t t', step s = .next t ∧ step s' = .next t' ∧ t.enc = t'.enc) ∧
  ∀ (d : Decoder) (b : Byte), d.phase = .done → d.byteEvent b = d ∧ d.eoiEvent = d

/-- R240 (with U14 and D19 for what is not accepted): every event of the host, BYTE, EOI, PIXEL, the START of either block and the
handing over of a whole input or a whole Image, takes effect on its own block alone; a START of either kind is accepted in
IDLE, DONE and (decoder) ERROR only, and latches the options; one that is not accepted changes nothing (U14). The model's own
choices in it: the queue of events that is served oldest first and one per step, the whole-buffer events and the step that
waits when none is pending (log entry 4, DESIGN CHOICE), and that a decode start takes the free value number `freeIndex` for
the header registers and advances the number (log entry 3, DESIGN CHOICE). -/
def Obligations.HostEvents : Prop :=
  ∀ (s : State) (later : List Event), s.agent = .host → s.dec.runLeft = 0 →
    (∀ b, s.pending = .byte b :: later → step s = .next { s with pending := later, dec := s.dec.byteEvent b }) ∧
    (s.pending = .eoi :: later → step s = .next { s with pending := later, dec := s.dec.eoiEvent }) ∧
    (∀ p, s.pending = .pixel p :: later → step s = .next { s with pending := later, enc := s.enc.pixelEvent p }) ∧
    (∀ o, s.pending = .startDecode o :: later →
      (s.dec.phase = .idle ∨ s.dec.phase = .done ∨ s.dec.phase = .error →
        step s = .next { s with
          pending := later, freeIndex := s.freeIndex + 1
          dec := s.dec.start Config.cacheSeed (Config.unparsedHeader s.freeIndex) o [] }) ∧
      (¬ (s.dec.phase = .idle ∨ s.dec.phase = .done ∨ s.dec.phase = .error) → step s = .next { s with pending := later })) ∧
    (∀ o input, s.pending = .decode o input :: later →
      (s.dec.phase = .idle ∨ s.dec.phase = .done ∨ s.dec.phase = .error →
        step s = .next { s with
          pending := later, freeIndex := s.freeIndex + 1, agent := .decoder
          dec := s.dec.start Config.cacheSeed (Config.unparsedHeader s.freeIndex) o input }) ∧
      (¬ (s.dec.phase = .idle ∨ s.dec.phase = .done ∨ s.dec.phase = .error) → step s = .next { s with pending := later })) ∧
    (∀ o x, s.pending = .encode o x :: later →
      (¬ (s.enc.phase = .idle ∨ s.enc.phase = .done) → step s = .next { s with pending := later }) ∧
      ((s.enc.phase = .idle ∨ s.enc.phase = .done) → x.valid = true →
        step s = .next { s with
          pending := later, agent := .encoder, enc := Encoder.start Config.cacheSeed o x.regs x.pixels x.trailing })) ∧
    (∀ o regs trailing, s.pending = .startEncode o regs trailing :: later →
      (¬ (s.enc.phase = .idle ∨ s.enc.phase = .done) → step s = .next { s with pending := later }) ∧
      ((s.enc.phase = .idle ∨ s.enc.phase = .done) → fieldsLegal regs = true →
        step s = .next { s with pending := later, enc := (Encoder.start Config.cacheSeed o regs [] trailing).settle })) ∧
    (s.pending = [] → step s = .next s)

/-- R248, R282, U14: an error is sticky: in ERROR every data event is ignored, so `error`, `cause` and all else stay, and the
next START gives a running pass again; IDLE ignores data events too, and so does an encoder outside PIXELS. R28, R271: the
3-bit code of each cause in the `cause` register. -/
def Obligations.ErrorIsSticky : Prop :=
  (∀ (d : Decoder) (b : Byte), d.phase = .error ∨ d.phase = .idle ∨ d.phase = .done → d.byteEvent b = d ∧ d.eoiEvent = d) ∧
  (∀ (e : Encoder) (p : Pixel), e.phase ≠ .pixels → e.pixelEvent p = e) ∧
  (∀ (seed : Bool) (unparsed : HeaderRegs) (o : DecoderOptions) (input : List Byte) (d : Decoder), d.phase = .error →
    d.startable = true ∧ (d.start seed unparsed o input).error = false ∧ (d.start seed unparsed o input).cause = .none ∧
    (d.start seed unparsed o input).phase = .header) ∧
  ∀ c : Cause, c.code = match c with
    | .none => 0#3
    | .badMagic => 1#3
    | .badChannels => 2#3
    | .badColorspace => 3#3
    | .missingEndTag => 4#3
    | .truncated => 5#3
    | .runOverrun => 6#3
    | .sizeMismatch => 7#3

/-! ## Channel arithmetic, the hash and the cache -/

/-- R9: `add8` is the mathematical remainder; `sdelta(x, y)` is the unique d in −128..127 with add8(y, d) = x, and it is the
sign extension of (x − y) mod 256. -/
def Obligations.ChannelArithmetic : Prop :=
  (∀ (x : Byte) (d : Int), ((add8 x d).toNat : Int) = ((x.toNat : Int) + d) % 256) ∧
  ∀ x y : Byte,
    -128 ≤ sdelta x y ∧ sdelta x y ≤ 127 ∧ add8 y (sdelta x y) = x ∧
    (∀ d : Int, -128 ≤ d → d ≤ 127 → add8 y d = x → d = sdelta x y) ∧
    sdelta x y = (BitVec.ofInt 8 ((x.toNat : Int) - (y.toNat : Int))).toInt

/-- R131, R132: the hash, on unbounded integers; any wrap of every product and of the sum to 6 bits or more gives the same;
only the low 6 bits of each channel matter. -/
def Obligations.HashOfAnyWidth : Prop :=
  ∀ p : Pixel,
    (Machine.hash p).toNat = (p.r.toNat * 3 + p.g.toNat * 5 + p.b.toNat * 7 + p.a.toNat * 11) % 64 ∧
    (∀ k : Nat, 6 ≤ k →
      (p.r.toNat * 3 % 2 ^ k + p.g.toNat * 5 % 2 ^ k + p.b.toNat * 7 % 2 ^ k + p.a.toNat * 11 % 2 ^ k) % 2 ^ k % 64
        = (Machine.hash p).toNat) ∧
    ∀ q : Pixel, q.r.toNat % 64 = p.r.toNat % 64 → q.g.toNat % 64 = p.g.toNat % 64 → q.b.toNat % 64 = p.b.toNat % 64 →
      q.a.toNat % 64 = p.a.toNat % 64 → Machine.hash q = Machine.hash p

/-- R133 to R137: CLEAR, SEED, READ, LOOKUP and UPDATE of the color cache. -/
def Obligations.CacheOperations : Prop :=
  (∀ k : BitVec 6, Cache.cleared.read k = ⟨0#8, 0#8, 0#8, 0#8⟩) ∧
  (∀ slots : Cache, slots.seeded false = slots ∧ slots.seeded true = slots.update prevInit) ∧ Machine.hash prevInit = 53#6 ∧
  (∀ (slots : Cache) (p : Pixel), slots.hit p = true ↔ slots.read (Machine.hash p) = p) ∧
  ∀ (slots : Cache) (p : Pixel) (k : BitVec 6), (slots.update p).read k = if k = Machine.hash p then p else slots.read k

/-- R138: after any pixels have been committed since START, in the decoder and in the encoder, a slot holds the most recently
committed pixel that hashes to it, or its reset value. -/
def Obligations.SlotHoldsMostRecentPixel : Prop :=
  ∀ (seed : Bool) (seen : List Pixel) (k : BitVec 6),
    (∀ (unparsed : HeaderRegs) (o : DecoderOptions) (input : List Byte) (d : Decoder) (type : ChunkType),
      (seen.foldl (fun d p => d.commitPixel p type 0) (d.start seed unparsed o input)).cache.read k =
        ((seen.filter fun p => Machine.hash p = k).getLast?).getD
          (if seed = true ∧ k = 53#6 then ⟨0#8, 0#8, 0#8, 255#8⟩ else ⟨0#8, 0#8, 0#8, 0#8⟩)) ∧
    ∀ (o : EncoderOptions) (regs : HeaderRegs) (pixels : List Pixel) (trailing : List Byte),
      ((Encoder.start seed o regs pixels trailing).commitPixels seen).cache.read k =
        ((seen.filter fun p => Machine.hash p = k).getLast?).getD
          (if seed = true ∧ k = 53#6 then ⟨0#8, 0#8, 0#8, 255#8⟩ else ⟨0#8, 0#8, 0#8, 0#8⟩)

/-- R139, R163: the commit of n ≥ 1 equal pixels puts out n colors and n snapshots, and changes the cache and `prev` as one of
them would; where the slot already holds the pixel the cache does not change, and after any commit the slot of `prev` holds
it. With `CACHE_SEED` = 1 that is so from the start, with 0 it is not. -/
def Obligations.CommitOfARun : Prop :=
  (∀ (d : Decoder) (p : Pixel) (n : Nat) (type : ChunkType),
    d.commit p (n + 1) type =
      { d with
        pix := d.pix ++ (List.range (n + 1)).map (outColor d.opts.debugMode p type)
        opix := d.opix + (n + 1)
        cache := d.cache.update p
        prev := p
        hist := if d.opts.storeFullIndexHistory then d.hist ++ List.replicate (n + 1) (d.cache.update p) else d.hist
        count := d.count.bump type }) ∧
  (∀ (slots : Cache) (p : Pixel), slots.read (Machine.hash p) = p → slots.update p = slots) ∧
  (∀ (slots : Cache) (p : Pixel), (slots.update p).read (Machine.hash p) = p) ∧
  (Cache.initial true).update prevInit = Cache.initial true ∧ (Cache.initial false).update prevInit ≠ Cache.initial false

/-! ## The items, one by one: result, frame and completion -/

/-- R157: RGB takes the three channels of the chunk and alpha of `prev`, advances by 4 bytes and commits one pixel; nothing else
of the machine changes. With fewer than 3 bytes after the tag it raises TRUNCATED and nothing is committed. -/
def Obligations.RgbResult : Prop :=
  (∀ (r g b : Byte) (s : State),
    exec (.rgb r g b) s = .next { s with dec := { s.dec with
      ipos := s.dec.ipos + 4
      pix := s.dec.pix ++ [outColor s.dec.opts.debugMode ⟨r, g, b, s.dec.prev.a⟩ .rgb 0]
      opix := s.dec.opix + 1
      cache := s.dec.cache.update ⟨r, g, b, s.dec.prev.a⟩
      prev := ⟨r, g, b, s.dec.prev.a⟩
      hist := if s.dec.opts.storeFullIndexHistory then s.dec.hist ++ [s.dec.cache.update ⟨r, g, b, s.dec.prev.a⟩] else s.dec.hist
      count := { s.dec.count with rgb := s.dec.count.rgb + 1 } } }) ∧
  ∀ (s : State) (rest : List Byte), s.agent = .decoder → s.dec.phase = .tag → s.dec.opix < s.dec.npix →
    s.dec.input.drop s.dec.ipos = 0xFE#8 :: rest → rest.length < 3 →
    step s = .next { s with dec := { s.dec with error := true, cause := .truncated, phase := .error } }

/-- R158: RGBA takes all four channels of the chunk, advances by 5 bytes and commits one pixel; nothing else changes. With
fewer than 4 bytes after the tag it raises TRUNCATED. -/
def Obligations.RgbaResult : Prop :=
  (∀ (r g b a : Byte) (s : State),
    exec (.rgba r g b a) s = .next { s with dec := { s.dec with
      ipos := s.dec.ipos + 5
      pix := s.dec.pix ++ [outColor s.dec.opts.debugMode ⟨r, g, b, a⟩ .rgba 0]
      opix := s.dec.opix + 1
      cache := s.dec.cache.update ⟨r, g, b, a⟩
      prev := ⟨r, g, b, a⟩
      hist := if s.dec.opts.storeFullIndexHistory then s.dec.hist ++ [s.dec.cache.update ⟨r, g, b, a⟩] else s.dec.hist
      count := { s.dec.count with rgba := s.dec.count.rgba + 1 } } }) ∧
  ∀ (s : State) (rest : List Byte), s.agent = .decoder → s.dec.phase = .tag → s.dec.opix < s.dec.npix →
    s.dec.input.drop s.dec.ipos = 0xFF#8 :: rest → rest.length < 4 →
    step s = .next { s with dec := { s.dec with error := true, cause := .truncated, phase := .error } }

/-- R159: INDEX takes the pixel its slot holds before the chunk's own commit, all four channels, advances by one byte and
commits it to the slot it hashes to; nothing else changes. -/
def Obligations.IndexResult : Prop :=
  ∀ (idx : BitVec 6) (s : State),
    exec (.index idx) s = .next { s with dec := { s.dec with
      ipos := s.dec.ipos + 1
      pix := s.dec.pix ++ [outColor s.dec.opts.debugMode (s.dec.cache.read idx) .index 0]
      opix := s.dec.opix + 1
      cache := s.dec.cache.update (s.dec.cache.read idx)
      prev := s.dec.cache.read idx
      hist := if s.dec.opts.storeFullIndexHistory then s.dec.hist ++ [s.dec.cache.update (s.dec.cache.read idx)] else s.dec.hist
      count := { s.dec.count with index := s.dec.count.index + 1 } } }

/-- R160: DIFF adds each field minus 2 to its channel of `prev`, modulo 256, alpha unchanged, advances by one byte and commits
one pixel; nothing else changes. -/
def Obligations.DiffResult : Prop :=
  ∀ (dr2 dg2 db2 : BitVec 2) (s : State), ∃ p : Pixel,
    (p.r.toNat : Int) = ((s.dec.prev.r.toNat : Int) + ((dr2.toNat : Int) - 2)) % 256 ∧
    (p.g.toNat : Int) = ((s.dec.prev.g.toNat : Int) + ((dg2.toNat : Int) - 2)) % 256 ∧
    (p.b.toNat : Int) = ((s.dec.prev.b.toNat : Int) + ((db2.toNat : Int) - 2)) % 256 ∧ p.a = s.dec.prev.a ∧
    exec (.diff dr2 dg2 db2) s = .next { s with dec := { s.dec with
      ipos := s.dec.ipos + 1
      pix := s.dec.pix ++ [outColor s.dec.opts.debugMode p .diff 0]
      opix := s.dec.opix + 1
      cache := s.dec.cache.update p
      prev := p
      hist := if s.dec.opts.storeFullIndexHistory then s.dec.hist ++ [s.dec.cache.update p] else s.dec.hist
      count := { s.dec.count with diff := s.dec.count.diff + 1 } } }

/-- R161: LUMA adds the green delta to green, and the green delta plus its own relative delta to red and to blue, modulo 256,
alpha unchanged, advances by 2 bytes and commits one pixel; nothing else changes. With no byte after the tag it raises
TRUNCATED. -/
def Obligations.LumaResult : Prop :=
  (∀ (dg32 : BitVec 6) (drg8 dbg8 : BitVec 4) (s : State), ∃ p : Pixel,
    (p.r.toNat : Int) = ((s.dec.prev.r.toNat : Int) + (((dg32.toNat : Int) - 32) + ((drg8.toNat : Int) - 8))) % 256 ∧
    (p.g.toNat : Int) = ((s.dec.prev.g.toNat : Int) + ((dg32.toNat : Int) - 32)) % 256 ∧
    (p.b.toNat : Int) = ((s.dec.prev.b.toNat : Int) + (((dg32.toNat : Int) - 32) + ((dbg8.toNat : Int) - 8))) % 256 ∧
    p.a = s.dec.prev.a ∧
    exec (.luma dg32 drg8 dbg8) s = .next { s with dec := { s.dec with
      ipos := s.dec.ipos + 2
      pix := s.dec.pix ++ [outColor s.dec.opts.debugMode p .luma 0]
      opix := s.dec.opix + 1
      cache := s.dec.cache.update p
      prev := p
      hist := if s.dec.opts.storeFullIndexHistory then s.dec.hist ++ [s.dec.cache.update p] else s.dec.hist
      count := { s.dec.count with luma := s.dec.count.luma + 1 } } }) ∧
  ∀ (s : State) (t : Byte), s.agent = .decoder → s.dec.phase = .tag → s.dec.opix < s.dec.npix →
    t.extractLsb' 6 2 = 0b10#2 → s.dec.input.drop s.dec.ipos = [t] →
    step s = .next { s with dec := { s.dec with error := true, cause := .truncated, phase := .error } }

/-- R162, R164, R276: RUN of n = field + 1 pixels that are still expected commits `prev` n times, with one output color and one
snapshot each, advances by one byte and counts one chunk; nothing else changes and `prev` stays. A longer RUN raises
RUN_OVERRUN and produces nothing. -/
def Obligations.RunResult : Prop :=
  (∀ (len1 : BitVec 6) (s : State), s.dec.opix + (len1.toNat + 1) ≤ s.dec.npix →
    exec (.run len1) s = .next { s with dec := { s.dec with
      ipos := s.dec.ipos + 1
      pix := s.dec.pix ++ (List.range (len1.toNat + 1)).map (outColor s.dec.opts.debugMode s.dec.prev .run)
      opix := s.dec.opix + (len1.toNat + 1)
      cache := s.dec.cache.update s.dec.prev
      hist := if s.dec.opts.storeFullIndexHistory
        then s.dec.hist ++ List.replicate (len1.toNat + 1) (s.dec.cache.update s.dec.prev) else s.dec.hist
      count := { s.dec.count with run := s.dec.count.run + 1 } } }) ∧
  ∀ (len1 : BitVec 6) (s : State), s.dec.npix < s.dec.opix + (len1.toNat + 1) →
    exec (.run len1) s = .next { s with dec := { s.dec with error := true, cause := .runOverrun, phase := .error } }

/-- R151, R273, R274: HEADER with legal fields writes the four header registers, puts the cursor at 14 and goes to the chunk
loop; nothing else changes. An illegal channel byte raises BAD_CHANNELS, whatever byte 13 is; a legal one with an illegal
colorspace byte raises BAD_COLORSPACE.
The phase between the items of a whole-buffer pass is the model's own choice (log entry 22, DESIGN CHOICE). -/
def Obligations.HeaderResult : Prop :=
  ∀ (w h : U32) (c cs : Byte) (s : State),
    ((c = 3#8 ∨ c = 4#8) → (cs = 0#8 ∨ cs = 1#8) →
      exec (.header w h c cs) s = .next { s with dec := { s.dec with regs := ⟨w, h, c, cs⟩, ipos := 14, phase := .tag } }) ∧
    (¬ (c = 3#8 ∨ c = 4#8) → ∃ regs, exec (.header w h c cs) s =
      .next { s with dec := { s.dec with regs := regs, error := true, cause := .badChannels, phase := .error } }) ∧
    ((c = 3#8 ∨ c = 4#8) → ¬ (cs = 0#8 ∨ cs = 1#8) → ∃ regs, exec (.header w h c cs) s =
      .next { s with dec := { s.dec with regs := regs, error := true, cause := .badColorspace, phase := .error } })

/-- R167, the item's own effect: END sets `end_tag_present`, advances by 8 bytes, so that the marker is stripped, and goes to the
trailing data; nothing else changes.
The phase between the items of a whole-buffer pass is the model's own choice (log entry 22, DESIGN CHOICE). -/
def Obligations.EndResult : Prop :=
  ∀ s : State, exec .endMarker s =
    .next { s with dec := { s.dec with endTagPresent := true, ipos := s.dec.ipos + 8, phase := .trailing } }

/-- R175: in the decoder alpha changes only through RGBA, which sets it from the chunk, or INDEX, which sets it from the slot. -/
def Obligations.AlphaOnlyByRgbaOrIndex : Prop :=
  ∀ (i : Instr) (s : State), ∃ t, exec i s = .next t ∧
    t.dec.prev.a = match i with
      | .rgba _ _ _ a => a
      | .index idx => (s.dec.cache.read idx).a
      | .rgb _ _ _ => s.dec.prev.a
      | .diff _ _ _ => s.dec.prev.a
      | .luma _ _ _ => s.dec.prev.a
      | .run _ => s.dec.prev.a
      | .header _ _ _ _ => s.dec.prev.a
      | .endMarker => s.dec.prev.a

/-- R170: the seven debug colors are pairwise different, and each pixel is put out in its own color unless debug mode replaces it
by the color of its chunk type, with a color of its own for the pixels of a run after the first. -/
def Obligations.DebugColors : Prop :=
  (∀ a b : DebugKind, debugColor a = debugColor b → a = b) ∧
  ∀ (p : Pixel) (type : ChunkType) (k : Nat),
    outColor false p type k = p ∧
    outColor true p type k = match type with
      | .rgb => debugColor .rgb
      | .rgba => debugColor .rgba
      | .index => debugColor .index
      | .diff => debugColor .diff
      | .luma => debugColor .luma
      | .run => if k = 0 then debugColor .run else debugColor .runCont

/-! ## Encoding -/

/-- For every family, words written out from the encodings of R91, R92 and R95 to R100 decode to their items. -/
def Obligations.WordsDecode : Prop :=
  decodeChunk [0b11111110#8, 9#8, 8#8, 7#8] = .ok (.rgb 9#8 8#8 7#8, []) ∧
  decodeChunk [0b11111111#8, 0x0A#8, 0x14#8, 0x1E#8, 0x80#8] = .ok (.rgba 10#8 20#8 30#8 128#8, []) ∧
  decodeChunk [0b00110101#8] = .ok (.index 53#6, []) ∧
  decodeChunk [0b01110110#8] = .ok (.diff 3#2 1#2 2#2, []) ∧
  decodeChunk [0b10100101#8, 0b11000011#8] = .ok (.luma 37#6 12#4 3#4, []) ∧
  decodeChunk [0b11000001#8] = .ok (.run 1#6, []) ∧
  decodeChunk [0b11111101#8] = .ok (.run 61#6, []) ∧
  decodeHeader [0x71#8, 0x6F#8, 0x69#8, 0x66#8, 0#8, 0#8, 0#8, 5#8, 0#8, 0#8, 0#8, 1#8, 3#8, 1#8]
    = .ok (.header 5#32 1#32 3#8 1#8, []) ∧
  decodeMarker [0#8, 0#8, 0#8, 0#8, 0#8, 0#8, 0#8, 1#8] = .ok (.endMarker, [])

/-- R93, R94, R102, R103, R156: the map of tag bytes is a partition; the tag byte alone decides the chunk and its length; no
tag byte is illegal: with its continuation bytes it decodes to a well-formed chunk, without them it is truncated. -/
def Obligations.TagByteDecidesTheChunk : Prop :=
  ∀ t : Byte,
    (t.toNat ≤ 0x3F → dispatchTag t = .index ∧ continuationBytes t = 0) ∧
    (0x40 ≤ t.toNat → t.toNat ≤ 0x7F → dispatchTag t = .diff ∧ continuationBytes t = 0) ∧
    (0x80 ≤ t.toNat → t.toNat ≤ 0xBF → dispatchTag t = .luma ∧ continuationBytes t = 1) ∧
    (0xC0 ≤ t.toNat → t.toNat ≤ 0xFD → dispatchTag t = .run ∧ continuationBytes t = 0) ∧
    (t.toNat = 0xFE → dispatchTag t = .rgb ∧ continuationBytes t = 3) ∧
    (t.toNat = 0xFF → dispatchTag t = .rgba ∧ continuationBytes t = 4) ∧
    ∀ rest : List Byte,
      (continuationBytes t ≤ rest.length → ∃ i, decodeChunk (t :: rest) = .ok (i, rest.drop (continuationBytes t)) ∧
        i.chunkType = some (dispatchTag t) ∧ i.byteLength = 1 + continuationBytes t ∧ WellFormed i = true) ∧
      (rest.length < continuationBytes t → decodeChunk (t :: rest) = .error .truncated)

/-- Every well-formed item, encoded and followed by any bytes, decodes to itself and leaves those bytes: no bit of an encoding is
dropped (R90 to R101). -/
def Obligations.EncodeThenDecode : Prop :=
  ∀ (i : Instr) (rest : List Byte), WellFormed i = true → decode i.streamSection (encode i ++ rest) = .ok (i, rest)

/-- What is decoded encodes to the bytes it was decoded from, so every item has exactly one encoding; and a decoded chunk or end
marker is well formed (R103, R109). -/
def Obligations.DecodeThenEncode : Prop :=
  ∀ (sec : StreamSection) (bytes rest : List Byte) (i : Instr), decode sec bytes = .ok (i, rest) →
    i.streamSection = sec ∧ encode i ++ rest = bytes ∧ (sec ≠ .header → WellFormed i = true)

/-! ## A step of a decode pass -/

/-- A step runs the decoded item: where an item stands at the cursor, in the section of the stream its phase reads, and the loop's
conditions hold for a chunk, the step is the item's meaning (R150, R155); the item read is as long as its length says.
The phase between the items of a whole-buffer pass is the model's own choice (log entry 22, DESIGN CHOICE). -/
def Obligations.StepRunsTheItem : Prop :=
  ∀ (s : State) (sec : StreamSection) (i : Instr) (rest : List Byte), s.agent = .decoder →
    ((s.dec.phase = .header ∧ sec = .header) ∨
      (s.dec.phase = .tag ∧ sec = .chunks ∧ s.dec.ipos < s.dec.input.length ∧ s.dec.opix < s.dec.npix) ∨
      (s.dec.phase = .endMark ∧ sec = .marker)) →
    decode sec (s.dec.input.drop s.dec.ipos) = .ok (i, rest) →
    step s = exec i s ∧ s.dec.input.drop (s.dec.ipos + i.byteLength) = rest

/-- R151, R272 to R274: the header is judged in stream order, and every field of a good one is written. Once the magic is good, the
header registers of a header that fails are left open here (`regs := d.regs`): they are void (R280, log entry 19).
The phase between the items of a whole-buffer pass is the model's own choice (log entry 22, DESIGN CHOICE). -/
def Obligations.HeaderInStreamOrder : Prop :=
  ∀ (s : State), s.agent = .decoder → s.dec.phase = .header → s.dec.ipos = 0 →
    ∃ d, step s = .next { s with dec := d } ∧
      if s.dec.input.length < 4 then d = { s.dec with error := true, cause := .truncated, phase := .error }
      else if s.dec.input.take 4 ≠ [0x71#8, 0x6F#8, 0x69#8, 0x66#8] then
        d = { s.dec with error := true, cause := .badMagic, phase := .error }
      else if s.dec.input.length < 13 then
        d = { s.dec with regs := d.regs, error := true, cause := .truncated, phase := .error }
      else if ¬ (s.dec.input.getD 12 0#8 = 3#8 ∨ s.dec.input.getD 12 0#8 = 4#8) then
        d = { s.dec with regs := d.regs, error := true, cause := .badChannels, phase := .error }
      else if s.dec.input.length < 14 then
        d = { s.dec with regs := d.regs, error := true, cause := .truncated, phase := .error }
      else if ¬ (s.dec.input.getD 13 0#8 = 0#8 ∨ s.dec.input.getD 13 0#8 = 1#8) then
        d = { s.dec with regs := d.regs, error := true, cause := .badColorspace, phase := .error }
      else
        d = { s.dec with regs := d.regs, ipos := 14, phase := .tag } ∧
        d.regs.width.toNat = (s.dec.input.getD 4 0#8).toNat * 2 ^ 24 + (s.dec.input.getD 5 0#8).toNat * 2 ^ 16 +
          (s.dec.input.getD 6 0#8).toNat * 2 ^ 8 + (s.dec.input.getD 7 0#8).toNat ∧
        d.regs.height.toNat = (s.dec.input.getD 8 0#8).toNat * 2 ^ 24 + (s.dec.input.getD 9 0#8).toNat * 2 ^ 16 +
          (s.dec.input.getD 10 0#8).toNat * 2 ^ 8 + (s.dec.input.getD 11 0#8).toNat ∧
        d.regs.channels = s.dec.input.getD 12 0#8 ∧ d.regs.colorspace = s.dec.input.getD 13 0#8 ∧
        d.npix = d.regs.width.toNat * d.regs.height.toNat

/-- R166: the chunk loop ends when the input or the pixel count is exhausted; the byte length of the pixel section is the cursor
minus 14. In every state of a pass exactly one of R166's two reasons holds then.
That the loop end is a step of its own (log entry 4, DESIGN CHOICE) and the phase it goes to (log entry 22, DESIGN CHOICE) are
the model's own choices. -/
def Obligations.LoopEnd : Prop :=
  ∀ (s : State), s.agent = .decoder → s.dec.phase = .tag →
    ¬ (s.dec.ipos < s.dec.input.length ∧ s.dec.opix < s.dec.npix) →
    step s = .next { s with dec := { s.dec with pixelDataByteLength := s.dec.ipos - 14, phase := .endMark } } ∧
    (s.Inv → s.dec.opix = s.dec.npix ∨ (s.dec.ipos = s.dec.input.length ∧ s.dec.opix < s.dec.npix))

/-- R167, R168, R278: the end-marker test on the bytes from the cursor on: eight marker bytes are reported and stripped; fewer
than eight, or any other byte, count as absent, which is MISSING_END_TAG when the marker is required and tolerated otherwise.
Then all the bytes from the cursor on are copied verbatim to `TRAIL`, and the pass is done.
That the marker test and the copying are a step each (log entry 4, DESIGN CHOICE) and the phases between them (log entry 22,
DESIGN CHOICE) are the model's own choices. -/
def Obligations.EndMarkerAndTrailingData : Prop :=
  (∀ (s : State), s.agent = .decoder → s.dec.phase = .endMark →
    (s.dec.input.drop s.dec.ipos |>.take 8) = [0#8, 0#8, 0#8, 0#8, 0#8, 0#8, 0#8, 1#8] ∧
      step s = .next { s with dec := { s.dec with endTagPresent := true, ipos := s.dec.ipos + 8, phase := .trailing } } ∨
    (s.dec.input.drop s.dec.ipos |>.take 8) ≠ [0#8, 0#8, 0#8, 0#8, 0#8, 0#8, 0#8, 1#8] ∧
      (s.dec.opts.requireEndTag = true → step s = .next { s with dec := { s.dec with
        endTagPresent := false, error := true, cause := .missingEndTag, phase := .error } }) ∧
      (s.dec.opts.requireEndTag = false →
        step s = .next { s with dec := { s.dec with endTagPresent := false, phase := .trailing } })) ∧
  ∀ (s : State), s.agent = .decoder → s.dec.phase = .trailing →
    step s = .next { s with dec := { s.dec with
      trail := s.dec.input.drop s.dec.ipos, ipos := s.dec.input.length, phase := .done, done := true } }

/-- R173: when the payload is exhausted before the pixel count, with the marker not required, the pass succeeds after the loop end,
the marker test and the trailing data with only the pixels put out so far; with the marker required it is MISSING_END_TAG.
The number of steps, three and two (log entry 4, DESIGN CHOICE), and the phase the pass stands in (log entry 22, DESIGN CHOICE)
are the model's own choices. -/
def Obligations.PayloadExhausted : Prop :=
  ∀ (s : State), s.agent = .decoder → s.dec.phase = .tag → s.dec.ipos = s.dec.input.length → s.dec.opix < s.dec.npix →
    (s.dec.opts.requireEndTag = false → Sys2Proof.core.run 3 s = .next { s with dec := { s.dec with
      pixelDataByteLength := s.dec.ipos - 14, endTagPresent := false, trail := [], phase := .done, done := true } }) ∧
    (s.dec.opts.requireEndTag = true → Sys2Proof.core.run 2 s = .next { s with dec := { s.dec with
      pixelDataByteLength := s.dec.ipos - 14, endTagPresent := false, error := true, cause := .missingEndTag, phase := .error } })

/-- R107, R174: inside the chunk stream the end marker's bytes are chunks. With m the pixels still expected, at most eight of them
counted, the first m marker bytes run as chunks, one per step: INDEX 0 for each of the first seven, INDEX 1 for the eighth.
So the first seven put out what slot 0 holds, the eighth what slot 1 then holds, and nothing is reported of a marker. The
marker is not found afterwards: where the loop ends behind these bytes, because no pixel is expected any more or the stream is
over, the marker is absent (unless a second one follows), which is MISSING_END_TAG when it is required and is reported
otherwise.
One chunk per step and two steps to end (log entry 4, DESIGN CHOICE), and the phases TAG and TRAILING (log entry 22, DESIGN
CHOICE), are the model's own choices. -/
def Obligations.MarkerBytesInsideChunks : Prop :=
  ∀ (s : State) (rest : List Byte) (m : Nat) (p0 p1 : Pixel), s.agent = .decoder → s.dec.phase = .tag →
    s.dec.opix < s.dec.npix → m = min 8 (s.dec.npix - s.dec.opix) →
    s.dec.input.drop s.dec.ipos = [0#8, 0#8, 0#8, 0#8, 0#8, 0#8, 0#8, 1#8] ++ rest →
    p0 = s.dec.cache.read 0#6 → p1 = (s.dec.cache.update p0).read 1#6 →
    (∀ j, j < m → ∃ u, Sys2Proof.core.run j s = .next u ∧ step u = exec (if j < 7 then .index 0#6 else .index 1#6) u) ∧
    ∃ t, Sys2Proof.core.run m s = .next t ∧
      t = { s with dec := { s.dec with
        ipos := s.dec.ipos + m
        opix := s.dec.opix + m
        pix := s.dec.pix ++ List.replicate (min m 7) (outColor s.dec.opts.debugMode p0 .index 0) ++
          (if m = 8 then [outColor s.dec.opts.debugMode p1 .index 0] else [])
        cache := if m = 8 then (s.dec.cache.update p0).update p1 else s.dec.cache.update p0
        prev := if m = 8 then p1 else p0
        hist := if s.dec.opts.storeFullIndexHistory
          then s.dec.hist ++ List.replicate (min m 7) (s.dec.cache.update p0) ++
            (if m = 8 then [(s.dec.cache.update p0).update p1] else [])
          else s.dec.hist
        count := { s.dec.count with index := s.dec.count.index + m } } } ∧
      (m < 8 ∨ rest = [] ∨
          (s.dec.opix + 8 = s.dec.npix ∧ rest.take 8 ≠ [0#8, 0#8, 0#8, 0#8, 0#8, 0#8, 0#8, 1#8]) →
        (s.dec.opts.requireEndTag = true → Sys2Proof.core.run 2 t = .next { t with dec := { t.dec with
          pixelDataByteLength := t.dec.ipos - 14, endTagPresent := false, error := true, cause := .missingEndTag
          phase := .error } }) ∧
        (s.dec.opts.requireEndTag = false → Sys2Proof.core.run 2 t = .next { t with dec := { t.dec with
          pixelDataByteLength := t.dec.ipos - 14, endTagPresent := false, phase := .trailing } }))

/-! ## A whole decode pass -/

/-- R155: every decode pass ends, in exactly one of DONE and ERROR, whatever its input; an error has a cause, and it is never
SIZE_MISMATCH (R277). -/
def Obligations.DecodeAlwaysEnds : Prop :=
  ∀ (seed : Bool) (unparsed : HeaderRegs) (o : DecoderOptions) (input : List Byte) (d : Decoder),
    ((decodeFinal seed unparsed o input d).phase = .done ∧ (decodeFinal seed unparsed o input d).done = true ∧
      (decodeFinal seed unparsed o input d).error = false) ∨
    ((decodeFinal seed unparsed o input d).phase = .error ∧ (decodeFinal seed unparsed o input d).error = true ∧
      (decodeFinal seed unparsed o input d).done = false ∧ (decodeFinal seed unparsed o input d).cause ≠ .none ∧
      (decodeFinal seed unparsed o input d).cause ≠ .sizeMismatch)

/-- R169: at the end of a successful pass the chunk counts, weighted with the chunk lengths, add up to the byte length of the pixel
section. -/
def Obligations.ChunkCountsAddUp : Prop :=
  ∀ (seed : Bool) (unparsed : HeaderRegs) (o : DecoderOptions) (input : List Byte) (d : Decoder),
    (decodeFinal seed unparsed o input d).done = true →
    (decodeFinal seed unparsed o input d).count.rgb * 4 + (decodeFinal seed unparsed o input d).count.rgba * 5 +
      (decodeFinal seed unparsed o input d).count.luma * 2 + (decodeFinal seed unparsed o input d).count.index +
      (decodeFinal seed unparsed o input d).count.diff + (decodeFinal seed unparsed o input d).count.run =
    (decodeFinal seed unparsed o input d).pixelDataByteLength

/-- R172: debug colors and the history are sinks: two passes that differ only in those two options end alike in everything but
the colors put out and the history. -/
def Obligations.ObservationChangesNothing : Prop :=
  ∀ (seed : Bool) (unparsed : HeaderRegs) (o o' : DecoderOptions) (input : List Byte) (d : Decoder),
    o.requireEndTag = o'.requireEndTag →
    decodeFinal seed unparsed o' input d =
      { decodeFinal seed unparsed o input d with
        opts := o'
        pix := (decodeFinal seed unparsed o' input d).pix
        hist := (decodeFinal seed unparsed o' input d).hist } ∧
    (o.debugMode = o'.debugMode → (decodeFinal seed unparsed o' input d).pix = (decodeFinal seed unparsed o input d).pix) ∧
    (o.storeFullIndexHistory = o'.storeFullIndexHistory →
      (decodeFinal seed unparsed o' input d).hist = (decodeFinal seed unparsed o input d).hist)

/-- The machine runs the decode pass: a pending whole input, accepted, is decoded to its end in at most two steps more than the
pass has, and the encoder and the later events are left alone (R150, R12). The model's own choices in it: one item per step,
hence the bound on the number of steps, which says nothing of the hardware, and that all else stands still until the turn is
the host's again (log entry 4, DESIGN CHOICE); and `freeIndex`, the number of the free value for the header registers
(log entry 3, DESIGN CHOICE). -/
def Obligations.MachineRunsADecodePass : Prop :=
  ∀ (s : State) (o : DecoderOptions) (input : List Byte) (later : List Event),
    s.agent = .host → s.dec.runLeft = 0 → s.dec.startable = true → s.pending = .decode o input :: later →
    ∃ k, k ≤ input.length + 6 ∧ Sys2Proof.core.run k s = .next
      { s with
        dec := decodeFinal Config.cacheSeed (Config.unparsedHeader s.freeIndex) o input s.dec
        pending := later
        freeIndex := s.freeIndex + 1 }

/-! ## The decoder byte by byte -/

/-- R242: phase HEADER. -/
def Obligations.ByteInHeader : Prop :=
  ∀ (d : Decoder) (b : Byte), d.phase = .header → d.runLeft = 0 →
    (d.byteEvent b =
      if d.hdr.length + 1 = 4 ∧ d.hdr ++ [b] ≠ [0x71#8, 0x6F#8, 0x69#8, 0x66#8] then
        { d with hdr := d.hdr ++ [b], ipos := d.ipos + 1, error := true, cause := .badMagic, phase := .error }
      else if d.hdr.length + 1 = 13 ∧ b ≠ 3#8 ∧ b ≠ 4#8 then
        { d with hdr := d.hdr ++ [b], ipos := d.ipos + 1, error := true, cause := .badChannels, phase := .error }
      else if d.hdr.length + 1 = 14 ∧ b ≠ 0#8 ∧ b ≠ 1#8 then
        { d with hdr := d.hdr ++ [b], ipos := d.ipos + 1, error := true, cause := .badColorspace, phase := .error }
      else if d.hdr.length + 1 = 14 then
        { d with
          hdr := d.hdr ++ [b], ipos := d.ipos + 1, regs := headerFields (d.hdr ++ [b])
          phase := if (headerFields (d.hdr ++ [b])).npix = 0 then .endMark else .tag }
      else { d with hdr := d.hdr ++ [b], ipos := d.ipos + 1 }) ∧
    d.eoiEvent = { d with error := true, cause := .truncated, phase := .error }

/-- R243: phase TAG. The tag of a longer chunk is kept and its continuation bytes are awaited; a one-byte chunk is executed, with
the cursor at the number of accepted bytes, and the next phase is END once all pixels are out; a port that takes one pixel
per transfer loads a RUN instead (R247, its own statement). At the end of input the marker is missing.
That the event comes from a queue and is served in one step is the model's own choice (log entry 4, DESIGN CHOICE). -/
def Obligations.ByteInTag : Prop :=
  ∀ (s : State) (later : List Event) (t : Byte), s.agent = .host → s.dec.phase = .tag → s.dec.runLeft = 0 →
    (s.pending = .byte t :: later →
      (0 < continuationBytes t → step s = .next { s with pending := later, dec := { s.dec with
        ipos := s.dec.ipos + 1, pixelDataByteLength := s.dec.pixelDataByteLength + 1
        tag := t, need := continuationBytes t, args := [], phase := .args } }) ∧
      (continuationBytes t = 0 → s.dec.serialPort = false ∨ dispatchTag t ≠ .run →
        ∃ i u, decodeChunk [t] = .ok (i, []) ∧
          exec i { s with pending := later, dec := { s.dec with
            ipos := s.dec.ipos + 1, pixelDataByteLength := s.dec.pixelDataByteLength + 1 } } = .next u ∧
          step s = .next { u with dec := { u.dec with
            ipos := s.dec.ipos + 1
            phase := if u.dec.error then u.dec.phase else if u.dec.opix = u.dec.npix then .endMark else .tag } })) ∧
    (s.pending = .eoi :: later →
      (s.dec.opts.requireEndTag = true → step s = .next { s with pending := later, dec := { s.dec with
        endTagPresent := false, error := true, cause := .missingEndTag, phase := .error } }) ∧
      (s.dec.opts.requireEndTag = false → step s = .next { s with pending := later, dec := { s.dec with
        endTagPresent := false, phase := .done, done := true } }))

/-- R244: phase ARGS. A continuation byte is kept, and the last one executes the chunk, with the cursor at the number of accepted
bytes; the end of input is TRUNCATED.
That the event comes from a queue and is served in one step is the model's own choice (log entry 4, DESIGN CHOICE). -/
def Obligations.ByteInArgs : Prop :=
  ∀ (s : State) (later : List Event) (b : Byte), s.agent = .host → s.dec.phase = .args → s.dec.runLeft = 0 →
    s.dec.need = continuationBytes s.dec.tag → s.dec.args.length < s.dec.need →
    (s.pending = .byte b :: later →
      (s.dec.args.length + 1 < s.dec.need → step s = .next { s with pending := later, dec := { s.dec with
        ipos := s.dec.ipos + 1, pixelDataByteLength := s.dec.pixelDataByteLength + 1, args := s.dec.args ++ [b] } }) ∧
      (s.dec.args.length + 1 = s.dec.need →
        ∃ i u, decodeChunk (s.dec.tag :: (s.dec.args ++ [b])) = .ok (i, []) ∧
          exec i { s with pending := later, dec := { s.dec with
            ipos := s.dec.ipos + 1, pixelDataByteLength := s.dec.pixelDataByteLength + 1, args := s.dec.args ++ [b] } }
            = .next u ∧
          step s = .next { u with dec := { u.dec with
            ipos := s.dec.ipos + 1
            phase := if u.dec.error then u.dec.phase else if u.dec.opix = u.dec.npix then .endMark else .tag } })) ∧
    (s.pending = .eoi :: later → step s = .next { s with pending := later, dec := { s.dec with
      error := true, cause := .truncated, phase := .error } })

/-- R245, R246: phase END and phase TRAILING. In END, bytes are held back while they match the marker; the eighth completes it; a mismatch, or the end of input, is
MISSING_END_TAG when the marker is required and gives the held bytes back as trailing data otherwise. In TRAILING, bytes are
appended, and the end of input ends the pass. -/
def Obligations.ByteInEndAndTrailing : Prop :=
  (∀ (d : Decoder) (b : Byte), d.phase = .endMark → d.runLeft = 0 → d.matched < 8 →
    (b = (if d.matched = 7 then 1#8 else 0#8) →
      d.byteEvent b =
        if d.matched = 7 then { d with ipos := d.ipos + 1, matched := 8, endTagPresent := true, phase := .trailing }
        else { d with ipos := d.ipos + 1, matched := d.matched + 1 }) ∧
    (b ≠ (if d.matched = 7 then 1#8 else 0#8) →
      d.byteEvent b =
        if d.opts.requireEndTag then
          { d with ipos := d.ipos + 1, endTagPresent := false, error := true, cause := .missingEndTag, phase := .error }
        else
          { d with
            ipos := d.ipos + 1, endTagPresent := false
            trail := d.trail ++ (List.replicate d.matched 0#8 ++ [b]), phase := .trailing }) ∧
    d.eoiEvent =
      if d.opts.requireEndTag then
        { d with endTagPresent := false, error := true, cause := .missingEndTag, phase := .error }
      else
        { d with endTagPresent := false, trail := d.trail ++ List.replicate d.matched 0#8, phase := .done, done := true }) ∧
  ∀ (d : Decoder) (b : Byte), d.phase = .trailing → d.runLeft = 0 →
    d.byteEvent b = { d with ipos := d.ipos + 1, trail := d.trail ++ [b] } ∧
    d.eoiEvent = { d with phase := .done, done := true }

/-- R247: a port that takes one pixel per transfer puts out one pixel equal to `prev` per step, with its commit, and accepts no byte
before the run is out; when it is, nothing differs from the port that takes the whole run at once but the tag register that
tells the head of the run from the rest. The model's own choices in it: the strap that says which port it is, the tag kept for
the colors of debug mode and the run counted at its last transfer (log entry 8, DESIGN CHOICE); and that every event of the
host, not BYTE alone, waits for the transfers (log entry 16, DEDUCED). -/
def Obligations.SerialRun : Prop :=
  (∀ (s : State), s.agent = .host → 0 < s.dec.runLeft →
    step s = .next { s with dec := s.dec.transfer } ∧ (∀ b, s.dec.byteEvent b = s.dec) ∧
    s.dec.transfer.pix = s.dec.pix ++
      [outColor s.dec.opts.debugMode s.dec.prev .run (runLength (s.dec.tag.extractLsb' 0 6) - s.dec.runLeft)] ∧
    s.dec.transfer.cache = s.dec.cache.update s.dec.prev ∧ s.dec.transfer.prev = s.dec.prev ∧
    s.dec.transfer.hist =
      (if s.dec.opts.storeFullIndexHistory then s.dec.hist ++ [s.dec.cache.update s.dec.prev] else s.dec.hist) ∧
    s.dec.transfer.opix = s.dec.opix + 1 ∧ s.dec.transfer.runLeft = s.dec.runLeft - 1) ∧
  ∀ (d : Decoder) (t : Byte), d.phase = .tag → d.runLeft = 0 → dispatchTag t = .run →
    { d with serialPort := true }.feedByte t =
      { { d with serialPort := false }.byteEvent t with
        serialPort := true
        tag := ({ d with serialPort := true }.feedByte t).tag }

/-- R249: fed byte by byte and closed by EOI, the decoder ends as the pass over the whole input ends: in DONE with the same outputs,
`prev` and cache, or in ERROR with the same cause; on either kind of pixel port. -/
def Obligations.StreamDecoderMatchesThePass : Prop :=
  ∀ (seed : Bool) (unparsed unparsed' : HeaderRegs) (o : DecoderOptions) (input : List Byte) (d d' : Decoder),
    (((d'.start seed unparsed' o []).feed input).phase = .done ↔ (decodeFinal seed unparsed o input d).done = true) ∧
    (((d'.start seed unparsed' o []).feed input).phase = .error ↔ (decodeFinal seed unparsed o input d).error = true) ∧
    ((d'.start seed unparsed' o []).feed input).result = (decodeFinal seed unparsed o input d).result ∧
    ((decodeFinal seed unparsed o input d).done = true →
      ((d'.start seed unparsed' o []).feed input).prev = (decodeFinal seed unparsed o input d).prev ∧
      ((d'.start seed unparsed' o []).feed input).cache = (decodeFinal seed unparsed o input d).cache)

/-- The machine runs a byte-serial pass: pending bytes followed by EOI are fed to the decoder one by one, each with the transfers
it causes (R240, R247). The model's own choices in it: the queue of pending events, served one per step (log entry 4, DESIGN
CHOICE), and that EOI, too, waits for the transfers of a run (log entry 16, DEDUCED). -/
def Obligations.MachineFeedsTheDecoder : Prop :=
  ∀ (s : State) (input : List Byte) (later : List Event), s.agent = .host → s.dec.runLeft = 0 →
    s.pending = input.map Event.byte ++ .eoi :: later →
    ∃ k, Sys2Proof.core.run k s = .next { s with dec := s.dec.feed input, pending := later }

/-! ## The encoder -/

/-- R197, R199 to R204, with the bytes of R195, R196 and R198: the precedence of the chunk-selector and the byte or bytes of each
case, computed as the rules write them. -/
def Obligations.ChunkPrecedence : Prop :=
  ∀ (e : Encoder) (c : Pixel) (ahead : List Pixel) (dr dg db : Int),
    dr = sdelta c.r e.prev.r → dg = sdelta c.g e.prev.g → db = sdelta c.b e.prev.b →
    encode (e.select c ahead) =
      if e.opts.useRun = true ∧ c = e.prev then [BitVec.ofNat 8 (0xC0 ||| (e.covered c ahead - 1))]
      else if e.opts.useIndex = true ∧ e.cache.read (Machine.hash c) = c then [BitVec.ofNat 8 (Machine.hash c).toNat]
      else if c.a ≠ e.prev.a then [0xFF#8, c.r, c.g, c.b, c.a]
      else if e.opts.useDiff = true ∧ (-2 ≤ dr ∧ dr ≤ 1) ∧ (-2 ≤ dg ∧ dg ≤ 1) ∧ (-2 ≤ db ∧ db ≤ 1) then
        [BitVec.ofNat 8 (0x40 ||| (dr + 2).toNat <<< 4 ||| (dg + 2).toNat <<< 2 ||| (db + 2).toNat)]
      else if e.opts.useLuma = true ∧ (-32 ≤ dg ∧ dg ≤ 31) ∧ (-8 ≤ dr - dg ∧ dr - dg ≤ 7) ∧ (-8 ≤ db - dg ∧ db - dg ≤ 7) then
        [BitVec.ofNat 8 (0x80 ||| (dg + 32).toNat), BitVec.ofNat 8 ((dr - dg + 8).toNat <<< 4 ||| (db - dg + 8).toNat)]
      else if e.opts.useRgb = true then [0xFE#8, c.r, c.g, c.b]
      else [0xFF#8, c.r, c.g, c.b, c.a]

/-- R198: a RUN covers the longest stretch from its pixel on of pixels equal to `prev`, at most 62 and not past the last pixel; its
byte is 0xC0 | (n − 1), and `prev` does not change. Every other chunk covers one pixel (R193). -/
def Obligations.RunIsMaximal : Prop :=
  ∀ (e : Encoder) (c : Pixel) (ahead : List Pixel), e.i < e.npix → (c :: ahead).length = e.npix - e.i →
    (e.opts.useRun = true → c = e.prev →
      1 ≤ e.covered c ahead ∧ e.covered c ahead ≤ 62 ∧ e.i + e.covered c ahead ≤ e.npix ∧
      encode (e.select c ahead) = [BitVec.ofNat 8 (0xC0 ||| (e.covered c ahead - 1))] ∧
      (∀ j, j < e.covered c ahead → (c :: ahead)[j]? = some e.prev) ∧
      ((c :: ahead).take (e.covered c ahead)).getLastD e.prev = e.prev ∧
      ∀ k, k ≤ 62 → e.i + k ≤ e.npix → (∀ j, j < k → (c :: ahead)[j]? = some e.prev) → k ≤ e.covered c ahead) ∧
    (¬ (e.opts.useRun = true ∧ c = e.prev) → e.covered c ahead = 1)

/-- R193, R206: one turn of the pixel loop emits the selected chunk, commits every pixel it covers, in order, and advances by them;
once all pixels are covered the pass goes to TAIL. Nothing else of the machine changes.
The phase between the items of a whole-buffer pass is the model's own choice (log entry 22, DESIGN CHOICE). -/
def Obligations.EncoderTurn : Prop :=
  ∀ (s : State), s.agent = .encoder → s.enc.phase = .pixels →
    (∀ (c : Pixel) (ahead : List Pixel), s.enc.i < s.enc.npix → s.enc.pixels.drop s.enc.i = c :: ahead →
      step s = .next { s with enc := { s.enc with
        out := s.enc.out ++ encode (s.enc.select c ahead)
        opos := s.enc.opos + (encode (s.enc.select c ahead)).length
        cache := ((c :: ahead).take (s.enc.covered c ahead)).foldl Cache.update s.enc.cache
        prev := ((c :: ahead).take (s.enc.covered c ahead)).getLastD s.enc.prev
        i := s.enc.i + s.enc.covered c ahead } }) ∧
    (¬ s.enc.i < s.enc.npix → step s = .next { s with enc := { s.enc with phase := .tail } })

/-- R207, R208, R252: TAIL writes the end marker unless it is disabled, then the trailing data unless it is stripped, and the pass is
done.
The phase between the items of a whole-buffer pass is the model's own choice (log entry 22, DESIGN CHOICE). -/
def Obligations.EncoderTail : Prop :=
  ∀ (s : State), s.agent = .encoder → s.enc.phase = .tail →
    ∃ bytes, step s = .next { s with enc := { s.enc with
        out := s.enc.out ++ bytes, opos := s.enc.opos + bytes.length, phase := .done, done := true } } ∧
      bytes = (if s.enc.opts.insertEndTag then [0#8, 0#8, 0#8, 0#8, 0#8, 0#8, 0#8, 1#8] else []) ++
        (if s.enc.opts.stripTrailingData then [] else s.enc.trailing)

/-- R190, R209, R210: an encode pass never fails on a valid Image; the pass ends in DONE with all pixels consumed, and its output
is at most as long as the worst case says. -/
def Obligations.EncodeNeverFails : Prop :=
  ∀ (seed : Bool) (o : EncoderOptions) (x : Image), x.valid = true →
    ∃ e, (Encoder.start seed o x.regs x.pixels x.trailing).runPass (x.pixels.length + 2) = some e ∧ e.phase = .done ∧
      e.done = true ∧ e.i = x.regs.npix ∧ encodePass seed o x = some e.out ∧
      e.out.length ≤ 14 + 8 + 5 * x.regs.npix + x.trailing.length

/-- R211: `channels` and `colorspace` are copied into the header's last two bytes and influence nothing else. -/
def Obligations.ChannelsAndColorspaceAreCopied : Prop :=
  ∀ (seed : Bool) (o : EncoderOptions) (x : Image) (c cs : Byte) (out out' : List Byte),
    encodePass seed o x = some out →
    encodePass seed o { x with regs := { x.regs with channels := c, colorspace := cs } } = some out' →
    out[12]? = some x.regs.channels ∧ out[13]? = some x.regs.colorspace ∧ out'[12]? = some c ∧ out'[13]? = some cs ∧
    out'.take 12 = out.take 12 ∧ out'.drop 14 = out.drop 14

/-- R289, U5, U6 (D19): an Image outside the encoder's contract is refused at the start of the pass. Which refusal is named when both
the fields and the pixel count are wrong, the one for the fields, is the model's own choice (log entry 7, DESIGN CHOICE): the
spec orders nothing here. -/
def Obligations.EncodeRefusesOutsideTheContract : Prop :=
  ∀ (s : State) (later : List Event) (o : EncoderOptions), s.agent = .host → s.dec.runLeft = 0 → s.enc.startable = true →
    (∀ x : Image, s.pending = .encode o x :: later →
      (fieldsLegal x.regs = false → step s = .refused .imageFieldIllegal) ∧
      (fieldsLegal x.regs = true → x.pixels.length ≠ x.regs.npix → step s = .refused .imageSizeMismatch)) ∧
    ∀ (regs : HeaderRegs) (trailing : List Byte), s.pending = .startEncode o regs trailing :: later →
      fieldsLegal regs = false → step s = .refused .imageFieldIllegal

/-- The machine runs the encode pass of a valid Image to its end, leaves the decoder and the later events alone, and its output is
the pass's (R190, R12). The model's own choice in it: one chunk per step, with the decoder and the pending events standing
still until the turn is the host's again (log entry 4, DESIGN CHOICE). -/
def Obligations.MachineRunsAnEncodePass : Prop :=
  ∀ (s : State) (o : EncoderOptions) (x : Image) (later : List Event),
    s.agent = .host → s.dec.runLeft = 0 → s.enc.startable = true → x.valid = true → s.pending = .encode o x :: later →
    ∃ k e, Sys2Proof.core.run k s = .next { s with enc := e, pending := later } ∧ e.done = true ∧
      encodePass Config.cacheSeed o x = some e.out

/-- R251: phase PIXELS of the pixel-serial encoder, before the last pixel: a pixel equal to `prev` is counted, and a run of 62 is
written out; any other pixel writes out the pending run and then its own chunk of cases 2 to 7. -/
def Obligations.PixelEvent : Prop :=
  ∀ (e : Encoder) (c : Pixel), e.phase = .pixels → e.i + 1 < e.npix →
    (e.opts.useRun = true → c = e.prev → e.run + 1 ≠ 62 →
      e.pixelEvent c = { e with run := e.run + 1, cache := e.cache.update c, i := e.i + 1 }) ∧
    (e.opts.useRun = true → c = e.prev → e.run + 1 = 62 →
      e.pixelEvent c =
        { e with run := 0, cache := e.cache.update c, i := e.i + 1, out := e.out ++ [0xFD#8], opos := e.opos + 1 }) ∧
    (¬ (e.opts.useRun = true ∧ c = e.prev) → e.run ≤ 62 →
      e.pixelEvent c =
        { e with
          run := 0
          cache := e.cache.update c
          prev := c
          i := e.i + 1
          out := e.out ++ (if e.run = 0 then [] else [BitVec.ofNat 8 (0xC0 ||| (e.run - 1))]) ++ encode (e.selectSingle c)
          opos := e.opos + (if e.run = 0 then 0 else 1) + (encode (e.selectSingle c)).length })

/-- R251, R252: the last pixel also writes out what is still pending, then the marker and the trailing data, and the pass is done. -/
def Obligations.LastPixelEvent : Prop :=
  ∀ (e : Encoder) (c : Pixel), e.phase = .pixels → e.i + 1 = e.npix → e.run < 62 →
    ∃ chunks, (e.pixelEvent c).out = e.out ++ chunks ++
        (if e.opts.insertEndTag then [0#8, 0#8, 0#8, 0#8, 0#8, 0#8, 0#8, 1#8] else []) ++
        (if e.opts.stripTrailingData then [] else e.trailing) ∧
      (e.pixelEvent c).phase = .done ∧ (e.pixelEvent c).done = true ∧ (e.pixelEvent c).run = 0 ∧
      (e.pixelEvent c).i = e.npix ∧ (e.pixelEvent c).prev = c ∧ (e.pixelEvent c).cache = e.cache.update c ∧
      chunks =
        if e.opts.useRun = true ∧ c = e.prev then [BitVec.ofNat 8 (0xC0 ||| e.run)]
        else (if e.run = 0 then [] else [BitVec.ofNat 8 (0xC0 ||| (e.run - 1))]) ++ encode (e.selectSingle c)

/-- R254: fed pixel by pixel, the encoder writes the bytes the pass over the whole Image writes. -/
def Obligations.StreamEncoderMatchesThePass : Prop :=
  ∀ (seed : Bool) (o : EncoderOptions) (x : Image), x.valid = true →
    (Encoder.feed seed o x).done = true ∧ encodePass seed o x = some (Encoder.feed seed o x).out

/-! ## Encoder and decoder together -/

/-- R141: lockstep. Where an encoder in its pixel loop and a decoder hold the same cache, `prev`, pixel position and pixel count, the
chunk the encoder emits next decodes to itself, whatever follows it, and after it the two agree again, whatever the options of either. -/
def Obligations.Lockstep : Prop :=
  ∀ (e e' : Encoder) (d : Decoder), e.pixels.length = e.npix → e.i < e.npix → e.encodeChunk = some e' →
    d.cache = e.cache → d.prev = e.prev → d.opix = e.i → d.npix = e.npix → d.error = false →
    ∃ i, WellFormed i = true ∧ e'.out = e.out ++ encode i ∧
      (∀ rest, decode .chunks (encode i ++ rest) = .ok (i, rest)) ∧
      (itemEffect i d).cache = e'.cache ∧ (itemEffect i d).prev = e'.prev ∧ (itemEffect i d).opix = e'.i ∧
      (itemEffect i d).npix = e'.npix ∧ (itemEffect i d).error = false ∧
      (itemEffect i d).ipos = d.ipos + (encode i).length ∧
      (d.opts.debugMode = false → (itemEffect i d).pix = d.pix ++ (e.pixels.drop e.i).take (e'.i - e.i))

/-- R176: the round trip. Decoding what was encoded from a valid Image, with equal `CACHE_SEED` and a decoder that tolerates the
missing marker if none was written, gives back the pixels, the four header fields and, where it was written after a marker,
the trailing data; without a marker, trailing data that begins with the marker's bytes loses them. Debug mode is off, since
it replaces the colors put out. -/
def Obligations.RoundTrip : Prop :=
  ∀ (seed : Bool) (eo : EncoderOptions) (o : DecoderOptions) (x : Image), x.valid = true →
    (eo.insertEndTag = true ∨ o.requireEndTag = false) → o.debugMode = false →
    ∃ out result, encodePass seed eo x = some out ∧ decodePass seed o out = some (.ok result) ∧
      result.image.pixels = x.pixels ∧ result.image.regs = x.regs ∧
      (eo.insertEndTag = true → result.endTagPresent = true ∧
        result.image.trailing = if eo.stripTrailingData then [] else x.trailing) ∧
      (eo.insertEndTag = false → eo.stripTrailingData = false →
        x.trailing.take 8 ≠ [0#8, 0#8, 0#8, 0#8, 0#8, 0#8, 0#8, 1#8] → result.image.trailing = x.trailing) ∧
      (eo.insertEndTag = false → eo.stripTrailingData = false →
        x.trailing.take 8 = [0#8, 0#8, 0#8, 0#8, 0#8, 0#8, 0#8, 1#8] → result.image.trailing = x.trailing.drop 8)

/-! ## The whole machine -/

/-- The machine right after reset meets the invariant. For the registers that R311 leaves unspecified this is a statement about the
values the model chose (log entry 1). -/
def Obligations.ResetMeetsTheInvariant : Prop := State.reset.Inv

/-- Every step keeps the invariant: the streams' lengths match their cursors, the cache stays direct-mapped and holds `prev`, the
pixel count is never exceeded, the flags agree with the phases, an encoder's pending run stays below 62 and its output below
the worst case, and the streams stay in canonical form (R21, R28, R38, R61, R63, R66, R130, R138, R164, R209, R253, R277). -/
def Obligations.StepKeepsTheInvariant : Prop :=
  ∀ s s' : State, s.Inv → step s = .next s' → s'.Inv ∧ Memory.wf s' = true

/-- No fault, and no refusal but at the start of an encode pass outside the encoder's contract (R210, R280, R289). -/
def Obligations.OnlyABadImageIsRefused : Prop :=
  ∀ s : State, s.Inv →
    (∃ t, step s = .next t) ∨
    (s.agent = .host ∧ ∃ later,
      (∃ o x, s.pending = .encode o x :: later ∧ x.valid = false) ∨
      (∃ o regs trailing, s.pending = .startEncode o regs trailing :: later ∧ fieldsLegal regs = false))

/-- R281: the step that raises an error commits nothing: no pixel, no cache write, no `prev` write, no count, no snapshot. -/
def Obligations.FaultingStepCommitsNothing : Prop :=
  ∀ s s' : State, step s = .next s' → s.dec.error = false → s'.dec.error = true →
    s'.dec.pix = s.dec.pix ∧ s'.dec.opix = s.dec.opix ∧ s'.dec.cache = s.dec.cache ∧ s'.dec.prev = s.dec.prev ∧
    s'.dec.count = s.dec.count ∧ s'.dec.hist = s.dec.hist ∧ s'.dec.trail = s.dec.trail ∧ s'.dec.done = s.dec.done ∧
    s'.dec.phase = .error ∧ s'.enc = s.enc

/-- R23, R35: the option registers are constant during a pass: only a start, in IDLE, DONE or ERROR, writes them. -/
def Obligations.OptionsConstantDuringAPass : Prop :=
  ∀ s s' : State, step s = .next s' →
    (s.dec.startable = false → s'.dec.opts = s.dec.opts) ∧ (s.enc.startable = false → s'.enc.opts = s.enc.opts)

/-- R26, R37, R61 to R63, R66: during a pass the cursors never move backwards and the outputs only grow: `PIX` by exactly as many
pixels as `opix` advances, `HIST` by one snapshot for each of them when the history is asked for and by none otherwise, `TRAIL`
by appending, and only in the phases END and TRAILING, and `OUT` by appending exactly as many bytes as `opos` advances. -/
def Obligations.OutputsOnlyGrow : Prop :=
  ∀ s s' : State, s.Inv → step s = .next s' →
    (s.dec.startable = false → s.dec.ipos ≤ s'.dec.ipos ∧
      (∃ pixels snapshots, s'.dec.pix = s.dec.pix ++ pixels ∧ s'.dec.opix = s.dec.opix + pixels.length ∧
        s'.dec.hist = s.dec.hist ++ snapshots ∧
        snapshots.length = if s.dec.opts.storeFullIndexHistory then pixels.length else 0) ∧
      (∃ bytes, s'.dec.trail = s.dec.trail ++ bytes) ∧
      (s.dec.phase ≠ .endMark → s.dec.phase ≠ .trailing → s'.dec.trail = s.dec.trail)) ∧
    (s.enc.startable = false → s.enc.i ≤ s'.enc.i ∧
      ∃ bytes, s'.enc.out = s.enc.out ++ bytes ∧ s'.enc.opos = s.enc.opos + bytes.length)
end

