-- ==== Sys2Proof/Laws/State.lean ====
section
/-! SUPPORT. One lemma per field for each named update of the state, true by rfl, so that no later proof unfolds a record
update. -/

namespace Sys2Proof.Machine

/-! ## The machine's parts -/

@[simp] theorem State.setDec_dec (d : Decoder) (s : State) : (s.setDec d).dec = d := rfl
@[simp] theorem State.setDec_enc (d : Decoder) (s : State) : (s.setDec d).enc = s.enc := rfl
@[simp] theorem State.setDec_agent (d : Decoder) (s : State) : (s.setDec d).agent = s.agent := rfl
@[simp] theorem State.setDec_pending (d : Decoder) (s : State) : (s.setDec d).pending = s.pending := rfl
@[simp] theorem State.setDec_freeIndex (d : Decoder) (s : State) : (s.setDec d).freeIndex = s.freeIndex := rfl

@[simp] theorem State.setEnc_dec (e : Encoder) (s : State) : (s.setEnc e).dec = s.dec := rfl
@[simp] theorem State.setEnc_enc (e : Encoder) (s : State) : (s.setEnc e).enc = e := rfl
@[simp] theorem State.setEnc_agent (e : Encoder) (s : State) : (s.setEnc e).agent = s.agent := rfl
@[simp] theorem State.setEnc_pending (e : Encoder) (s : State) : (s.setEnc e).pending = s.pending := rfl
@[simp] theorem State.setEnc_freeIndex (e : Encoder) (s : State) : (s.setEnc e).freeIndex = s.freeIndex := rfl

@[simp] theorem State.setAgent_dec (a : Agent) (s : State) : (s.setAgent a).dec = s.dec := rfl
@[simp] theorem State.setAgent_enc (a : Agent) (s : State) : (s.setAgent a).enc = s.enc := rfl
@[simp] theorem State.setAgent_agent (a : Agent) (s : State) : (s.setAgent a).agent = a := rfl
@[simp] theorem State.setAgent_pending (a : Agent) (s : State) : (s.setAgent a).pending = s.pending := rfl
@[simp] theorem State.setAgent_freeIndex (a : Agent) (s : State) : (s.setAgent a).freeIndex = s.freeIndex := rfl

/-! ## The decoder -/

/-- `npix` is computed from the header registers (R25). -/
@[simp] theorem Decoder.npix_eq (d : Decoder) : d.npix = d.regs.npix := rfl

@[simp] theorem Decoder.raise_opts (c : Cause) (d : Decoder) : (d.raise c).opts = d.opts := rfl
@[simp] theorem Decoder.raise_serialPort (c : Cause) (d : Decoder) : (d.raise c).serialPort = d.serialPort := rfl
@[simp] theorem Decoder.raise_phase (c : Cause) (d : Decoder) : (d.raise c).phase = .error := rfl
@[simp] theorem Decoder.raise_input (c : Cause) (d : Decoder) : (d.raise c).input = d.input := rfl
@[simp] theorem Decoder.raise_ipos (c : Cause) (d : Decoder) : (d.raise c).ipos = d.ipos := rfl
@[simp] theorem Decoder.raise_opix (c : Cause) (d : Decoder) : (d.raise c).opix = d.opix := rfl
@[simp] theorem Decoder.raise_regs (c : Cause) (d : Decoder) : (d.raise c).regs = d.regs := rfl
@[simp] theorem Decoder.raise_prev (c : Cause) (d : Decoder) : (d.raise c).prev = d.prev := rfl
@[simp] theorem Decoder.raise_cache (c : Cause) (d : Decoder) : (d.raise c).cache = d.cache := rfl
@[simp] theorem Decoder.raise_pix (c : Cause) (d : Decoder) : (d.raise c).pix = d.pix := rfl
@[simp] theorem Decoder.raise_trail (c : Cause) (d : Decoder) : (d.raise c).trail = d.trail := rfl
@[simp] theorem Decoder.raise_hist (c : Cause) (d : Decoder) : (d.raise c).hist = d.hist := rfl
@[simp] theorem Decoder.raise_endTagPresent (c : Cause) (d : Decoder) : (d.raise c).endTagPresent = d.endTagPresent := rfl
@[simp] theorem Decoder.raise_done (c : Cause) (d : Decoder) : (d.raise c).done = d.done := rfl
@[simp] theorem Decoder.raise_error (c : Cause) (d : Decoder) : (d.raise c).error = true := rfl
@[simp] theorem Decoder.raise_cause (c : Cause) (d : Decoder) : (d.raise c).cause = c := rfl
@[simp] theorem Decoder.raise_count (c : Cause) (d : Decoder) : (d.raise c).count = d.count := rfl
@[simp] theorem Decoder.raise_pixelDataByteLength (c : Cause) (d : Decoder) :
    (d.raise c).pixelDataByteLength = d.pixelDataByteLength := rfl
@[simp] theorem Decoder.raise_hdr (c : Cause) (d : Decoder) : (d.raise c).hdr = d.hdr := rfl
@[simp] theorem Decoder.raise_tag (c : Cause) (d : Decoder) : (d.raise c).tag = d.tag := rfl
@[simp] theorem Decoder.raise_args (c : Cause) (d : Decoder) : (d.raise c).args = d.args := rfl
@[simp] theorem Decoder.raise_need (c : Cause) (d : Decoder) : (d.raise c).need = d.need := rfl
@[simp] theorem Decoder.raise_matched (c : Cause) (d : Decoder) : (d.raise c).matched = d.matched := rfl
@[simp] theorem Decoder.raise_runLeft (c : Cause) (d : Decoder) : (d.raise c).runLeft = d.runLeft := rfl

@[simp] theorem Decoder.failReading_opts (c : Cause) (d : Decoder) : (d.failReading c).opts = d.opts := rfl
@[simp] theorem Decoder.failReading_serialPort (c : Cause) (d : Decoder) : (d.failReading c).serialPort = d.serialPort := rfl
@[simp] theorem Decoder.failReading_phase (c : Cause) (d : Decoder) : (d.failReading c).phase = .error := rfl
@[simp] theorem Decoder.failReading_input (c : Cause) (d : Decoder) : (d.failReading c).input = d.input := rfl
@[simp] theorem Decoder.failReading_ipos (c : Cause) (d : Decoder) : (d.failReading c).ipos = d.ipos := rfl
@[simp] theorem Decoder.failReading_opix (c : Cause) (d : Decoder) : (d.failReading c).opix = d.opix := rfl
@[simp] theorem Decoder.failReading_regs (c : Cause) (d : Decoder) : (d.failReading c).regs = d.regsRead := rfl
@[simp] theorem Decoder.failReading_prev (c : Cause) (d : Decoder) : (d.failReading c).prev = d.prev := rfl
@[simp] theorem Decoder.failReading_cache (c : Cause) (d : Decoder) : (d.failReading c).cache = d.cache := rfl
@[simp] theorem Decoder.failReading_pix (c : Cause) (d : Decoder) : (d.failReading c).pix = d.pix := rfl
@[simp] theorem Decoder.failReading_trail (c : Cause) (d : Decoder) : (d.failReading c).trail = d.trail := rfl
@[simp] theorem Decoder.failReading_hist (c : Cause) (d : Decoder) : (d.failReading c).hist = d.hist := rfl
@[simp] theorem Decoder.failReading_endTagPresent (c : Cause) (d : Decoder) :
    (d.failReading c).endTagPresent = d.endTagPresent := rfl
@[simp] theorem Decoder.failReading_done (c : Cause) (d : Decoder) : (d.failReading c).done = d.done := rfl
@[simp] theorem Decoder.failReading_error (c : Cause) (d : Decoder) : (d.failReading c).error = true := rfl
@[simp] theorem Decoder.failReading_cause (c : Cause) (d : Decoder) : (d.failReading c).cause = c := rfl
@[simp] theorem Decoder.failReading_count (c : Cause) (d : Decoder) : (d.failReading c).count = d.count := rfl
@[simp] theorem Decoder.failReading_pixelDataByteLength (c : Cause) (d : Decoder) :
    (d.failReading c).pixelDataByteLength = d.pixelDataByteLength := rfl
@[simp] theorem Decoder.failReading_hdr (c : Cause) (d : Decoder) : (d.failReading c).hdr = d.hdr := rfl
@[simp] theorem Decoder.failReading_tag (c : Cause) (d : Decoder) : (d.failReading c).tag = d.tag := rfl
@[simp] theorem Decoder.failReading_args (c : Cause) (d : Decoder) : (d.failReading c).args = d.args := rfl
@[simp] theorem Decoder.failReading_need (c : Cause) (d : Decoder) : (d.failReading c).need = d.need := rfl
@[simp] theorem Decoder.failReading_matched (c : Cause) (d : Decoder) : (d.failReading c).matched = d.matched := rfl
@[simp] theorem Decoder.failReading_runLeft (c : Cause) (d : Decoder) : (d.failReading c).runLeft = d.runLeft := rfl

/-- Outside the header a failed reading just raises. -/
theorem Decoder.failReading_eq_raise {d : Decoder} (h : d.phase ≠ .header) (c : Cause) : d.failReading c = d.raise c := by
  simp [Decoder.failReading, Decoder.regsRead, h, Decoder.raise]

@[simp] theorem Decoder.advance_opts (n : Nat) (d : Decoder) : (d.advance n).opts = d.opts := rfl
@[simp] theorem Decoder.advance_serialPort (n : Nat) (d : Decoder) : (d.advance n).serialPort = d.serialPort := rfl
@[simp] theorem Decoder.advance_phase (n : Nat) (d : Decoder) : (d.advance n).phase = d.phase := rfl
@[simp] theorem Decoder.advance_input (n : Nat) (d : Decoder) : (d.advance n).input = d.input := rfl
@[simp] theorem Decoder.advance_ipos (n : Nat) (d : Decoder) : (d.advance n).ipos = d.ipos + n := rfl
@[simp] theorem Decoder.advance_opix (n : Nat) (d : Decoder) : (d.advance n).opix = d.opix := rfl
@[simp] theorem Decoder.advance_regs (n : Nat) (d : Decoder) : (d.advance n).regs = d.regs := rfl
@[simp] theorem Decoder.advance_prev (n : Nat) (d : Decoder) : (d.advance n).prev = d.prev := rfl
@[simp] theorem Decoder.advance_cache (n : Nat) (d : Decoder) : (d.advance n).cache = d.cache := rfl
@[simp] theorem Decoder.advance_pix (n : Nat) (d : Decoder) : (d.advance n).pix = d.pix := rfl
@[simp] theorem Decoder.advance_trail (n : Nat) (d : Decoder) : (d.advance n).trail = d.trail := rfl
@[simp] theorem Decoder.advance_hist (n : Nat) (d : Decoder) : (d.advance n).hist = d.hist := rfl
@[simp] theorem Decoder.advance_endTagPresent (n : Nat) (d : Decoder) : (d.advance n).endTagPresent = d.endTagPresent := rfl
@[simp] theorem Decoder.advance_done (n : Nat) (d : Decoder) : (d.advance n).done = d.done := rfl
@[simp] theorem Decoder.advance_error (n : Nat) (d : Decoder) : (d.advance n).error = d.error := rfl
@[simp] theorem Decoder.advance_cause (n : Nat) (d : Decoder) : (d.advance n).cause = d.cause := rfl
@[simp] theorem Decoder.advance_count (n : Nat) (d : Decoder) : (d.advance n).count = d.count := rfl
@[simp] theorem Decoder.advance_pixelDataByteLength (n : Nat) (d : Decoder) :
    (d.advance n).pixelDataByteLength = d.pixelDataByteLength := rfl
@[simp] theorem Decoder.advance_hdr (n : Nat) (d : Decoder) : (d.advance n).hdr = d.hdr := rfl
@[simp] theorem Decoder.advance_tag (n : Nat) (d : Decoder) : (d.advance n).tag = d.tag := rfl
@[simp] theorem Decoder.advance_args (n : Nat) (d : Decoder) : (d.advance n).args = d.args := rfl
@[simp] theorem Decoder.advance_need (n : Nat) (d : Decoder) : (d.advance n).need = d.need := rfl
@[simp] theorem Decoder.advance_matched (n : Nat) (d : Decoder) : (d.advance n).matched = d.matched := rfl
@[simp] theorem Decoder.advance_runLeft (n : Nat) (d : Decoder) : (d.advance n).runLeft = d.runLeft := rfl

@[simp] theorem Decoder.setEndTag_opts (v : Bool) (d : Decoder) : (d.setEndTag v).opts = d.opts := rfl
@[simp] theorem Decoder.setEndTag_serialPort (v : Bool) (d : Decoder) : (d.setEndTag v).serialPort = d.serialPort := rfl
@[simp] theorem Decoder.setEndTag_phase (v : Bool) (d : Decoder) : (d.setEndTag v).phase = d.phase := rfl
@[simp] theorem Decoder.setEndTag_input (v : Bool) (d : Decoder) : (d.setEndTag v).input = d.input := rfl
@[simp] theorem Decoder.setEndTag_ipos (v : Bool) (d : Decoder) : (d.setEndTag v).ipos = d.ipos := rfl
@[simp] theorem Decoder.setEndTag_opix (v : Bool) (d : Decoder) : (d.setEndTag v).opix = d.opix := rfl
@[simp] theorem Decoder.setEndTag_regs (v : Bool) (d : Decoder) : (d.setEndTag v).regs = d.regs := rfl
@[simp] theorem Decoder.setEndTag_prev (v : Bool) (d : Decoder) : (d.setEndTag v).prev = d.prev := rfl
@[simp] theorem Decoder.setEndTag_cache (v : Bool) (d : Decoder) : (d.setEndTag v).cache = d.cache := rfl
@[simp] theorem Decoder.setEndTag_pix (v : Bool) (d : Decoder) : (d.setEndTag v).pix = d.pix := rfl
@[simp] theorem Decoder.setEndTag_trail (v : Bool) (d : Decoder) : (d.setEndTag v).trail = d.trail := rfl
@[simp] theorem Decoder.setEndTag_hist (v : Bool) (d : Decoder) : (d.setEndTag v).hist = d.hist := rfl
@[simp] theorem Decoder.setEndTag_endTagPresent (v : Bool) (d : Decoder) : (d.setEndTag v).endTagPresent = v := rfl
@[simp] theorem Decoder.setEndTag_done (v : Bool) (d : Decoder) : (d.setEndTag v).done = d.done := rfl
@[simp] theorem Decoder.setEndTag_error (v : Bool) (d : Decoder) : (d.setEndTag v).error = d.error := rfl
@[simp] theorem Decoder.setEndTag_cause (v : Bool) (d : Decoder) : (d.setEndTag v).cause = d.cause := rfl
@[simp] theorem Decoder.setEndTag_count (v : Bool) (d : Decoder) : (d.setEndTag v).count = d.count := rfl
@[simp] theorem Decoder.setEndTag_pixelDataByteLength (v : Bool) (d : Decoder) :
    (d.setEndTag v).pixelDataByteLength = d.pixelDataByteLength := rfl
@[simp] theorem Decoder.setEndTag_hdr (v : Bool) (d : Decoder) : (d.setEndTag v).hdr = d.hdr := rfl
@[simp] theorem Decoder.setEndTag_tag (v : Bool) (d : Decoder) : (d.setEndTag v).tag = d.tag := rfl
@[simp] theorem Decoder.setEndTag_args (v : Bool) (d : Decoder) : (d.setEndTag v).args = d.args := rfl
@[simp] theorem Decoder.setEndTag_need (v : Bool) (d : Decoder) : (d.setEndTag v).need = d.need := rfl
@[simp] theorem Decoder.setEndTag_matched (v : Bool) (d : Decoder) : (d.setEndTag v).matched = d.matched := rfl
@[simp] theorem Decoder.setEndTag_runLeft (v : Bool) (d : Decoder) : (d.setEndTag v).runLeft = d.runLeft := rfl

@[simp] theorem Decoder.finish_opts (d : Decoder) : (d.finish).opts = d.opts := rfl
@[simp] theorem Decoder.finish_serialPort (d : Decoder) : (d.finish).serialPort = d.serialPort := rfl
@[simp] theorem Decoder.finish_phase (d : Decoder) : (d.finish).phase = .done := rfl
@[simp] theorem Decoder.finish_input (d : Decoder) : (d.finish).input = d.input := rfl
@[simp] theorem Decoder.finish_ipos (d : Decoder) : (d.finish).ipos = d.ipos := rfl
@[simp] theorem Decoder.finish_opix (d : Decoder) : (d.finish).opix = d.opix := rfl
@[simp] theorem Decoder.finish_regs (d : Decoder) : (d.finish).regs = d.regs := rfl
@[simp] theorem Decoder.finish_prev (d : Decoder) : (d.finish).prev = d.prev := rfl
@[simp] theorem Decoder.finish_cache (d : Decoder) : (d.finish).cache = d.cache := rfl
@[simp] theorem Decoder.finish_pix (d : Decoder) : (d.finish).pix = d.pix := rfl
@[simp] theorem Decoder.finish_trail (d : Decoder) : (d.finish).trail = d.trail := rfl
@[simp] theorem Decoder.finish_hist (d : Decoder) : (d.finish).hist = d.hist := rfl
@[simp] theorem Decoder.finish_endTagPresent (d : Decoder) : (d.finish).endTagPresent = d.endTagPresent := rfl
@[simp] theorem Decoder.finish_done (d : Decoder) : (d.finish).done = true := rfl
@[simp] theorem Decoder.finish_error (d : Decoder) : (d.finish).error = d.error := rfl
@[simp] theorem Decoder.finish_cause (d : Decoder) : (d.finish).cause = d.cause := rfl
@[simp] theorem Decoder.finish_count (d : Decoder) : (d.finish).count = d.count := rfl
@[simp] theorem Decoder.finish_pixelDataByteLength (d : Decoder) :
    (d.finish).pixelDataByteLength = d.pixelDataByteLength := rfl
@[simp] theorem Decoder.finish_hdr (d : Decoder) : (d.finish).hdr = d.hdr := rfl
@[simp] theorem Decoder.finish_tag (d : Decoder) : (d.finish).tag = d.tag := rfl
@[simp] theorem Decoder.finish_args (d : Decoder) : (d.finish).args = d.args := rfl
@[simp] theorem Decoder.finish_need (d : Decoder) : (d.finish).need = d.need := rfl
@[simp] theorem Decoder.finish_matched (d : Decoder) : (d.finish).matched = d.matched := rfl
@[simp] theorem Decoder.finish_runLeft (d : Decoder) : (d.finish).runLeft = d.runLeft := rfl

@[simp] theorem Decoder.countChunk_opts (type : ChunkType) (d : Decoder) : (d.countChunk type).opts = d.opts := rfl
@[simp] theorem Decoder.countChunk_serialPort (type : ChunkType) (d : Decoder) :
    (d.countChunk type).serialPort = d.serialPort := rfl
@[simp] theorem Decoder.countChunk_phase (type : ChunkType) (d : Decoder) : (d.countChunk type).phase = d.phase := rfl
@[simp] theorem Decoder.countChunk_input (type : ChunkType) (d : Decoder) : (d.countChunk type).input = d.input := rfl
@[simp] theorem Decoder.countChunk_ipos (type : ChunkType) (d : Decoder) : (d.countChunk type).ipos = d.ipos := rfl
@[simp] theorem Decoder.countChunk_opix (type : ChunkType) (d : Decoder) : (d.countChunk type).opix = d.opix := rfl
@[simp] theorem Decoder.countChunk_regs (type : ChunkType) (d : Decoder) : (d.countChunk type).regs = d.regs := rfl
@[simp] theorem Decoder.countChunk_prev (type : ChunkType) (d : Decoder) : (d.countChunk type).prev = d.prev := rfl
@[simp] theorem Decoder.countChunk_cache (type : ChunkType) (d : Decoder) : (d.countChunk type).cache = d.cache := rfl
@[simp] theorem Decoder.countChunk_pix (type : ChunkType) (d : Decoder) : (d.countChunk type).pix = d.pix := rfl
@[simp] theorem Decoder.countChunk_trail (type : ChunkType) (d : Decoder) : (d.countChunk type).trail = d.trail := rfl
@[simp] theorem Decoder.countChunk_hist (type : ChunkType) (d : Decoder) : (d.countChunk type).hist = d.hist := rfl
@[simp] theorem Decoder.countChunk_endTagPresent (type : ChunkType) (d : Decoder) :
    (d.countChunk type).endTagPresent = d.endTagPresent := rfl
@[simp] theorem Decoder.countChunk_done (type : ChunkType) (d : Decoder) : (d.countChunk type).done = d.done := rfl
@[simp] theorem Decoder.countChunk_error (type : ChunkType) (d : Decoder) : (d.countChunk type).error = d.error := rfl
@[simp] theorem Decoder.countChunk_cause (type : ChunkType) (d : Decoder) : (d.countChunk type).cause = d.cause := rfl
@[simp] theorem Decoder.countChunk_count (type : ChunkType) (d : Decoder) :
    (d.countChunk type).count = d.count.bump type := rfl
@[simp] theorem Decoder.countChunk_pixelDataByteLength (type : ChunkType) (d : Decoder) :
    (d.countChunk type).pixelDataByteLength = d.pixelDataByteLength := rfl
@[simp] theorem Decoder.countChunk_hdr (type : ChunkType) (d : Decoder) : (d.countChunk type).hdr = d.hdr := rfl
@[simp] theorem Decoder.countChunk_tag (type : ChunkType) (d : Decoder) : (d.countChunk type).tag = d.tag := rfl
@[simp] theorem Decoder.countChunk_args (type : ChunkType) (d : Decoder) : (d.countChunk type).args = d.args := rfl
@[simp] theorem Decoder.countChunk_need (type : ChunkType) (d : Decoder) : (d.countChunk type).need = d.need := rfl
@[simp] theorem Decoder.countChunk_matched (type : ChunkType) (d : Decoder) : (d.countChunk type).matched = d.matched := rfl
@[simp] theorem Decoder.countChunk_runLeft (type : ChunkType) (d : Decoder) : (d.countChunk type).runLeft = d.runLeft := rfl

@[simp] theorem Decoder.commitPixel_opts (p : Pixel) (type : ChunkType) (k : Nat) (d : Decoder) :
    (d.commitPixel p type k).opts = d.opts := rfl
@[simp] theorem Decoder.commitPixel_serialPort (p : Pixel) (type : ChunkType) (k : Nat) (d : Decoder) :
    (d.commitPixel p type k).serialPort = d.serialPort := rfl
@[simp] theorem Decoder.commitPixel_phase (p : Pixel) (type : ChunkType) (k : Nat) (d : Decoder) :
    (d.commitPixel p type k).phase = d.phase := rfl
@[simp] theorem Decoder.commitPixel_input (p : Pixel) (type : ChunkType) (k : Nat) (d : Decoder) :
    (d.commitPixel p type k).input = d.input := rfl
@[simp] theorem Decoder.commitPixel_ipos (p : Pixel) (type : ChunkType) (k : Nat) (d : Decoder) :
    (d.commitPixel p type k).ipos = d.ipos := rfl
@[simp] theorem Decoder.commitPixel_opix (p : Pixel) (type : ChunkType) (k : Nat) (d : Decoder) :
    (d.commitPixel p type k).opix = d.opix + 1 := rfl
@[simp] theorem Decoder.commitPixel_regs (p : Pixel) (type : ChunkType) (k : Nat) (d : Decoder) :
    (d.commitPixel p type k).regs = d.regs := rfl
@[simp] theorem Decoder.commitPixel_prev (p : Pixel) (type : ChunkType) (k : Nat) (d : Decoder) :
    (d.commitPixel p type k).prev = p := rfl
@[simp] theorem Decoder.commitPixel_cache (p : Pixel) (type : ChunkType) (k : Nat) (d : Decoder) :
    (d.commitPixel p type k).cache = d.cache.update p := rfl
@[simp] theorem Decoder.commitPixel_pix (p : Pixel) (type : ChunkType) (k : Nat) (d : Decoder) :
    (d.commitPixel p type k).pix = d.pix ++ [outColor d.opts.debugMode p type k] := rfl
@[simp] theorem Decoder.commitPixel_trail (p : Pixel) (type : ChunkType) (k : Nat) (d : Decoder) :
    (d.commitPixel p type k).trail = d.trail := rfl
@[simp] theorem Decoder.commitPixel_hist (p : Pixel) (type : ChunkType) (k : Nat) (d : Decoder) :
    (d.commitPixel p type k).hist = if d.opts.storeFullIndexHistory then d.hist ++ [d.cache.update p] else d.hist := rfl
@[simp] theorem Decoder.commitPixel_endTagPresent (p : Pixel) (type : ChunkType) (k : Nat) (d : Decoder) :
    (d.commitPixel p type k).endTagPresent = d.endTagPresent := rfl
@[simp] theorem Decoder.commitPixel_done (p : Pixel) (type : ChunkType) (k : Nat) (d : Decoder) :
    (d.commitPixel p type k).done = d.done := rfl
@[simp] theorem Decoder.commitPixel_error (p : Pixel) (type : ChunkType) (k : Nat) (d : Decoder) :
    (d.commitPixel p type k).error = d.error := rfl
@[simp] theorem Decoder.commitPixel_cause (p : Pixel) (type : ChunkType) (k : Nat) (d : Decoder) :
    (d.commitPixel p type k).cause = d.cause := rfl
@[simp] theorem Decoder.commitPixel_count (p : Pixel) (type : ChunkType) (k : Nat) (d : Decoder) :
    (d.commitPixel p type k).count = d.count := rfl
@[simp] theorem Decoder.commitPixel_pixelDataByteLength (p : Pixel) (type : ChunkType) (k : Nat) (d : Decoder) :
    (d.commitPixel p type k).pixelDataByteLength = d.pixelDataByteLength := rfl
@[simp] theorem Decoder.commitPixel_hdr (p : Pixel) (type : ChunkType) (k : Nat) (d : Decoder) :
    (d.commitPixel p type k).hdr = d.hdr := rfl
@[simp] theorem Decoder.commitPixel_tag (p : Pixel) (type : ChunkType) (k : Nat) (d : Decoder) :
    (d.commitPixel p type k).tag = d.tag := rfl
@[simp] theorem Decoder.commitPixel_args (p : Pixel) (type : ChunkType) (k : Nat) (d : Decoder) :
    (d.commitPixel p type k).args = d.args := rfl
@[simp] theorem Decoder.commitPixel_need (p : Pixel) (type : ChunkType) (k : Nat) (d : Decoder) :
    (d.commitPixel p type k).need = d.need := rfl
@[simp] theorem Decoder.commitPixel_matched (p : Pixel) (type : ChunkType) (k : Nat) (d : Decoder) :
    (d.commitPixel p type k).matched = d.matched := rfl
@[simp] theorem Decoder.commitPixel_runLeft (p : Pixel) (type : ChunkType) (k : Nat) (d : Decoder) :
    (d.commitPixel p type k).runLeft = d.runLeft := rfl

@[simp] theorem Decoder.accept_opts (d : Decoder) : (d.accept).opts = d.opts := rfl
@[simp] theorem Decoder.accept_serialPort (d : Decoder) : (d.accept).serialPort = d.serialPort := rfl
@[simp] theorem Decoder.accept_phase (d : Decoder) : (d.accept).phase = d.phase := rfl
@[simp] theorem Decoder.accept_input (d : Decoder) : (d.accept).input = d.input := rfl
@[simp] theorem Decoder.accept_ipos (d : Decoder) : (d.accept).ipos = d.ipos + 1 := rfl
@[simp] theorem Decoder.accept_opix (d : Decoder) : (d.accept).opix = d.opix := rfl
@[simp] theorem Decoder.accept_regs (d : Decoder) : (d.accept).regs = d.regs := rfl
@[simp] theorem Decoder.accept_prev (d : Decoder) : (d.accept).prev = d.prev := rfl
@[simp] theorem Decoder.accept_cache (d : Decoder) : (d.accept).cache = d.cache := rfl
@[simp] theorem Decoder.accept_pix (d : Decoder) : (d.accept).pix = d.pix := rfl
@[simp] theorem Decoder.accept_trail (d : Decoder) : (d.accept).trail = d.trail := rfl
@[simp] theorem Decoder.accept_hist (d : Decoder) : (d.accept).hist = d.hist := rfl
@[simp] theorem Decoder.accept_endTagPresent (d : Decoder) : (d.accept).endTagPresent = d.endTagPresent := rfl
@[simp] theorem Decoder.accept_done (d : Decoder) : (d.accept).done = d.done := rfl
@[simp] theorem Decoder.accept_error (d : Decoder) : (d.accept).error = d.error := rfl
@[simp] theorem Decoder.accept_cause (d : Decoder) : (d.accept).cause = d.cause := rfl
@[simp] theorem Decoder.accept_count (d : Decoder) : (d.accept).count = d.count := rfl
@[simp] theorem Decoder.accept_pixelDataByteLength (d : Decoder) :
    (d.accept).pixelDataByteLength = d.pixelDataByteLength := rfl
@[simp] theorem Decoder.accept_hdr (d : Decoder) : (d.accept).hdr = d.hdr := rfl
@[simp] theorem Decoder.accept_tag (d : Decoder) : (d.accept).tag = d.tag := rfl
@[simp] theorem Decoder.accept_args (d : Decoder) : (d.accept).args = d.args := rfl
@[simp] theorem Decoder.accept_need (d : Decoder) : (d.accept).need = d.need := rfl
@[simp] theorem Decoder.accept_matched (d : Decoder) : (d.accept).matched = d.matched := rfl
@[simp] theorem Decoder.accept_runLeft (d : Decoder) : (d.accept).runLeft = d.runLeft := rfl

@[simp] theorem Decoder.acceptPixelByte_opts (d : Decoder) : (d.acceptPixelByte).opts = d.opts := rfl
@[simp] theorem Decoder.acceptPixelByte_serialPort (d : Decoder) : (d.acceptPixelByte).serialPort = d.serialPort := rfl
@[simp] theorem Decoder.acceptPixelByte_phase (d : Decoder) : (d.acceptPixelByte).phase = d.phase := rfl
@[simp] theorem Decoder.acceptPixelByte_input (d : Decoder) : (d.acceptPixelByte).input = d.input := rfl
@[simp] theorem Decoder.acceptPixelByte_ipos (d : Decoder) : (d.acceptPixelByte).ipos = d.ipos + 1 := rfl
@[simp] theorem Decoder.acceptPixelByte_opix (d : Decoder) : (d.acceptPixelByte).opix = d.opix := rfl
@[simp] theorem Decoder.acceptPixelByte_regs (d : Decoder) : (d.acceptPixelByte).regs = d.regs := rfl
@[simp] theorem Decoder.acceptPixelByte_prev (d : Decoder) : (d.acceptPixelByte).prev = d.prev := rfl
@[simp] theorem Decoder.acceptPixelByte_cache (d : Decoder) : (d.acceptPixelByte).cache = d.cache := rfl
@[simp] theorem Decoder.acceptPixelByte_pix (d : Decoder) : (d.acceptPixelByte).pix = d.pix := rfl
@[simp] theorem Decoder.acceptPixelByte_trail (d : Decoder) : (d.acceptPixelByte).trail = d.trail := rfl
@[simp] theorem Decoder.acceptPixelByte_hist (d : Decoder) : (d.acceptPixelByte).hist = d.hist := rfl
@[simp] theorem Decoder.acceptPixelByte_endTagPresent (d : Decoder) :
    (d.acceptPixelByte).endTagPresent = d.endTagPresent := rfl
@[simp] theorem Decoder.acceptPixelByte_done (d : Decoder) : (d.acceptPixelByte).done = d.done := rfl
@[simp] theorem Decoder.acceptPixelByte_error (d : Decoder) : (d.acceptPixelByte).error = d.error := rfl
@[simp] theorem Decoder.acceptPixelByte_cause (d : Decoder) : (d.acceptPixelByte).cause = d.cause := rfl
@[simp] theorem Decoder.acceptPixelByte_count (d : Decoder) : (d.acceptPixelByte).count = d.count := rfl
@[simp] theorem Decoder.acceptPixelByte_pixelDataByteLength (d : Decoder) :
    (d.acceptPixelByte).pixelDataByteLength = d.pixelDataByteLength + 1 := rfl
@[simp] theorem Decoder.acceptPixelByte_hdr (d : Decoder) : (d.acceptPixelByte).hdr = d.hdr := rfl
@[simp] theorem Decoder.acceptPixelByte_tag (d : Decoder) : (d.acceptPixelByte).tag = d.tag := rfl
@[simp] theorem Decoder.acceptPixelByte_args (d : Decoder) : (d.acceptPixelByte).args = d.args := rfl
@[simp] theorem Decoder.acceptPixelByte_need (d : Decoder) : (d.acceptPixelByte).need = d.need := rfl
@[simp] theorem Decoder.acceptPixelByte_matched (d : Decoder) : (d.acceptPixelByte).matched = d.matched := rfl
@[simp] theorem Decoder.acceptPixelByte_runLeft (d : Decoder) : (d.acceptPixelByte).runLeft = d.runLeft := rfl

@[simp] theorem Decoder.endLoop_opts (d : Decoder) : (d.endLoop).opts = d.opts := rfl
@[simp] theorem Decoder.endLoop_serialPort (d : Decoder) : (d.endLoop).serialPort = d.serialPort := rfl
@[simp] theorem Decoder.endLoop_phase (d : Decoder) : (d.endLoop).phase = .endMark := rfl
@[simp] theorem Decoder.endLoop_input (d : Decoder) : (d.endLoop).input = d.input := rfl
@[simp] theorem Decoder.endLoop_ipos (d : Decoder) : (d.endLoop).ipos = d.ipos := rfl
@[simp] theorem Decoder.endLoop_opix (d : Decoder) : (d.endLoop).opix = d.opix := rfl
@[simp] theorem Decoder.endLoop_regs (d : Decoder) : (d.endLoop).regs = d.regs := rfl
@[simp] theorem Decoder.endLoop_prev (d : Decoder) : (d.endLoop).prev = d.prev := rfl
@[simp] theorem Decoder.endLoop_cache (d : Decoder) : (d.endLoop).cache = d.cache := rfl
@[simp] theorem Decoder.endLoop_pix (d : Decoder) : (d.endLoop).pix = d.pix := rfl
@[simp] theorem Decoder.endLoop_trail (d : Decoder) : (d.endLoop).trail = d.trail := rfl
@[simp] theorem Decoder.endLoop_hist (d : Decoder) : (d.endLoop).hist = d.hist := rfl
@[simp] theorem Decoder.endLoop_endTagPresent (d : Decoder) : (d.endLoop).endTagPresent = d.endTagPresent := rfl
@[simp] theorem Decoder.endLoop_done (d : Decoder) : (d.endLoop).done = d.done := rfl
@[simp] theorem Decoder.endLoop_error (d : Decoder) : (d.endLoop).error = d.error := rfl
@[simp] theorem Decoder.endLoop_cause (d : Decoder) : (d.endLoop).cause = d.cause := rfl
@[simp] theorem Decoder.endLoop_count (d : Decoder) : (d.endLoop).count = d.count := rfl
@[simp] theorem Decoder.endLoop_pixelDataByteLength (d : Decoder) :
    (d.endLoop).pixelDataByteLength = d.ipos - headerLen := rfl
@[simp] theorem Decoder.endLoop_hdr (d : Decoder) : (d.endLoop).hdr = d.hdr := rfl
@[simp] theorem Decoder.endLoop_tag (d : Decoder) : (d.endLoop).tag = d.tag := rfl
@[simp] theorem Decoder.endLoop_args (d : Decoder) : (d.endLoop).args = d.args := rfl
@[simp] theorem Decoder.endLoop_need (d : Decoder) : (d.endLoop).need = d.need := rfl
@[simp] theorem Decoder.endLoop_matched (d : Decoder) : (d.endLoop).matched = d.matched := rfl
@[simp] theorem Decoder.endLoop_runLeft (d : Decoder) : (d.endLoop).runLeft = d.runLeft := rfl

@[simp] theorem Decoder.takeTrailing_opts (d : Decoder) : (d.takeTrailing).opts = d.opts := rfl
@[simp] theorem Decoder.takeTrailing_serialPort (d : Decoder) : (d.takeTrailing).serialPort = d.serialPort := rfl
@[simp] theorem Decoder.takeTrailing_phase (d : Decoder) : (d.takeTrailing).phase = .done := rfl
@[simp] theorem Decoder.takeTrailing_input (d : Decoder) : (d.takeTrailing).input = d.input := rfl
@[simp] theorem Decoder.takeTrailing_ipos (d : Decoder) : (d.takeTrailing).ipos = d.input.length := rfl
@[simp] theorem Decoder.takeTrailing_opix (d : Decoder) : (d.takeTrailing).opix = d.opix := rfl
@[simp] theorem Decoder.takeTrailing_regs (d : Decoder) : (d.takeTrailing).regs = d.regs := rfl
@[simp] theorem Decoder.takeTrailing_prev (d : Decoder) : (d.takeTrailing).prev = d.prev := rfl
@[simp] theorem Decoder.takeTrailing_cache (d : Decoder) : (d.takeTrailing).cache = d.cache := rfl
@[simp] theorem Decoder.takeTrailing_pix (d : Decoder) : (d.takeTrailing).pix = d.pix := rfl
@[simp] theorem Decoder.takeTrailing_trail (d : Decoder) : (d.takeTrailing).trail = d.input.drop d.ipos := rfl
@[simp] theorem Decoder.takeTrailing_hist (d : Decoder) : (d.takeTrailing).hist = d.hist := rfl
@[simp] theorem Decoder.takeTrailing_endTagPresent (d : Decoder) : (d.takeTrailing).endTagPresent = d.endTagPresent := rfl
@[simp] theorem Decoder.takeTrailing_done (d : Decoder) : (d.takeTrailing).done = true := rfl
@[simp] theorem Decoder.takeTrailing_error (d : Decoder) : (d.takeTrailing).error = d.error := rfl
@[simp] theorem Decoder.takeTrailing_cause (d : Decoder) : (d.takeTrailing).cause = d.cause := rfl
@[simp] theorem Decoder.takeTrailing_count (d : Decoder) : (d.takeTrailing).count = d.count := rfl
@[simp] theorem Decoder.takeTrailing_pixelDataByteLength (d : Decoder) :
    (d.takeTrailing).pixelDataByteLength = d.pixelDataByteLength := rfl
@[simp] theorem Decoder.takeTrailing_hdr (d : Decoder) : (d.takeTrailing).hdr = d.hdr := rfl
@[simp] theorem Decoder.takeTrailing_tag (d : Decoder) : (d.takeTrailing).tag = d.tag := rfl
@[simp] theorem Decoder.takeTrailing_args (d : Decoder) : (d.takeTrailing).args = d.args := rfl
@[simp] theorem Decoder.takeTrailing_need (d : Decoder) : (d.takeTrailing).need = d.need := rfl
@[simp] theorem Decoder.takeTrailing_matched (d : Decoder) : (d.takeTrailing).matched = d.matched := rfl
@[simp] theorem Decoder.takeTrailing_runLeft (d : Decoder) : (d.takeTrailing).runLeft = d.runLeft := rfl

@[simp] theorem Decoder.goTo_opts (p : DecoderPhase) (d : Decoder) : (d.goTo p).opts = d.opts := rfl
@[simp] theorem Decoder.goTo_serialPort (p : DecoderPhase) (d : Decoder) : (d.goTo p).serialPort = d.serialPort := rfl
@[simp] theorem Decoder.goTo_phase (p : DecoderPhase) (d : Decoder) : (d.goTo p).phase = p := rfl
@[simp] theorem Decoder.goTo_input (p : DecoderPhase) (d : Decoder) : (d.goTo p).input = d.input := rfl
@[simp] theorem Decoder.goTo_ipos (p : DecoderPhase) (d : Decoder) : (d.goTo p).ipos = d.ipos := rfl
@[simp] theorem Decoder.goTo_opix (p : DecoderPhase) (d : Decoder) : (d.goTo p).opix = d.opix := rfl
@[simp] theorem Decoder.goTo_regs (p : DecoderPhase) (d : Decoder) : (d.goTo p).regs = d.regs := rfl
@[simp] theorem Decoder.goTo_prev (p : DecoderPhase) (d : Decoder) : (d.goTo p).prev = d.prev := rfl
@[simp] theorem Decoder.goTo_cache (p : DecoderPhase) (d : Decoder) : (d.goTo p).cache = d.cache := rfl
@[simp] theorem Decoder.goTo_pix (p : DecoderPhase) (d : Decoder) : (d.goTo p).pix = d.pix := rfl
@[simp] theorem Decoder.goTo_trail (p : DecoderPhase) (d : Decoder) : (d.goTo p).trail = d.trail := rfl
@[simp] theorem Decoder.goTo_hist (p : DecoderPhase) (d : Decoder) : (d.goTo p).hist = d.hist := rfl
@[simp] theorem Decoder.goTo_endTagPresent (p : DecoderPhase) (d : Decoder) :
    (d.goTo p).endTagPresent = d.endTagPresent := rfl
@[simp] theorem Decoder.goTo_done (p : DecoderPhase) (d : Decoder) : (d.goTo p).done = d.done := rfl
@[simp] theorem Decoder.goTo_error (p : DecoderPhase) (d : Decoder) : (d.goTo p).error = d.error := rfl
@[simp] theorem Decoder.goTo_cause (p : DecoderPhase) (d : Decoder) : (d.goTo p).cause = d.cause := rfl
@[simp] theorem Decoder.goTo_count (p : DecoderPhase) (d : Decoder) : (d.goTo p).count = d.count := rfl
@[simp] theorem Decoder.goTo_pixelDataByteLength (p : DecoderPhase) (d : Decoder) :
    (d.goTo p).pixelDataByteLength = d.pixelDataByteLength := rfl
@[simp] theorem Decoder.goTo_hdr (p : DecoderPhase) (d : Decoder) : (d.goTo p).hdr = d.hdr := rfl
@[simp] theorem Decoder.goTo_tag (p : DecoderPhase) (d : Decoder) : (d.goTo p).tag = d.tag := rfl
@[simp] theorem Decoder.goTo_args (p : DecoderPhase) (d : Decoder) : (d.goTo p).args = d.args := rfl
@[simp] theorem Decoder.goTo_need (p : DecoderPhase) (d : Decoder) : (d.goTo p).need = d.need := rfl
@[simp] theorem Decoder.goTo_matched (p : DecoderPhase) (d : Decoder) : (d.goTo p).matched = d.matched := rfl
@[simp] theorem Decoder.goTo_runLeft (p : DecoderPhase) (d : Decoder) : (d.goTo p).runLeft = d.runLeft := rfl

@[simp] theorem Decoder.writeSize_opts (w h : U32) (d : Decoder) : (d.writeSize w h).opts = d.opts := rfl
@[simp] theorem Decoder.writeSize_serialPort (w h : U32) (d : Decoder) :
    (d.writeSize w h).serialPort = d.serialPort := rfl
@[simp] theorem Decoder.writeSize_phase (w h : U32) (d : Decoder) : (d.writeSize w h).phase = d.phase := rfl
@[simp] theorem Decoder.writeSize_input (w h : U32) (d : Decoder) : (d.writeSize w h).input = d.input := rfl
@[simp] theorem Decoder.writeSize_ipos (w h : U32) (d : Decoder) : (d.writeSize w h).ipos = d.ipos := rfl
@[simp] theorem Decoder.writeSize_opix (w h : U32) (d : Decoder) : (d.writeSize w h).opix = d.opix := rfl
@[simp] theorem Decoder.writeSize_regs (w h : U32) (d : Decoder) :
    (d.writeSize w h).regs = ⟨w, h, d.regs.channels, d.regs.colorspace⟩ := rfl
@[simp] theorem Decoder.writeSize_prev (w h : U32) (d : Decoder) : (d.writeSize w h).prev = d.prev := rfl
@[simp] theorem Decoder.writeSize_cache (w h : U32) (d : Decoder) : (d.writeSize w h).cache = d.cache := rfl
@[simp] theorem Decoder.writeSize_pix (w h : U32) (d : Decoder) : (d.writeSize w h).pix = d.pix := rfl
@[simp] theorem Decoder.writeSize_trail (w h : U32) (d : Decoder) : (d.writeSize w h).trail = d.trail := rfl
@[simp] theorem Decoder.writeSize_hist (w h : U32) (d : Decoder) : (d.writeSize w h).hist = d.hist := rfl
@[simp] theorem Decoder.writeSize_endTagPresent (w h : U32) (d : Decoder) :
    (d.writeSize w h).endTagPresent = d.endTagPresent := rfl
@[simp] theorem Decoder.writeSize_done (w h : U32) (d : Decoder) : (d.writeSize w h).done = d.done := rfl
@[simp] theorem Decoder.writeSize_error (w h : U32) (d : Decoder) : (d.writeSize w h).error = d.error := rfl
@[simp] theorem Decoder.writeSize_cause (w h : U32) (d : Decoder) : (d.writeSize w h).cause = d.cause := rfl
@[simp] theorem Decoder.writeSize_count (w h : U32) (d : Decoder) : (d.writeSize w h).count = d.count := rfl
@[simp] theorem Decoder.writeSize_pixelDataByteLength (w h : U32) (d : Decoder) :
    (d.writeSize w h).pixelDataByteLength = d.pixelDataByteLength := rfl
@[simp] theorem Decoder.writeSize_hdr (w h : U32) (d : Decoder) : (d.writeSize w h).hdr = d.hdr := rfl
@[simp] theorem Decoder.writeSize_tag (w h : U32) (d : Decoder) : (d.writeSize w h).tag = d.tag := rfl
@[simp] theorem Decoder.writeSize_args (w h : U32) (d : Decoder) : (d.writeSize w h).args = d.args := rfl
@[simp] theorem Decoder.writeSize_need (w h : U32) (d : Decoder) : (d.writeSize w h).need = d.need := rfl
@[simp] theorem Decoder.writeSize_matched (w h : U32) (d : Decoder) : (d.writeSize w h).matched = d.matched := rfl
@[simp] theorem Decoder.writeSize_runLeft (w h : U32) (d : Decoder) : (d.writeSize w h).runLeft = d.runLeft := rfl

@[simp] theorem Decoder.writeChannels_opts (c : Byte) (d : Decoder) : (d.writeChannels c).opts = d.opts := rfl
@[simp] theorem Decoder.writeChannels_serialPort (c : Byte) (d : Decoder) :
    (d.writeChannels c).serialPort = d.serialPort := rfl
@[simp] theorem Decoder.writeChannels_phase (c : Byte) (d : Decoder) : (d.writeChannels c).phase = d.phase := rfl
@[simp] theorem Decoder.writeChannels_input (c : Byte) (d : Decoder) : (d.writeChannels c).input = d.input := rfl
@[simp] theorem Decoder.writeChannels_ipos (c : Byte) (d : Decoder) : (d.writeChannels c).ipos = d.ipos := rfl
@[simp] theorem Decoder.writeChannels_opix (c : Byte) (d : Decoder) : (d.writeChannels c).opix = d.opix := rfl
@[simp] theorem Decoder.writeChannels_regs (c : Byte) (d : Decoder) :
    (d.writeChannels c).regs = ⟨d.regs.width, d.regs.height, c, d.regs.colorspace⟩ := rfl
@[simp] theorem Decoder.writeChannels_prev (c : Byte) (d : Decoder) : (d.writeChannels c).prev = d.prev := rfl
@[simp] theorem Decoder.writeChannels_cache (c : Byte) (d : Decoder) : (d.writeChannels c).cache = d.cache := rfl
@[simp] theorem Decoder.writeChannels_pix (c : Byte) (d : Decoder) : (d.writeChannels c).pix = d.pix := rfl
@[simp] theorem Decoder.writeChannels_trail (c : Byte) (d : Decoder) : (d.writeChannels c).trail = d.trail := rfl
@[simp] theorem Decoder.writeChannels_hist (c : Byte) (d : Decoder) : (d.writeChannels c).hist = d.hist := rfl
@[simp] theorem Decoder.writeChannels_endTagPresent (c : Byte) (d : Decoder) :
    (d.writeChannels c).endTagPresent = d.endTagPresent := rfl
@[simp] theorem Decoder.writeChannels_done (c : Byte) (d : Decoder) : (d.writeChannels c).done = d.done := rfl
@[simp] theorem Decoder.writeChannels_error (c : Byte) (d : Decoder) : (d.writeChannels c).error = d.error := rfl
@[simp] theorem Decoder.writeChannels_cause (c : Byte) (d : Decoder) : (d.writeChannels c).cause = d.cause := rfl
@[simp] theorem Decoder.writeChannels_count (c : Byte) (d : Decoder) : (d.writeChannels c).count = d.count := rfl
@[simp] theorem Decoder.writeChannels_pixelDataByteLength (c : Byte) (d : Decoder) :
    (d.writeChannels c).pixelDataByteLength = d.pixelDataByteLength := rfl
@[simp] theorem Decoder.writeChannels_hdr (c : Byte) (d : Decoder) : (d.writeChannels c).hdr = d.hdr := rfl
@[simp] theorem Decoder.writeChannels_tag (c : Byte) (d : Decoder) : (d.writeChannels c).tag = d.tag := rfl
@[simp] theorem Decoder.writeChannels_args (c : Byte) (d : Decoder) : (d.writeChannels c).args = d.args := rfl
@[simp] theorem Decoder.writeChannels_need (c : Byte) (d : Decoder) : (d.writeChannels c).need = d.need := rfl
@[simp] theorem Decoder.writeChannels_matched (c : Byte) (d : Decoder) : (d.writeChannels c).matched = d.matched := rfl
@[simp] theorem Decoder.writeChannels_runLeft (c : Byte) (d : Decoder) : (d.writeChannels c).runLeft = d.runLeft := rfl

@[simp] theorem Decoder.writeColorspace_opts (s : Byte) (d : Decoder) : (d.writeColorspace s).opts = d.opts := rfl
@[simp] theorem Decoder.writeColorspace_serialPort (s : Byte) (d : Decoder) :
    (d.writeColorspace s).serialPort = d.serialPort := rfl
@[simp] theorem Decoder.writeColorspace_phase (s : Byte) (d : Decoder) : (d.writeColorspace s).phase = .tag := rfl
@[simp] theorem Decoder.writeColorspace_input (s : Byte) (d : Decoder) : (d.writeColorspace s).input = d.input := rfl
@[simp] theorem Decoder.writeColorspace_ipos (s : Byte) (d : Decoder) : (d.writeColorspace s).ipos = headerLen := rfl
@[simp] theorem Decoder.writeColorspace_opix (s : Byte) (d : Decoder) : (d.writeColorspace s).opix = d.opix := rfl
@[simp] theorem Decoder.writeColorspace_regs (s : Byte) (d : Decoder) :
    (d.writeColorspace s).regs = ⟨d.regs.width, d.regs.height, d.regs.channels, s⟩ := rfl
@[simp] theorem Decoder.writeColorspace_prev (s : Byte) (d : Decoder) : (d.writeColorspace s).prev = d.prev := rfl
@[simp] theorem Decoder.writeColorspace_cache (s : Byte) (d : Decoder) : (d.writeColorspace s).cache = d.cache := rfl
@[simp] theorem Decoder.writeColorspace_pix (s : Byte) (d : Decoder) : (d.writeColorspace s).pix = d.pix := rfl
@[simp] theorem Decoder.writeColorspace_trail (s : Byte) (d : Decoder) : (d.writeColorspace s).trail = d.trail := rfl
@[simp] theorem Decoder.writeColorspace_hist (s : Byte) (d : Decoder) : (d.writeColorspace s).hist = d.hist := rfl
@[simp] theorem Decoder.writeColorspace_endTagPresent (s : Byte) (d : Decoder) :
    (d.writeColorspace s).endTagPresent = d.endTagPresent := rfl
@[simp] theorem Decoder.writeColorspace_done (s : Byte) (d : Decoder) : (d.writeColorspace s).done = d.done := rfl
@[simp] theorem Decoder.writeColorspace_error (s : Byte) (d : Decoder) : (d.writeColorspace s).error = d.error := rfl
@[simp] theorem Decoder.writeColorspace_cause (s : Byte) (d : Decoder) : (d.writeColorspace s).cause = d.cause := rfl
@[simp] theorem Decoder.writeColorspace_count (s : Byte) (d : Decoder) : (d.writeColorspace s).count = d.count := rfl
@[simp] theorem Decoder.writeColorspace_pixelDataByteLength (s : Byte) (d : Decoder) :
    (d.writeColorspace s).pixelDataByteLength = d.pixelDataByteLength := rfl
@[simp] theorem Decoder.writeColorspace_hdr (s : Byte) (d : Decoder) : (d.writeColorspace s).hdr = d.hdr := rfl
@[simp] theorem Decoder.writeColorspace_tag (s : Byte) (d : Decoder) : (d.writeColorspace s).tag = d.tag := rfl
@[simp] theorem Decoder.writeColorspace_args (s : Byte) (d : Decoder) : (d.writeColorspace s).args = d.args := rfl
@[simp] theorem Decoder.writeColorspace_need (s : Byte) (d : Decoder) : (d.writeColorspace s).need = d.need := rfl
@[simp] theorem Decoder.writeColorspace_matched (s : Byte) (d : Decoder) :
    (d.writeColorspace s).matched = d.matched := rfl
@[simp] theorem Decoder.writeColorspace_runLeft (s : Byte) (d : Decoder) :
    (d.writeColorspace s).runLeft = d.runLeft := rfl

@[simp] theorem Decoder.pushHeader_opts (b : Byte) (d : Decoder) : (d.pushHeader b).opts = d.opts := rfl
@[simp] theorem Decoder.pushHeader_serialPort (b : Byte) (d : Decoder) : (d.pushHeader b).serialPort = d.serialPort := rfl
@[simp] theorem Decoder.pushHeader_phase (b : Byte) (d : Decoder) : (d.pushHeader b).phase = d.phase := rfl
@[simp] theorem Decoder.pushHeader_input (b : Byte) (d : Decoder) : (d.pushHeader b).input = d.input := rfl
@[simp] theorem Decoder.pushHeader_ipos (b : Byte) (d : Decoder) : (d.pushHeader b).ipos = d.ipos + 1 := rfl
@[simp] theorem Decoder.pushHeader_opix (b : Byte) (d : Decoder) : (d.pushHeader b).opix = d.opix := rfl
@[simp] theorem Decoder.pushHeader_regs (b : Byte) (d : Decoder) : (d.pushHeader b).regs = d.regs := rfl
@[simp] theorem Decoder.pushHeader_prev (b : Byte) (d : Decoder) : (d.pushHeader b).prev = d.prev := rfl
@[simp] theorem Decoder.pushHeader_cache (b : Byte) (d : Decoder) : (d.pushHeader b).cache = d.cache := rfl
@[simp] theorem Decoder.pushHeader_pix (b : Byte) (d : Decoder) : (d.pushHeader b).pix = d.pix := rfl
@[simp] theorem Decoder.pushHeader_trail (b : Byte) (d : Decoder) : (d.pushHeader b).trail = d.trail := rfl
@[simp] theorem Decoder.pushHeader_hist (b : Byte) (d : Decoder) : (d.pushHeader b).hist = d.hist := rfl
@[simp] theorem Decoder.pushHeader_endTagPresent (b : Byte) (d : Decoder) :
    (d.pushHeader b).endTagPresent = d.endTagPresent := rfl
@[simp] theorem Decoder.pushHeader_done (b : Byte) (d : Decoder) : (d.pushHeader b).done = d.done := rfl
@[simp] theorem Decoder.pushHeader_error (b : Byte) (d : Decoder) : (d.pushHeader b).error = d.error := rfl
@[simp] theorem Decoder.pushHeader_cause (b : Byte) (d : Decoder) : (d.pushHeader b).cause = d.cause := rfl
@[simp] theorem Decoder.pushHeader_count (b : Byte) (d : Decoder) : (d.pushHeader b).count = d.count := rfl
@[simp] theorem Decoder.pushHeader_pixelDataByteLength (b : Byte) (d : Decoder) :
    (d.pushHeader b).pixelDataByteLength = d.pixelDataByteLength := rfl
@[simp] theorem Decoder.pushHeader_hdr (b : Byte) (d : Decoder) : (d.pushHeader b).hdr = d.hdr ++ [b] := rfl
@[simp] theorem Decoder.pushHeader_tag (b : Byte) (d : Decoder) : (d.pushHeader b).tag = d.tag := rfl
@[simp] theorem Decoder.pushHeader_args (b : Byte) (d : Decoder) : (d.pushHeader b).args = d.args := rfl
@[simp] theorem Decoder.pushHeader_need (b : Byte) (d : Decoder) : (d.pushHeader b).need = d.need := rfl
@[simp] theorem Decoder.pushHeader_matched (b : Byte) (d : Decoder) : (d.pushHeader b).matched = d.matched := rfl
@[simp] theorem Decoder.pushHeader_runLeft (b : Byte) (d : Decoder) : (d.pushHeader b).runLeft = d.runLeft := rfl

@[simp] theorem Decoder.latchHeader_opts (regs : HeaderRegs) (d : Decoder) : (d.latchHeader regs).opts = d.opts := rfl
@[simp] theorem Decoder.latchHeader_serialPort (regs : HeaderRegs) (d : Decoder) :
    (d.latchHeader regs).serialPort = d.serialPort := rfl
@[simp] theorem Decoder.latchHeader_phase (regs : HeaderRegs) (d : Decoder) :
    (d.latchHeader regs).phase = if regs.npix = 0 then .endMark else .tag := rfl
@[simp] theorem Decoder.latchHeader_input (regs : HeaderRegs) (d : Decoder) : (d.latchHeader regs).input = d.input := rfl
@[simp] theorem Decoder.latchHeader_ipos (regs : HeaderRegs) (d : Decoder) : (d.latchHeader regs).ipos = d.ipos := rfl
@[simp] theorem Decoder.latchHeader_opix (regs : HeaderRegs) (d : Decoder) : (d.latchHeader regs).opix = d.opix := rfl
@[simp] theorem Decoder.latchHeader_regs (regs : HeaderRegs) (d : Decoder) : (d.latchHeader regs).regs = regs := rfl
@[simp] theorem Decoder.latchHeader_prev (regs : HeaderRegs) (d : Decoder) : (d.latchHeader regs).prev = d.prev := rfl
@[simp] theorem Decoder.latchHeader_cache (regs : HeaderRegs) (d : Decoder) : (d.latchHeader regs).cache = d.cache := rfl
@[simp] theorem Decoder.latchHeader_pix (regs : HeaderRegs) (d : Decoder) : (d.latchHeader regs).pix = d.pix := rfl
@[simp] theorem Decoder.latchHeader_trail (regs : HeaderRegs) (d : Decoder) : (d.latchHeader regs).trail = d.trail := rfl
@[simp] theorem Decoder.latchHeader_hist (regs : HeaderRegs) (d : Decoder) : (d.latchHeader regs).hist = d.hist := rfl
@[simp] theorem Decoder.latchHeader_endTagPresent (regs : HeaderRegs) (d : Decoder) :
    (d.latchHeader regs).endTagPresent = d.endTagPresent := rfl
@[simp] theorem Decoder.latchHeader_done (regs : HeaderRegs) (d : Decoder) : (d.latchHeader regs).done = d.done := rfl
@[simp] theorem Decoder.latchHeader_error (regs : HeaderRegs) (d : Decoder) : (d.latchHeader regs).error = d.error := rfl
@[simp] theorem Decoder.latchHeader_cause (regs : HeaderRegs) (d : Decoder) : (d.latchHeader regs).cause = d.cause := rfl
@[simp] theorem Decoder.latchHeader_count (regs : HeaderRegs) (d : Decoder) : (d.latchHeader regs).count = d.count := rfl
@[simp] theorem Decoder.latchHeader_pixelDataByteLength (regs : HeaderRegs) (d : Decoder) :
    (d.latchHeader regs).pixelDataByteLength = d.pixelDataByteLength := rfl
@[simp] theorem Decoder.latchHeader_hdr (regs : HeaderRegs) (d : Decoder) : (d.latchHeader regs).hdr = d.hdr := rfl
@[simp] theorem Decoder.latchHeader_tag (regs : HeaderRegs) (d : Decoder) : (d.latchHeader regs).tag = d.tag := rfl
@[simp] theorem Decoder.latchHeader_args (regs : HeaderRegs) (d : Decoder) : (d.latchHeader regs).args = d.args := rfl
@[simp] theorem Decoder.latchHeader_need (regs : HeaderRegs) (d : Decoder) : (d.latchHeader regs).need = d.need := rfl
@[simp] theorem Decoder.latchHeader_matched (regs : HeaderRegs) (d : Decoder) :
    (d.latchHeader regs).matched = d.matched := rfl
@[simp] theorem Decoder.latchHeader_runLeft (regs : HeaderRegs) (d : Decoder) :
    (d.latchHeader regs).runLeft = d.runLeft := rfl

@[simp] theorem Decoder.setIpos_opts (n : Nat) (d : Decoder) : (d.setIpos n).opts = d.opts := rfl
@[simp] theorem Decoder.setIpos_serialPort (n : Nat) (d : Decoder) : (d.setIpos n).serialPort = d.serialPort := rfl
@[simp] theorem Decoder.setIpos_phase (n : Nat) (d : Decoder) : (d.setIpos n).phase = d.phase := rfl
@[simp] theorem Decoder.setIpos_input (n : Nat) (d : Decoder) : (d.setIpos n).input = d.input := rfl
@[simp] theorem Decoder.setIpos_ipos (n : Nat) (d : Decoder) : (d.setIpos n).ipos = n := rfl
@[simp] theorem Decoder.setIpos_opix (n : Nat) (d : Decoder) : (d.setIpos n).opix = d.opix := rfl
@[simp] theorem Decoder.setIpos_regs (n : Nat) (d : Decoder) : (d.setIpos n).regs = d.regs := rfl
@[simp] theorem Decoder.setIpos_prev (n : Nat) (d : Decoder) : (d.setIpos n).prev = d.prev := rfl
@[simp] theorem Decoder.setIpos_cache (n : Nat) (d : Decoder) : (d.setIpos n).cache = d.cache := rfl
@[simp] theorem Decoder.setIpos_pix (n : Nat) (d : Decoder) : (d.setIpos n).pix = d.pix := rfl
@[simp] theorem Decoder.setIpos_trail (n : Nat) (d : Decoder) : (d.setIpos n).trail = d.trail := rfl
@[simp] theorem Decoder.setIpos_hist (n : Nat) (d : Decoder) : (d.setIpos n).hist = d.hist := rfl
@[simp] theorem Decoder.setIpos_endTagPresent (n : Nat) (d : Decoder) :
    (d.setIpos n).endTagPresent = d.endTagPresent := rfl
@[simp] theorem Decoder.setIpos_done (n : Nat) (d : Decoder) : (d.setIpos n).done = d.done := rfl
@[simp] theorem Decoder.setIpos_error (n : Nat) (d : Decoder) : (d.setIpos n).error = d.error := rfl
@[simp] theorem Decoder.setIpos_cause (n : Nat) (d : Decoder) : (d.setIpos n).cause = d.cause := rfl
@[simp] theorem Decoder.setIpos_count (n : Nat) (d : Decoder) : (d.setIpos n).count = d.count := rfl
@[simp] theorem Decoder.setIpos_pixelDataByteLength (n : Nat) (d : Decoder) :
    (d.setIpos n).pixelDataByteLength = d.pixelDataByteLength := rfl
@[simp] theorem Decoder.setIpos_hdr (n : Nat) (d : Decoder) : (d.setIpos n).hdr = d.hdr := rfl
@[simp] theorem Decoder.setIpos_tag (n : Nat) (d : Decoder) : (d.setIpos n).tag = d.tag := rfl
@[simp] theorem Decoder.setIpos_args (n : Nat) (d : Decoder) : (d.setIpos n).args = d.args := rfl
@[simp] theorem Decoder.setIpos_need (n : Nat) (d : Decoder) : (d.setIpos n).need = d.need := rfl
@[simp] theorem Decoder.setIpos_matched (n : Nat) (d : Decoder) : (d.setIpos n).matched = d.matched := rfl
@[simp] theorem Decoder.setIpos_runLeft (n : Nat) (d : Decoder) : (d.setIpos n).runLeft = d.runLeft := rfl

@[simp] theorem Decoder.openChunk_opts (t : Byte) (d : Decoder) : (d.openChunk t).opts = d.opts := rfl
@[simp] theorem Decoder.openChunk_serialPort (t : Byte) (d : Decoder) : (d.openChunk t).serialPort = d.serialPort := rfl
@[simp] theorem Decoder.openChunk_phase (t : Byte) (d : Decoder) : (d.openChunk t).phase = .args := rfl
@[simp] theorem Decoder.openChunk_input (t : Byte) (d : Decoder) : (d.openChunk t).input = d.input := rfl
@[simp] theorem Decoder.openChunk_ipos (t : Byte) (d : Decoder) : (d.openChunk t).ipos = d.ipos := rfl
@[simp] theorem Decoder.openChunk_opix (t : Byte) (d : Decoder) : (d.openChunk t).opix = d.opix := rfl
@[simp] theorem Decoder.openChunk_regs (t : Byte) (d : Decoder) : (d.openChunk t).regs = d.regs := rfl
@[simp] theorem Decoder.openChunk_prev (t : Byte) (d : Decoder) : (d.openChunk t).prev = d.prev := rfl
@[simp] theorem Decoder.openChunk_cache (t : Byte) (d : Decoder) : (d.openChunk t).cache = d.cache := rfl
@[simp] theorem Decoder.openChunk_pix (t : Byte) (d : Decoder) : (d.openChunk t).pix = d.pix := rfl
@[simp] theorem Decoder.openChunk_trail (t : Byte) (d : Decoder) : (d.openChunk t).trail = d.trail := rfl
@[simp] theorem Decoder.openChunk_hist (t : Byte) (d : Decoder) : (d.openChunk t).hist = d.hist := rfl
@[simp] theorem Decoder.openChunk_endTagPresent (t : Byte) (d : Decoder) :
    (d.openChunk t).endTagPresent = d.endTagPresent := rfl
@[simp] theorem Decoder.openChunk_done (t : Byte) (d : Decoder) : (d.openChunk t).done = d.done := rfl
@[simp] theorem Decoder.openChunk_error (t : Byte) (d : Decoder) : (d.openChunk t).error = d.error := rfl
@[simp] theorem Decoder.openChunk_cause (t : Byte) (d : Decoder) : (d.openChunk t).cause = d.cause := rfl
@[simp] theorem Decoder.openChunk_count (t : Byte) (d : Decoder) : (d.openChunk t).count = d.count := rfl
@[simp] theorem Decoder.openChunk_pixelDataByteLength (t : Byte) (d : Decoder) :
    (d.openChunk t).pixelDataByteLength = d.pixelDataByteLength := rfl
@[simp] theorem Decoder.openChunk_hdr (t : Byte) (d : Decoder) : (d.openChunk t).hdr = d.hdr := rfl
@[simp] theorem Decoder.openChunk_tag (t : Byte) (d : Decoder) : (d.openChunk t).tag = t := rfl
@[simp] theorem Decoder.openChunk_args (t : Byte) (d : Decoder) : (d.openChunk t).args = [] := rfl
@[simp] theorem Decoder.openChunk_need (t : Byte) (d : Decoder) : (d.openChunk t).need = continuationBytes t := rfl
@[simp] theorem Decoder.openChunk_matched (t : Byte) (d : Decoder) : (d.openChunk t).matched = d.matched := rfl
@[simp] theorem Decoder.openChunk_runLeft (t : Byte) (d : Decoder) : (d.openChunk t).runLeft = d.runLeft := rfl

@[simp] theorem Decoder.pushArg_opts (b : Byte) (d : Decoder) : (d.pushArg b).opts = d.opts := rfl
@[simp] theorem Decoder.pushArg_serialPort (b : Byte) (d : Decoder) : (d.pushArg b).serialPort = d.serialPort := rfl
@[simp] theorem Decoder.pushArg_phase (b : Byte) (d : Decoder) : (d.pushArg b).phase = d.phase := rfl
@[simp] theorem Decoder.pushArg_input (b : Byte) (d : Decoder) : (d.pushArg b).input = d.input := rfl
@[simp] theorem Decoder.pushArg_ipos (b : Byte) (d : Decoder) : (d.pushArg b).ipos = d.ipos + 1 := rfl
@[simp] theorem Decoder.pushArg_opix (b : Byte) (d : Decoder) : (d.pushArg b).opix = d.opix := rfl
@[simp] theorem Decoder.pushArg_regs (b : Byte) (d : Decoder) : (d.pushArg b).regs = d.regs := rfl
@[simp] theorem Decoder.pushArg_prev (b : Byte) (d : Decoder) : (d.pushArg b).prev = d.prev := rfl
@[simp] theorem Decoder.pushArg_cache (b : Byte) (d : Decoder) : (d.pushArg b).cache = d.cache := rfl
@[simp] theorem Decoder.pushArg_pix (b : Byte) (d : Decoder) : (d.pushArg b).pix = d.pix := rfl
@[simp] theorem Decoder.pushArg_trail (b : Byte) (d : Decoder) : (d.pushArg b).trail = d.trail := rfl
@[simp] theorem Decoder.pushArg_hist (b : Byte) (d : Decoder) : (d.pushArg b).hist = d.hist := rfl
@[simp] theorem Decoder.pushArg_endTagPresent (b : Byte) (d : Decoder) :
    (d.pushArg b).endTagPresent = d.endTagPresent := rfl
@[simp] theorem Decoder.pushArg_done (b : Byte) (d : Decoder) : (d.pushArg b).done = d.done := rfl
@[simp] theorem Decoder.pushArg_error (b : Byte) (d : Decoder) : (d.pushArg b).error = d.error := rfl
@[simp] theorem Decoder.pushArg_cause (b : Byte) (d : Decoder) : (d.pushArg b).cause = d.cause := rfl
@[simp] theorem Decoder.pushArg_count (b : Byte) (d : Decoder) : (d.pushArg b).count = d.count := rfl
@[simp] theorem Decoder.pushArg_pixelDataByteLength (b : Byte) (d : Decoder) :
    (d.pushArg b).pixelDataByteLength = d.pixelDataByteLength + 1 := rfl
@[simp] theorem Decoder.pushArg_hdr (b : Byte) (d : Decoder) : (d.pushArg b).hdr = d.hdr := rfl
@[simp] theorem Decoder.pushArg_tag (b : Byte) (d : Decoder) : (d.pushArg b).tag = d.tag := rfl
@[simp] theorem Decoder.pushArg_args (b : Byte) (d : Decoder) : (d.pushArg b).args = d.args ++ [b] := rfl
@[simp] theorem Decoder.pushArg_need (b : Byte) (d : Decoder) : (d.pushArg b).need = d.need := rfl
@[simp] theorem Decoder.pushArg_matched (b : Byte) (d : Decoder) : (d.pushArg b).matched = d.matched := rfl
@[simp] theorem Decoder.pushArg_runLeft (b : Byte) (d : Decoder) : (d.pushArg b).runLeft = d.runLeft := rfl

@[simp] theorem Decoder.pushTrail_opts (bytes : List Byte) (d : Decoder) : (d.pushTrail bytes).opts = d.opts := rfl
@[simp] theorem Decoder.pushTrail_serialPort (bytes : List Byte) (d : Decoder) :
    (d.pushTrail bytes).serialPort = d.serialPort := rfl
@[simp] theorem Decoder.pushTrail_phase (bytes : List Byte) (d : Decoder) : (d.pushTrail bytes).phase = d.phase := rfl
@[simp] theorem Decoder.pushTrail_input (bytes : List Byte) (d : Decoder) : (d.pushTrail bytes).input = d.input := rfl
@[simp] theorem Decoder.pushTrail_ipos (bytes : List Byte) (d : Decoder) : (d.pushTrail bytes).ipos = d.ipos := rfl
@[simp] theorem Decoder.pushTrail_opix (bytes : List Byte) (d : Decoder) : (d.pushTrail bytes).opix = d.opix := rfl
@[simp] theorem Decoder.pushTrail_regs (bytes : List Byte) (d : Decoder) : (d.pushTrail bytes).regs = d.regs := rfl
@[simp] theorem Decoder.pushTrail_prev (bytes : List Byte) (d : Decoder) : (d.pushTrail bytes).prev = d.prev := rfl
@[simp] theorem Decoder.pushTrail_cache (bytes : List Byte) (d : Decoder) : (d.pushTrail bytes).cache = d.cache := rfl
@[simp] theorem Decoder.pushTrail_pix (bytes : List Byte) (d : Decoder) : (d.pushTrail bytes).pix = d.pix := rfl
@[simp] theorem Decoder.pushTrail_trail (bytes : List Byte) (d : Decoder) :
    (d.pushTrail bytes).trail = d.trail ++ bytes := rfl
@[simp] theorem Decoder.pushTrail_hist (bytes : List Byte) (d : Decoder) : (d.pushTrail bytes).hist = d.hist := rfl
@[simp] theorem Decoder.pushTrail_endTagPresent (bytes : List Byte) (d : Decoder) :
    (d.pushTrail bytes).endTagPresent = d.endTagPresent := rfl
@[simp] theorem Decoder.pushTrail_done (bytes : List Byte) (d : Decoder) : (d.pushTrail bytes).done = d.done := rfl
@[simp] theorem Decoder.pushTrail_error (bytes : List Byte) (d : Decoder) : (d.pushTrail bytes).error = d.error := rfl
@[simp] theorem Decoder.pushTrail_cause (bytes : List Byte) (d : Decoder) : (d.pushTrail bytes).cause = d.cause := rfl
@[simp] theorem Decoder.pushTrail_count (bytes : List Byte) (d : Decoder) : (d.pushTrail bytes).count = d.count := rfl
@[simp] theorem Decoder.pushTrail_pixelDataByteLength (bytes : List Byte) (d : Decoder) :
    (d.pushTrail bytes).pixelDataByteLength = d.pixelDataByteLength := rfl
@[simp] theorem Decoder.pushTrail_hdr (bytes : List Byte) (d : Decoder) : (d.pushTrail bytes).hdr = d.hdr := rfl
@[simp] theorem Decoder.pushTrail_tag (bytes : List Byte) (d : Decoder) : (d.pushTrail bytes).tag = d.tag := rfl
@[simp] theorem Decoder.pushTrail_args (bytes : List Byte) (d : Decoder) : (d.pushTrail bytes).args = d.args := rfl
@[simp] theorem Decoder.pushTrail_need (bytes : List Byte) (d : Decoder) : (d.pushTrail bytes).need = d.need := rfl
@[simp] theorem Decoder.pushTrail_matched (bytes : List Byte) (d : Decoder) :
    (d.pushTrail bytes).matched = d.matched := rfl
@[simp] theorem Decoder.pushTrail_runLeft (bytes : List Byte) (d : Decoder) :
    (d.pushTrail bytes).runLeft = d.runLeft := rfl

@[simp] theorem Decoder.setRunLeft_opts (n : Nat) (d : Decoder) : (d.setRunLeft n).opts = d.opts := rfl
@[simp] theorem Decoder.setRunLeft_serialPort (n : Nat) (d : Decoder) : (d.setRunLeft n).serialPort = d.serialPort := rfl
@[simp] theorem Decoder.setRunLeft_phase (n : Nat) (d : Decoder) : (d.setRunLeft n).phase = d.phase := rfl
@[simp] theorem Decoder.setRunLeft_input (n : Nat) (d : Decoder) : (d.setRunLeft n).input = d.input := rfl
@[simp] theorem Decoder.setRunLeft_ipos (n : Nat) (d : Decoder) : (d.setRunLeft n).ipos = d.ipos := rfl
@[simp] theorem Decoder.setRunLeft_opix (n : Nat) (d : Decoder) : (d.setRunLeft n).opix = d.opix := rfl
@[simp] theorem Decoder.setRunLeft_regs (n : Nat) (d : Decoder) : (d.setRunLeft n).regs = d.regs := rfl
@[simp] theorem Decoder.setRunLeft_prev (n : Nat) (d : Decoder) : (d.setRunLeft n).prev = d.prev := rfl
@[simp] theorem Decoder.setRunLeft_cache (n : Nat) (d : Decoder) : (d.setRunLeft n).cache = d.cache := rfl
@[simp] theorem Decoder.setRunLeft_pix (n : Nat) (d : Decoder) : (d.setRunLeft n).pix = d.pix := rfl
@[simp] theorem Decoder.setRunLeft_trail (n : Nat) (d : Decoder) : (d.setRunLeft n).trail = d.trail := rfl
@[simp] theorem Decoder.setRunLeft_hist (n : Nat) (d : Decoder) : (d.setRunLeft n).hist = d.hist := rfl
@[simp] theorem Decoder.setRunLeft_endTagPresent (n : Nat) (d : Decoder) :
    (d.setRunLeft n).endTagPresent = d.endTagPresent := rfl
@[simp] theorem Decoder.setRunLeft_done (n : Nat) (d : Decoder) : (d.setRunLeft n).done = d.done := rfl
@[simp] theorem Decoder.setRunLeft_error (n : Nat) (d : Decoder) : (d.setRunLeft n).error = d.error := rfl
@[simp] theorem Decoder.setRunLeft_cause (n : Nat) (d : Decoder) : (d.setRunLeft n).cause = d.cause := rfl
@[simp] theorem Decoder.setRunLeft_count (n : Nat) (d : Decoder) : (d.setRunLeft n).count = d.count := rfl
@[simp] theorem Decoder.setRunLeft_pixelDataByteLength (n : Nat) (d : Decoder) :
    (d.setRunLeft n).pixelDataByteLength = d.pixelDataByteLength := rfl
@[simp] theorem Decoder.setRunLeft_hdr (n : Nat) (d : Decoder) : (d.setRunLeft n).hdr = d.hdr := rfl
@[simp] theorem Decoder.setRunLeft_tag (n : Nat) (d : Decoder) : (d.setRunLeft n).tag = d.tag := rfl
@[simp] theorem Decoder.setRunLeft_args (n : Nat) (d : Decoder) : (d.setRunLeft n).args = d.args := rfl
@[simp] theorem Decoder.setRunLeft_need (n : Nat) (d : Decoder) : (d.setRunLeft n).need = d.need := rfl
@[simp] theorem Decoder.setRunLeft_matched (n : Nat) (d : Decoder) : (d.setRunLeft n).matched = d.matched := rfl
@[simp] theorem Decoder.setRunLeft_runLeft (n : Nat) (d : Decoder) : (d.setRunLeft n).runLeft = n := rfl

/-! ## The encoder -/

/-- `npix` is computed from the header registers (R25). -/
@[simp] theorem Encoder.npix_eq (e : Encoder) : e.npix = e.regs.npix := rfl

@[simp] theorem Encoder.emit_opts (bytes : List Byte) (e : Encoder) : (e.emit bytes).opts = e.opts := rfl
@[simp] theorem Encoder.emit_phase (bytes : List Byte) (e : Encoder) : (e.emit bytes).phase = e.phase := rfl
@[simp] theorem Encoder.emit_regs (bytes : List Byte) (e : Encoder) : (e.emit bytes).regs = e.regs := rfl
@[simp] theorem Encoder.emit_pixels (bytes : List Byte) (e : Encoder) : (e.emit bytes).pixels = e.pixels := rfl
@[simp] theorem Encoder.emit_trailing (bytes : List Byte) (e : Encoder) : (e.emit bytes).trailing = e.trailing := rfl
@[simp] theorem Encoder.emit_i (bytes : List Byte) (e : Encoder) : (e.emit bytes).i = e.i := rfl
@[simp] theorem Encoder.emit_opos (bytes : List Byte) (e : Encoder) : (e.emit bytes).opos = e.opos + bytes.length := rfl
@[simp] theorem Encoder.emit_prev (bytes : List Byte) (e : Encoder) : (e.emit bytes).prev = e.prev := rfl
@[simp] theorem Encoder.emit_cache (bytes : List Byte) (e : Encoder) : (e.emit bytes).cache = e.cache := rfl
@[simp] theorem Encoder.emit_run (bytes : List Byte) (e : Encoder) : (e.emit bytes).run = e.run := rfl
@[simp] theorem Encoder.emit_out (bytes : List Byte) (e : Encoder) : (e.emit bytes).out = e.out ++ bytes := rfl
@[simp] theorem Encoder.emit_done (bytes : List Byte) (e : Encoder) : (e.emit bytes).done = e.done := rfl

@[simp] theorem Encoder.emitItem_opts (i : Instr) (e : Encoder) : (e.emitItem i).opts = e.opts := rfl
@[simp] theorem Encoder.emitItem_phase (i : Instr) (e : Encoder) : (e.emitItem i).phase = e.phase := rfl
@[simp] theorem Encoder.emitItem_regs (i : Instr) (e : Encoder) : (e.emitItem i).regs = e.regs := rfl
@[simp] theorem Encoder.emitItem_pixels (i : Instr) (e : Encoder) : (e.emitItem i).pixels = e.pixels := rfl
@[simp] theorem Encoder.emitItem_trailing (i : Instr) (e : Encoder) : (e.emitItem i).trailing = e.trailing := rfl
@[simp] theorem Encoder.emitItem_i (i : Instr) (e : Encoder) : (e.emitItem i).i = e.i := rfl
@[simp] theorem Encoder.emitItem_opos (i : Instr) (e : Encoder) : (e.emitItem i).opos = e.opos + (encode i).length := rfl
@[simp] theorem Encoder.emitItem_prev (i : Instr) (e : Encoder) : (e.emitItem i).prev = e.prev := rfl
@[simp] theorem Encoder.emitItem_cache (i : Instr) (e : Encoder) : (e.emitItem i).cache = e.cache := rfl
@[simp] theorem Encoder.emitItem_run (i : Instr) (e : Encoder) : (e.emitItem i).run = e.run := rfl
@[simp] theorem Encoder.emitItem_out (i : Instr) (e : Encoder) : (e.emitItem i).out = e.out ++ encode i := rfl
@[simp] theorem Encoder.emitItem_done (i : Instr) (e : Encoder) : (e.emitItem i).done = e.done := rfl

@[simp] theorem Encoder.commitPixel_opts (p : Pixel) (e : Encoder) : (e.commitPixel p).opts = e.opts := rfl
@[simp] theorem Encoder.commitPixel_phase (p : Pixel) (e : Encoder) : (e.commitPixel p).phase = e.phase := rfl
@[simp] theorem Encoder.commitPixel_regs (p : Pixel) (e : Encoder) : (e.commitPixel p).regs = e.regs := rfl
@[simp] theorem Encoder.commitPixel_pixels (p : Pixel) (e : Encoder) : (e.commitPixel p).pixels = e.pixels := rfl
@[simp] theorem Encoder.commitPixel_trailing (p : Pixel) (e : Encoder) : (e.commitPixel p).trailing = e.trailing := rfl
@[simp] theorem Encoder.commitPixel_i (p : Pixel) (e : Encoder) : (e.commitPixel p).i = e.i := rfl
@[simp] theorem Encoder.commitPixel_opos (p : Pixel) (e : Encoder) : (e.commitPixel p).opos = e.opos := rfl
@[simp] theorem Encoder.commitPixel_prev (p : Pixel) (e : Encoder) : (e.commitPixel p).prev = p := rfl
@[simp] theorem Encoder.commitPixel_cache (p : Pixel) (e : Encoder) : (e.commitPixel p).cache = e.cache.update p := rfl
@[simp] theorem Encoder.commitPixel_run (p : Pixel) (e : Encoder) : (e.commitPixel p).run = e.run := rfl
@[simp] theorem Encoder.commitPixel_out (p : Pixel) (e : Encoder) : (e.commitPixel p).out = e.out := rfl
@[simp] theorem Encoder.commitPixel_done (p : Pixel) (e : Encoder) : (e.commitPixel p).done = e.done := rfl

@[simp] theorem Encoder.finish_opts (e : Encoder) : (e.finish).opts = e.opts := rfl
@[simp] theorem Encoder.finish_phase (e : Encoder) : (e.finish).phase = .done := rfl
@[simp] theorem Encoder.finish_regs (e : Encoder) : (e.finish).regs = e.regs := rfl
@[simp] theorem Encoder.finish_pixels (e : Encoder) : (e.finish).pixels = e.pixels := rfl
@[simp] theorem Encoder.finish_trailing (e : Encoder) : (e.finish).trailing = e.trailing := rfl
@[simp] theorem Encoder.finish_i (e : Encoder) : (e.finish).i = e.i := rfl
@[simp] theorem Encoder.finish_opos (e : Encoder) : (e.finish).opos = e.opos := rfl
@[simp] theorem Encoder.finish_prev (e : Encoder) : (e.finish).prev = e.prev := rfl
@[simp] theorem Encoder.finish_cache (e : Encoder) : (e.finish).cache = e.cache := rfl
@[simp] theorem Encoder.finish_run (e : Encoder) : (e.finish).run = e.run := rfl
@[simp] theorem Encoder.finish_out (e : Encoder) : (e.finish).out = e.out := rfl
@[simp] theorem Encoder.finish_done (e : Encoder) : (e.finish).done = true := rfl

@[simp] theorem Encoder.goTo_opts (p : EncoderPhase) (e : Encoder) : (e.goTo p).opts = e.opts := rfl
@[simp] theorem Encoder.goTo_phase (p : EncoderPhase) (e : Encoder) : (e.goTo p).phase = p := rfl
@[simp] theorem Encoder.goTo_regs (p : EncoderPhase) (e : Encoder) : (e.goTo p).regs = e.regs := rfl
@[simp] theorem Encoder.goTo_pixels (p : EncoderPhase) (e : Encoder) : (e.goTo p).pixels = e.pixels := rfl
@[simp] theorem Encoder.goTo_trailing (p : EncoderPhase) (e : Encoder) : (e.goTo p).trailing = e.trailing := rfl
@[simp] theorem Encoder.goTo_i (p : EncoderPhase) (e : Encoder) : (e.goTo p).i = e.i := rfl
@[simp] theorem Encoder.goTo_opos (p : EncoderPhase) (e : Encoder) : (e.goTo p).opos = e.opos := rfl
@[simp] theorem Encoder.goTo_prev (p : EncoderPhase) (e : Encoder) : (e.goTo p).prev = e.prev := rfl
@[simp] theorem Encoder.goTo_cache (p : EncoderPhase) (e : Encoder) : (e.goTo p).cache = e.cache := rfl
@[simp] theorem Encoder.goTo_run (p : EncoderPhase) (e : Encoder) : (e.goTo p).run = e.run := rfl
@[simp] theorem Encoder.goTo_out (p : EncoderPhase) (e : Encoder) : (e.goTo p).out = e.out := rfl
@[simp] theorem Encoder.goTo_done (p : EncoderPhase) (e : Encoder) : (e.goTo p).done = e.done := rfl

@[simp] theorem Encoder.setRun_opts (n : Nat) (e : Encoder) : (e.setRun n).opts = e.opts := rfl
@[simp] theorem Encoder.setRun_phase (n : Nat) (e : Encoder) : (e.setRun n).phase = e.phase := rfl
@[simp] theorem Encoder.setRun_regs (n : Nat) (e : Encoder) : (e.setRun n).regs = e.regs := rfl
@[simp] theorem Encoder.setRun_pixels (n : Nat) (e : Encoder) : (e.setRun n).pixels = e.pixels := rfl
@[simp] theorem Encoder.setRun_trailing (n : Nat) (e : Encoder) : (e.setRun n).trailing = e.trailing := rfl
@[simp] theorem Encoder.setRun_i (n : Nat) (e : Encoder) : (e.setRun n).i = e.i := rfl
@[simp] theorem Encoder.setRun_opos (n : Nat) (e : Encoder) : (e.setRun n).opos = e.opos := rfl
@[simp] theorem Encoder.setRun_prev (n : Nat) (e : Encoder) : (e.setRun n).prev = e.prev := rfl
@[simp] theorem Encoder.setRun_cache (n : Nat) (e : Encoder) : (e.setRun n).cache = e.cache := rfl
@[simp] theorem Encoder.setRun_run (n : Nat) (e : Encoder) : (e.setRun n).run = n := rfl
@[simp] theorem Encoder.setRun_out (n : Nat) (e : Encoder) : (e.setRun n).out = e.out := rfl
@[simp] theorem Encoder.setRun_done (n : Nat) (e : Encoder) : (e.setRun n).done = e.done := rfl

@[simp] theorem Encoder.advance_opts (n : Nat) (e : Encoder) : (e.advance n).opts = e.opts := rfl
@[simp] theorem Encoder.advance_phase (n : Nat) (e : Encoder) : (e.advance n).phase = e.phase := rfl
@[simp] theorem Encoder.advance_regs (n : Nat) (e : Encoder) : (e.advance n).regs = e.regs := rfl
@[simp] theorem Encoder.advance_pixels (n : Nat) (e : Encoder) : (e.advance n).pixels = e.pixels := rfl
@[simp] theorem Encoder.advance_trailing (n : Nat) (e : Encoder) : (e.advance n).trailing = e.trailing := rfl
@[simp] theorem Encoder.advance_i (n : Nat) (e : Encoder) : (e.advance n).i = e.i + n := rfl
@[simp] theorem Encoder.advance_opos (n : Nat) (e : Encoder) : (e.advance n).opos = e.opos := rfl
@[simp] theorem Encoder.advance_prev (n : Nat) (e : Encoder) : (e.advance n).prev = e.prev := rfl
@[simp] theorem Encoder.advance_cache (n : Nat) (e : Encoder) : (e.advance n).cache = e.cache := rfl
@[simp] theorem Encoder.advance_run (n : Nat) (e : Encoder) : (e.advance n).run = e.run := rfl
@[simp] theorem Encoder.advance_out (n : Nat) (e : Encoder) : (e.advance n).out = e.out := rfl
@[simp] theorem Encoder.advance_done (n : Nat) (e : Encoder) : (e.advance n).done = e.done := rfl

end Sys2Proof.Machine
end

