-- ==== Sys2Proof/Laws/Cache.lean ====
section
/-! SUPPORT. What the operations of the color cache do (spec/40_cache.md). -/

namespace Sys2Proof.Machine

@[simp] theorem Cache.read_update_self (slots : Cache) (p : Pixel) : (slots.update p).read (hash p) = p := by
  simp [Cache.read, Cache.update]

theorem Cache.read_update_of_ne (slots : Cache) {p : Pixel} {k : BitVec 6} (h : hash p ≠ k) :
    (slots.update p).read k = slots.read k := by
  have h' : (hash p).toNat ≠ k.toNat := fun e => h (BitVec.eq_of_toNat_eq e)
  simp [Cache.read, Cache.update, h']

theorem Cache.read_update (slots : Cache) (p : Pixel) (k : BitVec 6) :
    (slots.update p).read k = if hash p = k then p else slots.read k := by
  split
  · next h => subst h; simp
  · next h => exact Cache.read_update_of_ne slots h

/-- Two caches that read alike are equal: there is nothing else in a cache. -/
theorem Cache.ext_read {a b : Cache} (h : ∀ k : BitVec 6, a.read k = b.read k) : a = b := by
  apply Vector.ext
  intro i hi
  have := h (BitVec.ofNat 6 i)
  simpa [Cache.read, Nat.mod_eq_of_lt hi] using this

/-- A repeated UPDATE of one pixel equals one (R139). -/
@[simp] theorem Cache.update_update (slots : Cache) (p : Pixel) : (slots.update p).update p = slots.update p := by
  apply Cache.ext_read
  intro k
  simp only [Cache.read_update]
  split <;> rfl

/-- An UPDATE of a pixel its slot already holds changes nothing (R139). -/
theorem Cache.update_of_hit (slots : Cache) {p : Pixel} (h : slots.read (hash p) = p) : slots.update p = slots := by
  apply Cache.ext_read
  intro k
  rw [Cache.read_update]
  split
  · next e => rw [← e, h]
  · rfl

@[simp] theorem Cache.read_cleared (k : BitVec 6) : Cache.cleared.read k = zeroPixel := by
  simp [Cache.read, Cache.cleared]

theorem Cache.read_initial (seed : Bool) (k : BitVec 6) :
    (Cache.initial seed).read k = if seed = true ∧ hash prevInit = k then prevInit else zeroPixel := by
  cases seed <;> simp [Cache.initial, Cache.seeded, Cache.read_update]

@[simp] theorem hash_prevInit : hash prevInit = 53#6 := by decide

@[simp] theorem hash_zeroPixel : hash zeroPixel = 0#6 := by decide

theorem Cache.DirectMapped.update {slots : Cache} (h : slots.DirectMapped) (p : Pixel) : (slots.update p).DirectMapped := by
  intro k
  rw [Cache.read_update]
  split
  · next e => exact .inr e
  · exact h k

theorem Cache.directMapped_initial (seed : Bool) : (Cache.initial seed).DirectMapped := by
  intro k
  rw [Cache.read_initial]
  split
  · next e => exact .inr e.2
  · exact .inl rfl

theorem Cache.hit_iff (slots : Cache) (p : Pixel) : slots.hit p = true ↔ slots.read (hash p) = p := by
  simp [Cache.hit]

end Sys2Proof.Machine
end

