-- ==== Sys2Proof/Laws/Commit.lean ====
section
/-! SUPPORT. What the decoder's commit does, said once (spec/41_decoder.md R163, spec/40_cache.md R139). -/

namespace Sys2Proof.Machine

/-- The colors put out for the pixels number k to k + n − 1 of a chunk. -/
def outColors (debugMode : Bool) (p : Pixel) (type : ChunkType) (k n : Nat) : List Pixel :=
  (List.range' k n).map (outColor debugMode p type)

@[simp] theorem outColors_length (debugMode : Bool) (p : Pixel) (type : ChunkType) (k n : Nat) :
    (outColors debugMode p type k n).length = n := by simp [outColors]

theorem outColors_of_not_debug (p : Pixel) (type : ChunkType) (k n : Nat) :
    outColors false p type k n = List.replicate n p := by
  apply List.ext_getElem <;> simp [outColors, outColor]

/-- The commit of `n` equal pixels, written out: the cache and `prev` change as for one of them, and each pixel has its own
output and its own snapshot. -/
theorem Decoder.commitPixels_eq (p : Pixel) (type : ChunkType) (k n : Nat) (d : Decoder) :
    d.commitPixels p type k n =
      { d with
        pix := d.pix ++ outColors d.opts.debugMode p type k n
        opix := d.opix + n
        cache := if n = 0 then d.cache else d.cache.update p
        prev := if n = 0 then d.prev else p
        hist := if d.opts.storeFullIndexHistory then d.hist ++ List.replicate n (d.cache.update p) else d.hist } := by
  induction n generalizing k d with
  | zero => cases d; simp [Decoder.commitPixels, outColors]
  | succ n ih =>
    rw [Decoder.commitPixels, ih]
    have hcolors : outColors d.opts.debugMode p type k (n + 1) =
        outColor d.opts.debugMode p type k :: outColors d.opts.debugMode p type (k + 1) n := by
      simp [outColors, List.range'_succ]
    have hcount : d.opix + 1 + n = d.opix + (n + 1) := by omega
    rcases n with _ | n
    · simp [Decoder.commitPixel, outColors]
    · by_cases hh : d.opts.storeFullIndexHistory = true <;>
        simp [Decoder.commitPixel, hcolors, hcount, hh, List.replicate_succ]

theorem Decoder.commit_eq (p : Pixel) (n : Nat) (type : ChunkType) (d : Decoder) :
    d.commit p (n + 1) type =
      { d with
        pix := d.pix ++ outColors d.opts.debugMode p type 0 (n + 1)
        opix := d.opix + (n + 1)
        cache := d.cache.update p
        prev := p
        hist := if d.opts.storeFullIndexHistory then d.hist ++ List.replicate (n + 1) (d.cache.update p) else d.hist
        count := d.count.bump type } := by
  simp [Decoder.commit, Decoder.commitPixels_eq, Decoder.countChunk]

/-- The commit of one pixel. -/
theorem Decoder.commit_one (p : Pixel) (type : ChunkType) (d : Decoder) :
    d.commit p 1 type =
      { d with
        pix := d.pix ++ [outColor d.opts.debugMode p type 0]
        opix := d.opix + 1
        cache := d.cache.update p
        prev := p
        hist := if d.opts.storeFullIndexHistory then d.hist ++ [d.cache.update p] else d.hist
        count := d.count.bump type } := rfl

end Sys2Proof.Machine
end

