-- ==== Sys2Proof/Laws/Decode.lean ====
section
/-! SUPPORT. Small facts about the bit fields and the dispatch of a tag byte (spec/30_encoding.md R93 to R100). -/

namespace Sys2Proof

@[simp] theorem dispatchTag_index (idx : BitVec 6) : dispatchTag (0b00#2 ++ idx) = .index := by decide +revert

@[simp] theorem dispatchTag_diff (r g b : BitVec 2) : dispatchTag (0b01#2 ++ r ++ g ++ b) = .diff := by decide +revert

@[simp] theorem dispatchTag_luma (g : BitVec 6) : dispatchTag (0b10#2 ++ g) = .luma := by decide +revert

theorem dispatchTag_run (n : BitVec 6) (h : n.toNat ≤ 61) : dispatchTag (0b11#2 ++ n) = .run := by decide +revert

@[simp] theorem dispatchTag_rgb : dispatchTag 0xFE#8 = .rgb := by decide

@[simp] theorem dispatchTag_rgba : dispatchTag 0xFF#8 = .rgba := by decide

@[simp] theorem low6_of_tag (t : BitVec 2) (f : BitVec 6) : BitVec.extractLsb' 0 6 (t ++ f : BitVec 8) = f := by decide +revert

@[simp] theorem diff_fields (r g b : BitVec 2) :
    BitVec.extractLsb' 4 2 (0b01#2 ++ r ++ g ++ b : BitVec 8) = r ∧
    BitVec.extractLsb' 2 2 (0b01#2 ++ r ++ g ++ b : BitVec 8) = g ∧
    BitVec.extractLsb' 0 2 (0b01#2 ++ r ++ g ++ b : BitVec 8) = b := by decide +revert

@[simp] theorem nibbles (hi lo : BitVec 4) :
    BitVec.extractLsb' 4 4 (hi ++ lo : BitVec 8) = hi ∧ BitVec.extractLsb' 0 4 (hi ++ lo : BitVec 8) = lo := by decide +revert

/-- The bytes of a big-endian word put together again (R68). -/
theorem be32_be32Bytes (w : U32) :
    be32 (w.extractLsb' 24 8) (w.extractLsb' 16 8) (w.extractLsb' 8 8) (w.extractLsb' 0 8) = w := by
  apply BitVec.eq_of_getLsbD_eq
  intro i hi
  simp only [be32, BitVec.getLsbD_append, BitVec.getLsbD_extractLsb']
  rcases Nat.lt_or_ge i 8 with h | h
  · simp [h]
  · rcases Nat.lt_or_ge i 16 with h2 | h2
    · simp [show ¬ i < 8 by omega, show i - 8 < 8 by omega]; congr 1; omega
    · rcases Nat.lt_or_ge i 24 with h3 | h3
      · simp [show ¬ i < 8 by omega, show ¬ i - 8 < 8 by omega, show i - 8 - 8 < 8 by omega]; congr 1; omega
      · simp [show ¬ i < 8 by omega, show ¬ i - 8 < 8 by omega, show ¬ i - 8 - 8 < 8 by omega, show i - 8 - 8 - 8 < 8 by omega]
        congr 1; omega

/-- A pixel survives its packing into a word (R71). -/
theorem Pixel.toWord_ofWord (w : BitVec 32) : (Pixel.ofWord w).toWord = w := be32_be32Bytes w

/-- The continuation bytes and the dispatch agree on the length of a chunk (R93). -/
theorem continuationBytes_eq (t : Byte) :
    continuationBytes t =
      match dispatchTag t with
      | .rgb => 3
      | .rgba => 4
      | .luma => 1
      | .index => 0
      | .diff => 0
      | .run => 0 := by decide +revert

end Sys2Proof
end

