-- ==== Sys2Proof/Laws/PerInstr.lean ====
section
/-! SUPPORT. Statements made for every item, one lemma per constructor of Instr. -/

namespace Sys2Proof.Laws

/-- The bytes of an item are as many as its length says (spec/30_encoding.md R91, R92, R93). -/
def EncodedLength.Statement (i : Instr) : Prop := (encode i).length = i.byteLength

theorem EncodedLength.rgb (r g b : Byte) : EncodedLength.Statement (.rgb r g b) := rfl

theorem EncodedLength.rgba (r g b a : Byte) : EncodedLength.Statement (.rgba r g b a) := rfl

theorem EncodedLength.index (idx : BitVec 6) : EncodedLength.Statement (.index idx) := rfl

theorem EncodedLength.diff (dr2 dg2 db2 : BitVec 2) : EncodedLength.Statement (.diff dr2 dg2 db2) := rfl

theorem EncodedLength.luma (dg32 : BitVec 6) (drg8 dbg8 : BitVec 4) : EncodedLength.Statement (.luma dg32 drg8 dbg8) := rfl

theorem EncodedLength.run (len1 : BitVec 6) : EncodedLength.Statement (.run len1) := rfl

theorem EncodedLength.header (width height : U32) (channels colorspace : Byte) :
    EncodedLength.Statement (.header width height channels colorspace) := rfl

theorem EncodedLength.endMarker : EncodedLength.Statement .endMarker := rfl

end Sys2Proof.Laws

namespace Sys2Proof

@[simp] theorem encode_length (i : Instr) : (encode i).length = i.byteLength := by cases i <;> rfl

/-- No chunk is longer than 5 bytes (R6 `WORST_BYTES_PER_PIXEL`, R93). -/
theorem chunk_byteLength (i : Instr) (type : ChunkType) (h : i.chunkType = some type) :
    1 ≤ i.byteLength ∧ i.byteLength ≤ 5 := by
  cases i <;> simp_all [Instr.chunkType, Instr.byteLength]

end Sys2Proof
end

