-- ==== Sys2Proof/Laws/Encoder.lean ====
section
/-! SUPPORT. What the encoder's selection, look-ahead and commit do (spec/42_encoder.md). -/

namespace Sys2Proof.Machine

theorem runAhead_le_limit (prev : Pixel) (limit : Nat) (ps : List Pixel) : runAhead prev limit ps ≤ limit := by
  induction limit generalizing ps with
  | zero => simp [runAhead]
  | succ n ih =>
    cases ps with
    | nil => simp [runAhead]
    | cons p ps =>
      simp only [runAhead]
      split
      · have := ih ps; omega
      · omega

theorem runAhead_le_length (prev : Pixel) (limit : Nat) (ps : List Pixel) : runAhead prev limit ps ≤ ps.length := by
  induction limit generalizing ps with
  | zero => simp [runAhead]
  | succ n ih =>
    cases ps with
    | nil => simp [runAhead]
    | cons p ps =>
      simp only [runAhead, List.length_cons]
      split
      · have := ih ps; omega
      · omega

/-- The pixels of a run all equal `prev`. -/
theorem take_runAhead (prev : Pixel) (limit : Nat) (ps : List Pixel) :
    ps.take (runAhead prev limit ps) = List.replicate (runAhead prev limit ps) prev := by
  induction limit generalizing ps with
  | zero => simp [runAhead]
  | succ n ih =>
    cases ps with
    | nil => simp [runAhead]
    | cons p ps =>
      simp only [runAhead]
      split
      · next h => simp [List.replicate_succ, h, ih ps]
      · simp

/-- A run that starts has at least its first pixel. -/
theorem runAhead_pos {prev : Pixel} {limit : Nat} (h : 0 < limit) (ps : List Pixel) :
    0 < runAhead prev limit (prev :: ps) := by
  obtain ⟨n, rfl⟩ := Nat.exists_eq_succ_of_ne_zero (Nat.pos_iff_ne_zero.mp h)
  simp [runAhead]

/-- The commit of a list of pixels, written out (R206). -/
theorem Encoder.commitPixels_eq (e : Encoder) (ps : List Pixel) :
    e.commitPixels ps = { e with cache := ps.foldl Cache.update e.cache, prev := ps.getLastD e.prev } := by
  induction ps generalizing e with
  | nil => rfl
  | cons p ps ih =>
    show (e.commitPixel p).commitPixels ps = _
    rw [ih]
    have hlast : ps.getLastD p = (p :: ps).getLastD e.prev := by simp [List.getLast?_cons]
    rw [← hlast]
    rfl

/-- Cases 2 to 7 choose a chunk, and never a run (R197). -/
theorem Encoder.selectSingle_type (e : Encoder) (c : Pixel) :
    ∃ type, (e.selectSingle c).chunkType = some type ∧ type ≠ .run := by
  unfold Encoder.selectSingle
  repeat' split
  all_goals exact ⟨_, rfl, by simp⟩

/-- What one turn of the pixel loop does (R193). -/
theorem Encoder.encodeChunk_eq {e e' : Encoder} (h : e.encodeChunk = some e') :
    ∃ c ahead, e.pixels.drop e.i = c :: ahead ∧
      e' = { e with
        out := e.out ++ encode (e.select c ahead)
        opos := e.opos + (e.select c ahead).byteLength
        cache := ((c :: ahead).take (e.covered c ahead)).foldl Cache.update e.cache
        prev := ((c :: ahead).take (e.covered c ahead)).getLastD e.prev
        i := e.i + (e.covered c ahead) } := by
  unfold Encoder.encodeChunk at h
  split at h
  · simp at h
  · next c ahead hd =>
    refine ⟨c, ahead, hd, ?_⟩
    simp only [Option.some.injEq] at h
    subst h
    simp only [Encoder.commitPixels_eq, Encoder.emitItem, Encoder.emit, Encoder.advance, encode_length]

end Sys2Proof.Machine
end

