-- ==== Sys2Proof/Laws/Exec.lean ====
section
/-! SUPPORT. What an item can do, and what one step can do, said once. -/

namespace Sys2Proof.Machine

/-- Every item runs, and acts on the decoder alone. -/
theorem exec_eq (i : Instr) (s : State) : exec i s = .next (s.setDec (itemEffect i s.dec)) := by cases i <;> rfl

/-- How a chunk ends: it commits one pixel, or a run's length of them, with the cursor past its bytes; or it is a run that
is longer than the pixels still expected and raises RUN_OVERRUN. -/
theorem itemEffect_chunk (i : Instr) (d : Decoder) (type : ChunkType) (h : i.chunkType = some type) :
    (∃ p n, itemEffect i d = (d.advance i.byteLength).commit p (n + 1) type ∧ (type ≠ .run → n = 0) ∧
      (type = .run → p = d.prev ∧ d.opix + (n + 1) ≤ d.npix)) ∨
    (type = .run ∧ itemEffect i d = d.raise .runOverrun) := by
  cases i with
  | rgb r g b => cases h; exact .inl ⟨⟨r, g, b, d.prev.a⟩, 0, rfl, by simp, by simp⟩
  | rgba r g b a => cases h; exact .inl ⟨⟨r, g, b, a⟩, 0, rfl, by simp, by simp⟩
  | index idx => cases h; exact .inl ⟨d.cache.read idx, 0, rfl, by simp, by simp⟩
  | diff r g b => cases h; exact .inl ⟨diffPixel r g b d.prev, 0, rfl, by simp, by simp⟩
  | luma g r b => cases h; exact .inl ⟨lumaPixel g r b d.prev, 0, rfl, by simp, by simp⟩
  | run len1 =>
    cases h
    by_cases hfit : d.opix + runLength len1 > d.npix
    · exact .inr ⟨rfl, if_pos hfit⟩
    · refine .inl ⟨d.prev, len1.toNat, if_neg hfit, by simp, fun _ => ⟨rfl, ?_⟩⟩
      simp only [runLength] at hfit
      omega
  | header w h' c s => simp [Instr.chunkType] at h
  | endMarker => simp [Instr.chunkType] at h

/-- HEADER's three ends (R151). -/
theorem headerEffect_cases (w h : U32) (c s : Byte) (d : Decoder) :
    (legalChannels c = false ∧
      headerEffect w h c s d = { d with regs := ⟨w, h, d.regs.channels, d.regs.colorspace⟩, error := true, cause := .badChannels, phase := .error }) ∨
    (legalChannels c = true ∧ legalColorspace s = false ∧
      headerEffect w h c s d = { d with regs := ⟨w, h, c, d.regs.colorspace⟩, error := true, cause := .badColorspace, phase := .error }) ∨
    (legalChannels c = true ∧ legalColorspace s = true ∧
      headerEffect w h c s d = { d with regs := ⟨w, h, c, s⟩, ipos := headerLen, phase := .tag }) := by
  cases hc : legalChannels c <;> cases hs : legalColorspace s <;> simp [headerEffect, hc, hs, Decoder.writeSize, Decoder.writeChannels, Decoder.writeColorspace, Decoder.raise]

/-- A step of a running decode pass that reads an item is that item's meaning. -/
theorem step_item {s : State} {i : Instr} (ha : s.agent = .decoder) (hn : s.dec.nextAction = .item i) : step s = exec i s := by
  simp [step, ha, decoderStep, hn]

/-- Every step of a running decode pass is the pass step of the decoder, until the pass rests. -/
theorem step_decoder {s : State} (ha : s.agent = .decoder) (hn : s.dec.nextAction ≠ .rest) :
    step s = .next (s.setDec s.dec.passStep) := by
  simp only [step, ha, decoderStep, Decoder.passStep]
  cases hd : s.dec.nextAction with
  | item i => exact exec_eq i s
  | rest => exact absurd hd hn
  | _ => rfl

end Sys2Proof.Machine
end

