-- ==== Sys2Proof/Laws/Memory.lean ====
section
/-! SUPPORT. Every operation that writes a stream keeps the streams in canonical form (spec/20_memory.md R61, R63, R66). -/

namespace Sys2Proof.Machine

theorem Memory.wf_iff (s : State) :
    Memory.wf s = true ↔ s.dec.pix.length = s.dec.opix ∧
      (s.dec.opts.storeFullIndexHistory = true → s.dec.hist.length = s.dec.opix) ∧
      (s.dec.opts.storeFullIndexHistory = false → s.dec.hist = []) ∧ s.enc.out.length = s.enc.opos := by
  cases h : s.dec.opts.storeFullIndexHistory <;> simp [Memory.wf, and_assoc, h]

theorem Memory.wf_reset : Memory.wf State.reset = true := by decide

theorem Memory.wf_commitPixel {s : State} (h : Memory.wf s = true) (p : Pixel) (type : ChunkType) (k : Nat) :
    Memory.wf (s.setDec (s.dec.commitPixel p type k)) = true := by
  rw [Memory.wf_iff] at h ⊢
  obtain ⟨h1, h2, h3, h4⟩ := h
  cases hs : s.dec.opts.storeFullIndexHistory <;> simp_all

theorem Memory.wf_itemEffect {s : State} (h : Memory.wf s = true) (i : Instr) :
    Memory.wf (s.setDec (itemEffect i s.dec)) = true := by
  rw [Memory.wf_iff] at h ⊢
  cases hi : i.chunkType with
  | some type =>
    rcases itemEffect_chunk i s.dec type hi with ⟨p, n, e, -⟩ | ⟨-, e⟩ <;> simp only [State.setDec_dec, State.setDec_enc, e]
    · cases hs : s.dec.opts.storeFullIndexHistory <;> simp_all [Decoder.commit_eq]
    · exact h
  | none =>
    cases i with
    | header w h' c cs =>
      rcases headerEffect_cases w h' c cs s.dec with ⟨-, e⟩ | ⟨-, -, e⟩ | ⟨-, -, e⟩ <;>
        simp only [State.setDec_dec, State.setDec_enc, itemEffect, e] <;> exact h
    | endMarker => exact h
    | _ => simp [Instr.chunkType] at hi

theorem Memory.wf_emit {s : State} (h : Memory.wf s = true) (bytes : List Byte) :
    Memory.wf (s.setEnc (s.enc.emit bytes)) = true := by
  rw [Memory.wf_iff] at h ⊢
  exact ⟨h.1, h.2.1, h.2.2.1, by simp [h.2.2.2]⟩

theorem Memory.wf_startDecode {s : State} (h : Memory.wf s = true) (o : DecoderOptions) (input : List Byte) (next : Agent) :
    Memory.wf (s.startDecode o input next) = true := by
  unfold State.startDecode
  split
  · rw [Memory.wf_iff] at h ⊢
    exact ⟨rfl, fun _ => rfl, fun _ => rfl, h.2.2.2⟩
  · exact h

theorem Memory.wf_startEncode {s : State} (h : Memory.wf s = true) (seed : Bool) (o : EncoderOptions) (regs : HeaderRegs)
    (pixels : List Pixel) (trailing : List Byte) :
    Memory.wf (s.setEnc (Encoder.start seed o regs pixels trailing)) = true := by
  rw [Memory.wf_iff] at h ⊢
  exact ⟨h.1, h.2.1, h.2.2.1, by simp [Encoder.start, Encoder.emitItem, Encoder.emit]⟩

end Sys2Proof.Machine
end

