-- ==== Sys2Proof/Tests/Slice0.lean ====
section
/-! SUPPORT. The model's own tests. Expected values come from the worked examples of the rules and from spec/95_test_vectors.md;
the witnesses at the end meet the hypotheses of the statements. -/

namespace Sys2Proof.Tests

open Sys2Proof Sys2Proof.Machine

/-! ## Helpers -/

/-- The state a step or a meaning answers, if it answers one. -/
def stateOf (o : Host.Outcome State Fault Refusal) : Option State :=
  match o with
  | .next s => some s
  | .fault _ => none
  | .refused _ => none

/-- The refusal a step answers, if it answers one. -/
def refusalOf (o : Host.Outcome State Fault Refusal) : Option Refusal :=
  match o with
  | .next _ => none
  | .fault _ => none
  | .refused r => some r

/-- A decode pass in its chunk loop: `opix` of `w` pixels are out, and `payload` follows the 14 header bytes. -/
def chunks (w opix : Nat) (payload : List Byte) (o : DecoderOptions := {}) (prev : Pixel := prevInit) : State :=
  { State.reset with
    agent := .decoder
    dec := { Decoder.reset with
      opts := o, phase := .tag, ipos := 14, opix := opix, pix := List.replicate opix prev, prev := prev
      regs := ⟨BitVec.ofNat 32 w, 1#32, 4#8, 0#8⟩
      input := encode (.header (BitVec.ofNat 32 w) 1#32 4#8 0#8) ++ payload } }

/-- A decode pass in a phase at a position of an input. -/
def passAt (phase : DecoderPhase) (ipos : Nat) (input : List Byte) (o : DecoderOptions := {}) : State :=
  { State.reset with
    agent := .decoder
    dec := { Decoder.reset with opts := o, phase := phase, ipos := ipos, input := input, regs := ⟨0#32, 0#32, 4#8, 0#8⟩ } }

/-- The host's turn, with events pending and a decoder in a phase. -/
def hostTurn (events : List Event) (phase : DecoderPhase := .idle) : State :=
  { State.reset with
    pending := events
    dec := { Decoder.reset with phase := phase, regs := ⟨2#32, 1#32, 4#8, 0#8⟩ } }

/-- The host's turn, with events pending and an encoder in a phase. -/
def encoderTurn (events : List Event) (phase : EncoderPhase) : State :=
  { State.reset with
    pending := events
    enc := { Encoder.reset with phase := phase, regs := ⟨2#32, 1#32, 4#8, 0#8⟩ } }

/-- The host's turn before a decoder in ARGS, with the tag and the continuation bytes collected so far. -/
def argsTurn (events : List Event) (tag : Byte) (args : List Byte) : State :=
  { State.reset with
    pending := events
    dec := { Decoder.reset with phase := .args, tag := tag, need := continuationBytes tag, args := args } }

/-- The host's turn before a decoder on a serial port with a run in transfer. -/
def runTurn (tag : Byte) (runLeft : Nat) : State :=
  { State.reset with
    dec := { Decoder.reset with
      serialPort := true, phase := .tag, tag := tag, runLeft := runLeft, regs := ⟨62#32, 1#32, 4#8, 0#8⟩ } }

/-- An encode pass over an image one pixel high. -/
def encoding (pixels : List Pixel) (phase : EncoderPhase := .pixels) (o : EncoderOptions := {}) : State :=
  { State.reset with
    agent := .encoder
    enc := { Encoder.reset with
      opts := o, phase := phase, regs := ⟨BitVec.ofNat 32 pixels.length, 1#32, 4#8, 0#8⟩, pixels := pixels } }

/-- A valid image one pixel high. -/
def image (pixels : List Pixel) (trailing : List Byte := []) : Image :=
  ⟨⟨BitVec.ofNat 32 pixels.length, 1#32, 4#8, 0#8⟩, pixels, trailing⟩

/-! ## Well-formedness: one ill-formed item for each check -/

theorem test_run_63_is_ill_formed : WellFormed (.run 62#6) = false := by decide
theorem test_run_64_is_ill_formed : WellFormed (.run 63#6) = false := by decide
theorem test_run_62_is_well_formed : WellFormed (.run 61#6) = true := by decide
theorem test_channels_5_is_ill_formed : WellFormed (.header 1#32 1#32 5#8 0#8) = false := by decide
theorem test_colorspace_2_is_ill_formed : WellFormed (.header 1#32 1#32 3#8 2#8) = false := by decide
theorem test_header_is_well_formed : WellFormed (.header 0#32 1#32 3#8 1#8) = true := by decide

/-! ## Decoding: the words of the worked examples, written out bit by bit -/

/-- R157. -/
theorem test_decode_rgb : decodeChunk [0b11111110#8, 9#8, 8#8, 7#8, 0xFF#8] = .ok (.rgb 9#8 8#8 7#8, [0xFF#8]) := by decide
/-- R158. -/
theorem test_decode_rgba :
    decodeChunk [0b11111111#8, 0x0A#8, 0x14#8, 0x1E#8, 0x80#8] = .ok (.rgba 10#8 20#8 30#8 128#8, []) := by decide
/-- P2 of 95_test_vectors.md: 35 is INDEX 53. -/
theorem test_decode_index : decodeChunk [0b00110101#8] = .ok (.index 53#6, []) := by decide
/-- R201: 76 is DIFF 1,−1,0. -/
theorem test_decode_diff : decodeChunk [0b01110110#8] = .ok (.diff 3#2 1#2 2#2, []) := by decide
/-- R202: A5 C3 is LUMA 5,4,−5. -/
theorem test_decode_luma : decodeChunk [0b10100101#8, 0b11000011#8] = .ok (.luma 37#6 12#4 3#4, []) := by decide
/-- R100: C1 is a run of 2, FD of 62. -/
theorem test_decode_run :
    decodeChunk [0b11000001#8] = .ok (.run 1#6, []) ∧ decodeChunk [0b11111101#8] = .ok (.run 61#6, []) := by decide
/-- R151's worked example. -/
theorem test_decode_header :
    decodeHeader [0x71#8, 0x6F#8, 0x69#8, 0x66#8, 0#8, 0#8, 0#8, 5#8, 0#8, 0#8, 0#8, 1#8, 3#8, 1#8]
      = .ok (.header 5#32 1#32 3#8 1#8, []) := by decide
/-- R68: the first byte of a width is the most significant. -/
theorem test_header_is_big_endian :
    (headerFields [0x71#8, 0x6F#8, 0x69#8, 0x66#8, 1#8, 2#8, 3#8, 4#8, 0#8, 0#8, 1#8, 0#8, 4#8, 0#8]) =
      ⟨0x01020304#32, 256#32, 4#8, 0#8⟩ := by decide
/-- R92. -/
theorem test_decode_end : decodeMarker [0#8, 0#8, 0#8, 0#8, 0#8, 0#8, 0#8, 1#8, 9#8] = .ok (.endMarker, [9#8]) := by decide
/-- R108's notation, in P1 of 95_test_vectors.md. -/
theorem test_text : (Instr.luma 37#6 12#4 3#4).text = "LUMA 5,4,-5" ∧ (Instr.run 1#6).text = "RUN 2" := by decide
/-- R71. -/
theorem test_pixel_word : Pixel.toWord ⟨1#8, 2#8, 3#8, 4#8⟩ = 0x01020304#32 := by decide

/-! ## Meanings: the worked examples of the rules -/

/-- R157: prev = (1,2,3,77), FE 09 08 07 give (9,8,7,77). -/
theorem test_rgb_keeps_alpha :
    (stateOf (step (chunks 1 0 [0xFE#8, 9#8, 8#8, 7#8] {} ⟨1#8, 2#8, 3#8, 77#8⟩))).map (·.dec.prev)
      = some ⟨9#8, 8#8, 7#8, 77#8⟩ := by decide
/-- R165: FE 01 02 is truncated, and nothing is counted. -/
theorem test_rgb_truncated :
    (stateOf (step (chunks 1 0 [0xFE#8, 1#8, 2#8]))).map (fun s => (s.dec.cause, s.dec.count, s.dec.ipos))
      = some (.truncated, {}, 14) := by decide
/-- R158. -/
theorem test_rgba :
    (stateOf (step (chunks 1 0 [0xFF#8, 10#8, 20#8, 30#8, 128#8]))).map (fun s => (s.dec.pix, s.dec.ipos))
      = some ([⟨10#8, 20#8, 30#8, 128#8⟩], 19) := by decide
/-- R159: after RGBA 64,0,0,0, INDEX 5 of an empty slot overwrites slot 0 with (0,0,0,0). -/
theorem test_index_of_an_empty_slot :
    ((stateOf (step (chunks 2 0 [0xFF#8, 64#8, 0#8, 0#8, 0#8, 5#8]))).bind fun s => stateOf (step s)).map
      (fun s => (s.dec.prev, s.dec.cache.read 0#6)) = some (⟨0#8, 0#8, 0#8, 0#8⟩, ⟨0#8, 0#8, 0#8, 0#8⟩) := by decide
/-- R134: INDEX 53 gives the seed. -/
theorem test_index_of_the_seed :
    (stateOf (step (chunks 1 0 [0x35#8] {} ⟨7#8, 7#8, 7#8, 7#8⟩))).map (·.dec.prev) = some ⟨0#8, 0#8, 0#8, 255#8⟩ := by decide
/-- R160: from (0,0,0,255), 40 gives (254,254,254,255). -/
theorem test_diff_wraps_down :
    (stateOf (step (chunks 1 0 [0x40#8]))).map (·.dec.prev) = some ⟨254#8, 254#8, 254#8, 255#8⟩ := by decide
/-- R160: from (254,254,254,255), 7F gives (255,255,255,255). -/
theorem test_diff_up :
    (stateOf (step (chunks 1 0 [0x7F#8] {} ⟨254#8, 254#8, 254#8, 255#8⟩))).map (·.dec.prev)
      = some ⟨255#8, 255#8, 255#8, 255#8⟩ := by decide
/-- R161: from (255,255,255,255), 80 00 gives (215,223,215,255). -/
theorem test_luma :
    (stateOf (step (chunks 1 0 [0x80#8, 0#8] {} ⟨255#8, 255#8, 255#8, 255#8⟩))).map (fun s => (s.dec.prev, s.dec.ipos))
      = some (⟨215#8, 223#8, 215#8, 255#8⟩, 16) := by decide
/-- R162: C1 in a 2 × 1 image gives two pixels (0,0,0,255). -/
theorem test_run :
    (stateOf (step (chunks 2 0 [0xC1#8]))).map (fun s => (s.dec.pix, s.dec.count.run, s.dec.ipos))
      = some ([prevInit, prevInit], 1, 15) := by decide
/-- R164, P4: a run of 6 with 3 pixels still expected. -/
theorem test_run_overrun :
    (stateOf (step (chunks 4 1 [0xC5#8]))).map (fun s => (s.dec.cause, s.dec.opix, s.dec.phase, s.dec.done))
      = some (.runOverrun, 1, .error, false) := by decide
/-- R151. -/
theorem test_header :
    (stateOf (step (passAt .header 0 (encode (.header 5#32 1#32 3#8 1#8))))).map (fun s => (s.dec.regs, s.dec.npix, s.dec.ipos))
      = some (⟨5#32, 1#32, 3#8, 1#8⟩, 5, 14) := by decide
/-- R279: both enum bytes illegal report BAD_CHANNELS. -/
theorem test_header_bad_channels :
    (stateOf (step (passAt .header 0 (encode (.header 1#32 1#32 5#8 2#8))))).map (·.dec.cause) = some .badChannels := by decide
/-- R167: the marker is stripped. -/
theorem test_end :
    (stateOf (step (passAt .endMark 14 (encode (.header 0#32 0#32 4#8 0#8) ++ endMarkerBytes ++ [1#8])))).map
      (fun s => (s.dec.endTagPresent, s.dec.ipos, s.dec.phase)) = some (true, 22, .trailing) := by decide
/-- R167: seven marker bytes are none. -/
theorem test_end_absent :
    (stateOf (step (passAt .endMark 0 [0#8, 0#8, 0#8, 0#8, 0#8, 0#8, 0#8]))).map (·.dec.cause) = some .missingEndTag := by decide

/-! ## The hash, the encoder, a host's refusal -/

/-- R131's worked examples. -/
theorem test_hash :
    Machine.hash ⟨0#8, 0#8, 0#8, 255#8⟩ = 53#6 ∧ Machine.hash ⟨10#8, 20#8, 30#8, 255#8⟩ = 9#6 ∧
    Machine.hash ⟨255#8, 255#8, 255#8, 255#8⟩ = 38#6 := by decide
/-- R9's examples. -/
theorem test_sdelta :
    sdelta 0#8 255#8 = 1 ∧ sdelta 255#8 0#8 = -1 ∧ sdelta 128#8 0#8 = -128 ∧ add8 0#8 (-1) = 255#8 := by decide
/-- R196: relative deltas of −8 and 7 are representable; 8 is not. -/
theorem test_fits_luma :
    fitsLuma ⟨-40, -32, -25⟩ = true ∧ fitsLuma ⟨8, 0, 0⟩ = false ∧ fitsDiff ⟨-2, 1, 0⟩ = true ∧ fitsDiff ⟨0, 0, 2⟩ = false := by
  decide
/-- P3 of 95_test_vectors.md, as the pass writes it. -/
theorem test_encode :
    encodePass true {} ⟨⟨2#32, 2#32, 4#8, 0#8⟩, [prevInit, prevInit, ⟨1#8, 1#8, 1#8, 255#8⟩, prevInit], [0xDE#8, 0xAD#8]⟩ =
      some (encode (.header 2#32 2#32 4#8 0#8) ++ [0xC1#8, 0x7F#8, 0x35#8] ++ endMarkerBytes ++ [0xDE#8, 0xAD#8]) := by decide
/-- P5 of 95_test_vectors.md: without a marker all the remaining bytes are trailing data. -/
theorem test_decode_pass :
    decodePass true { requireEndTag := false }
      (encode (.header 2#32 1#32 4#8 0#8) ++ [0xFE#8, 0x0A#8, 0x14#8, 0x1E#8, 0xC0#8, 0xAB#8, 0xCD#8]) =
      some (.ok
        { image := ⟨⟨2#32, 1#32, 4#8, 0#8⟩, [⟨10#8, 20#8, 30#8, 255#8⟩, ⟨10#8, 20#8, 30#8, 255#8⟩], [0xAB#8, 0xCD#8]⟩
          endTagPresent := false, count := { rgb := 1, run := 1 }, pixelDataByteLength := 5, history := none }) := by decide
/-- P1's pixel-serial trace: the last two pixels are held back and flushed as C1. -/
theorem test_encode_pixel_serial :
    ((Encoder.feed true {} (image [⟨1#8, 1#8, 1#8, 255#8⟩, ⟨1#8, 1#8, 1#8, 255#8⟩, ⟨1#8, 1#8, 1#8, 255#8⟩])).out.drop 14) =
      [0x7F#8, 0xC1#8] ++ endMarkerBytes := by decide
/-- U6. -/
theorem test_encode_refused :
    refusalOf (step (hostTurn [.startEncode {} ⟨1#32, 1#32, 5#8, 0#8⟩ []])) = some .imageFieldIllegal := by decide
/-- The table word of INDEX 0 and of END, as the host numbers them. -/
theorem test_table_words :
    decodeTableWord 8 0x35 = some (.index 53#6) ∧ decodeTableWord 64 1 = some .endMarker ∧
    decodeTableWord 16 0xC3A5 = some (.luma 37#6 12#4 3#4) := by decide

/-! ## Witnesses: concrete states and operands that meet the hypotheses of the statements, clause by clause -/

theorem witness_PowerOnReset :
    Decoder.reset.serialPort = { Decoder.reset with ipos := 5, error := true }.serialPort := by decide

/-- Two hosts' turns that differ in what the last encode pass left, with the same valid image pending. -/
theorem witness_NoStateSurvivesAPass :
    (hostTurn [.encode {} (image [prevInit])]).agent = .host ∧ (hostTurn [.encode {} (image [prevInit])]).dec.runLeft = 0 ∧
    (hostTurn []).enc.startable = true ∧ { (hostTurn []).enc with phase := .done, run := 3 }.startable = true ∧
    (image [prevInit]).valid = true ∧
    (hostTurn [.encode {} (image [prevInit])]).pending = .encode {} (image [prevInit]) :: [] ∧
    (hostTurn [] .done).dec.phase = .done := by decide

/-- For each clause one state that meets all its hypotheses: every event pending before a block that takes it, every start before
a block that takes it and before one that does not, and no event. -/
theorem witness_HostEvents :
    (∀ ev ∈ [Event.byte 7#8, .eoi, .pixel prevInit],
      (hostTurn [ev]).agent = .host ∧ (hostTurn [ev]).dec.runLeft = 0 ∧ (hostTurn [ev]).pending = ev :: []) ∧
    (∀ ev ∈ [Event.startDecode {}, .decode {} [0x71#8]], ∀ ph ∈ [DecoderPhase.idle, .done, .error, .tag],
      (hostTurn [ev] ph).agent = .host ∧ (hostTurn [ev] ph).dec.runLeft = 0 ∧ (hostTurn [ev] ph).pending = ev :: [] ∧
      (hostTurn [ev] ph).dec.phase = ph) ∧
    (∀ ev ∈ [Event.startEncode {} (image [prevInit]).regs [1#8], .encode {} (image [prevInit])],
      ∀ ph ∈ [EncoderPhase.idle, .done, .pixels],
      (encoderTurn [ev] ph).agent = .host ∧ (encoderTurn [ev] ph).dec.runLeft = 0 ∧ (encoderTurn [ev] ph).pending = ev :: [] ∧
      (encoderTurn [ev] ph).enc.phase = ph) ∧
    fieldsLegal (image [prevInit]).regs = true ∧ (image [prevInit]).valid = true ∧
    (hostTurn []).agent = .host ∧ (hostTurn []).dec.runLeft = 0 ∧ (hostTurn []).pending = [] := by decide

theorem witness_ErrorIsSticky :
    (hostTurn [] .error).dec.phase = .error ∧ (hostTurn [] .idle).dec.phase = .idle ∧ (hostTurn [] .done).dec.phase = .done ∧
    (encoding [] .tail).enc.phase ≠ .pixels := by decide

theorem witness_ChannelArithmetic : (-128 : Int) ≤ -128 ∧ (-128 : Int) ≤ 127 ∧ add8 0#8 (-128) = 128#8 := by decide

theorem witness_HashOfAnyWidth :
    6 ≤ 6 ∧ (64#8 : Byte).toNat % 64 = (0#8 : Byte).toNat % 64 ∧ (255#8 : Byte).toNat % 64 = (63#8 : Byte).toNat % 64 := by decide

theorem witness_CommitOfARun : (Cache.initial true).read (Machine.hash prevInit) = prevInit := by decide

/-- An RGB tag with two bytes after it. -/
theorem witness_RgbResult :
    (chunks 1 0 [0xFE#8, 1#8, 2#8]).agent = .decoder ∧ (chunks 1 0 [0xFE#8, 1#8, 2#8]).dec.phase = .tag ∧
    (chunks 1 0 [0xFE#8, 1#8, 2#8]).dec.opix < (chunks 1 0 [0xFE#8, 1#8, 2#8]).dec.npix ∧
    (chunks 1 0 [0xFE#8, 1#8, 2#8]).dec.input.drop (chunks 1 0 [0xFE#8, 1#8, 2#8]).dec.ipos = 0xFE#8 :: [1#8, 2#8] ∧
    [1#8, 2#8].length < 3 := by decide

/-- An RGBA tag with three bytes after it. -/
theorem witness_RgbaResult :
    (chunks 1 0 [0xFF#8, 1#8, 2#8, 3#8]).agent = .decoder ∧ (chunks 1 0 [0xFF#8, 1#8, 2#8, 3#8]).dec.phase = .tag ∧
    (chunks 1 0 [0xFF#8, 1#8, 2#8, 3#8]).dec.opix < (chunks 1 0 [0xFF#8, 1#8, 2#8, 3#8]).dec.npix ∧
    (chunks 1 0 [0xFF#8, 1#8, 2#8, 3#8]).dec.input.drop (chunks 1 0 [0xFF#8, 1#8, 2#8, 3#8]).dec.ipos
      = 0xFF#8 :: [1#8, 2#8, 3#8] ∧ [1#8, 2#8, 3#8].length < 4 := by decide

/-- A LUMA tag with nothing after it. -/
theorem witness_LumaResult :
    (chunks 1 0 [0x80#8]).agent = .decoder ∧ (chunks 1 0 [0x80#8]).dec.phase = .tag ∧
    (chunks 1 0 [0x80#8]).dec.opix < (chunks 1 0 [0x80#8]).dec.npix ∧ (0x80#8 : Byte).extractLsb' 6 2 = 0b10#2 ∧
    (chunks 1 0 [0x80#8]).dec.input.drop (chunks 1 0 [0x80#8]).dec.ipos = [0x80#8] := by decide

/-- Runs of 62 in an image of 62 pixels and of one pixel more. -/
theorem witness_RunResult :
    (chunks 62 0 []).dec.opix + ((61#6 : BitVec 6).toNat + 1) ≤ (chunks 62 0 []).dec.npix ∧
    (chunks 62 1 []).dec.npix < (chunks 62 1 []).dec.opix + ((61#6 : BitVec 6).toNat + 1) := by decide

theorem witness_HeaderResult :
    ((3#8 : Byte) = 3#8 ∨ (3#8 : Byte) = 4#8) ∧ ((1#8 : Byte) = 0#8 ∨ (1#8 : Byte) = 1#8) ∧
    ¬ ((2#8 : Byte) = 3#8 ∨ (2#8 : Byte) = 4#8) ∧ ¬ ((2#8 : Byte) = 0#8 ∨ (2#8 : Byte) = 1#8) := by decide

/-- The first and the last tag byte of each row of R102, with and without their continuation bytes. -/
theorem witness_TagByteDecidesTheChunk :
    (0x3F#8 : Byte).toNat ≤ 0x3F ∧ 0x40 ≤ (0x40#8 : Byte).toNat ∧ (0x7F#8 : Byte).toNat ≤ 0x7F ∧ 0x80 ≤ (0x80#8 : Byte).toNat ∧
    (0xBF#8 : Byte).toNat ≤ 0xBF ∧ 0xC0 ≤ (0xC0#8 : Byte).toNat ∧ (0xFD#8 : Byte).toNat ≤ 0xFD ∧ (0xFE#8 : Byte).toNat = 0xFE ∧
    (0xFF#8 : Byte).toNat = 0xFF ∧ continuationBytes 0xFF#8 ≤ [1#8, 2#8, 3#8, 4#8].length ∧
    [1#8, 2#8, 3#8].length < continuationBytes 0xFF#8 := by decide

theorem witness_EncodeThenDecode : WellFormed (.run 61#6) = true ∧ WellFormed (.header 0#32 0xFFFFFFFF#32 3#8 1#8) = true := by
  decide

theorem witness_DecodeThenEncode :
    decode .chunks [0xFD#8, 9#8] = .ok (.run 61#6, [9#8]) ∧
    decode .header (encode (.header 1#32 1#32 9#8 9#8)) = .ok (.header 1#32 1#32 9#8 9#8, []) ∧
    decode .marker endMarkerBytes = .ok (.endMarker, []) := by decide

/-- A header, a chunk and an end marker at the cursor. -/
theorem witness_StepRunsTheItem :
    (passAt .header 0 (encode (.header 1#32 1#32 3#8 0#8))).dec.phase = .header ∧
    decode .header ((passAt .header 0 (encode (.header 1#32 1#32 3#8 0#8))).dec.input.drop 0)
      = .ok (.header 1#32 1#32 3#8 0#8, []) ∧
    (chunks 1 0 [0x40#8]).agent = .decoder ∧ (chunks 1 0 [0x40#8]).dec.phase = .tag ∧
    (chunks 1 0 [0x40#8]).dec.ipos < (chunks 1 0 [0x40#8]).dec.input.length ∧
    (chunks 1 0 [0x40#8]).dec.opix < (chunks 1 0 [0x40#8]).dec.npix ∧
    decode .chunks ((chunks 1 0 [0x40#8]).dec.input.drop (chunks 1 0 [0x40#8]).dec.ipos) = .ok (.diff 0#2 0#2 0#2, []) ∧
    (passAt .endMark 0 endMarkerBytes).dec.phase = .endMark ∧
    decode .marker ((passAt .endMark 0 endMarkerBytes).dec.input.drop 0) = .ok (.endMarker, []) := by decide

/-- A header with each of the seven outcomes. -/
theorem witness_HeaderInStreamOrder :
    (passAt .header 0 []).agent = .decoder ∧ (passAt .header 0 []).dec.phase = .header ∧ (passAt .header 0 []).dec.ipos = 0 ∧
    [0x71#8, 0x6F#8, 0x69#8].length < 4 ∧ [0x71#8, 0x6F#8, 0x69#8, 0x67#8].take 4 ≠ magic ∧
    ((encode (.header 1#32 1#32 4#8 0#8)).take 12).length < 13 ∧
    (((encode (.header 1#32 1#32 5#8 0#8)).take 13).getD 12 0#8) = 5#8 ∧
    ((encode (.header 1#32 1#32 4#8 0#8)).take 13).length < 14 ∧ (encode (.header 1#32 1#32 4#8 2#8)).getD 13 0#8 = 2#8 := by
  decide

/-- The two reasons for the end of the loop: all pixels out, and the input exhausted. -/
theorem witness_LoopEnd :
    (chunks 1 1 [0#8]).agent = .decoder ∧ (chunks 1 1 [0#8]).dec.phase = .tag ∧
    ¬ ((chunks 1 1 [0#8]).dec.ipos < (chunks 1 1 [0#8]).dec.input.length ∧ (chunks 1 1 [0#8]).dec.opix < (chunks 1 1 [0#8]).dec.npix) ∧
    ¬ ((chunks 1 0 []).dec.ipos < (chunks 1 0 []).dec.input.length ∧ (chunks 1 0 []).dec.opix < (chunks 1 0 []).dec.npix) := by decide

/-- A decode pass in its chunk loop whose input is exhausted meets the machine's invariant. -/
theorem witness_invariant : (chunks 1 0 []).Inv := by
  have hd : (chunks 1 0 []).dec.cache.DirectMapped := Cache.directMapped_initial true
  have he : (chunks 1 0 []).enc.cache.DirectMapped := Cache.directMapped_initial true
  refine ⟨⟨hd, ?_, ?_, ?_, ?_, ?_, ?_, ?_, ?_, ?_, ?_, ?_, ?_, ?_, ?_, ?_, ?_, ?_⟩, ⟨he, ?_, ?_, ?_, ?_, ?_, ?_, ?_, ?_, ?_⟩,
    ?_, ?_, ?_, ?_, ?_, ?_⟩
  all_goals decide

/-- So does one whose pixels are all out. -/
theorem witness_invariant_at_the_last_pixel : (chunks 1 1 [0#8]).Inv := by
  have hd : (chunks 1 1 [0#8]).dec.cache.DirectMapped := Cache.directMapped_initial true
  have he : (chunks 1 1 [0#8]).enc.cache.DirectMapped := Cache.directMapped_initial true
  refine ⟨⟨hd, ?_, ?_, ?_, ?_, ?_, ?_, ?_, ?_, ?_, ?_, ?_, ?_, ?_, ?_, ?_, ?_, ?_⟩, ⟨he, ?_, ?_, ?_, ?_, ?_, ?_, ?_, ?_, ?_⟩,
    ?_, ?_, ?_, ?_, ?_, ?_⟩
  all_goals decide

/-- So does a running encode pass. -/
theorem witness_invariant_of_an_encode_pass : (encoding [zeroPixel]).Inv := by
  have hd : (encoding [zeroPixel]).dec.cache.DirectMapped := Cache.directMapped_initial true
  have he : (encoding [zeroPixel]).enc.cache.DirectMapped := Cache.directMapped_initial true
  refine ⟨⟨hd, ?_, ?_, ?_, ?_, ?_, ?_, ?_, ?_, ?_, ?_, ?_, ?_, ?_, ?_, ?_, ?_, ?_⟩, ⟨he, ?_, ?_, ?_, ?_, ?_, ?_, ?_, ?_, ?_⟩,
    ?_, ?_, ?_, ?_, ?_, ?_⟩
  all_goals decide

/-- The same passes make a next step. -/
theorem witness_StepKeepsTheInvariant :
    (stateOf (step (chunks 1 0 []))).isSome = true ∧ (stateOf (step (encoding [zeroPixel]))).isSome = true := by decide

theorem witness_OnlyABadImageIsRefused : (chunks 1 0 []).Inv := witness_invariant

theorem witness_EndMarkerAndTrailingData :
    (passAt .endMark 0 endMarkerBytes).agent = .decoder ∧ (passAt .endMark 0 endMarkerBytes).dec.phase = .endMark ∧
    ((passAt .endMark 0 (endMarkerBytes.take 7)).dec.input.drop 0).take 8 ≠ endMarkerBytes ∧
    (passAt .endMark 0 []).dec.opts.requireEndTag = true ∧
    (passAt .endMark 0 [] { requireEndTag := false }).dec.opts.requireEndTag = false ∧
    (passAt .trailing 0 [5#8]).dec.phase = .trailing := by decide

theorem witness_PayloadExhausted :
    (chunks 3 1 []).agent = .decoder ∧ (chunks 3 1 []).dec.phase = .tag ∧
    (chunks 3 1 []).dec.ipos = (chunks 3 1 []).dec.input.length ∧ (chunks 3 1 []).dec.opix < (chunks 3 1 []).dec.npix ∧
    (chunks 3 1 [] { requireEndTag := false }).dec.opts.requireEndTag = false ∧
    (chunks 3 1 []).dec.opts.requireEndTag = true := by decide

/-- V-DEC-9's shape: an image of ten pixels that holds one before the marker; and images of which one, seven and eight pixels are
still expected when the marker's bytes come. -/
theorem witness_MarkerBytesInsideChunks :
    ∀ n ∈ [2, 8, 9, 10],
      (chunks n 1 endMarkerBytes).agent = .decoder ∧ (chunks n 1 endMarkerBytes).dec.phase = .tag ∧
      (chunks n 1 endMarkerBytes).dec.opix < (chunks n 1 endMarkerBytes).dec.npix ∧
      (chunks n 1 endMarkerBytes).dec.input.drop (chunks n 1 endMarkerBytes).dec.ipos
        = [0#8, 0#8, 0#8, 0#8, 0#8, 0#8, 0#8, 1#8] ++ [] ∧
      (chunks n 1 endMarkerBytes).dec.npix - (chunks n 1 endMarkerBytes).dec.opix = n - 1 ∧
      (chunks n 1 endMarkerBytes { requireEndTag := false }).dec.opts.requireEndTag = false ∧
      (chunks n 1 endMarkerBytes).dec.opts.requireEndTag = true := by decide

/-- A pass over the header of an empty image and the marker succeeds. -/
theorem witness_ChunkCountsAddUp :
    (decodeFinal true ⟨0#32, 0#32, 0#8, 0#8⟩ {} (encode (.header 0#32 0#32 4#8 0#8) ++ endMarkerBytes) Decoder.reset).done
      = true := by decide

theorem witness_ObservationChangesNothing :
    ({} : DecoderOptions).requireEndTag = ({ debugMode := true, storeFullIndexHistory := true } : DecoderOptions).requireEndTag ∧
    ({} : DecoderOptions).debugMode = ({ storeFullIndexHistory := true } : DecoderOptions).debugMode ∧
    ({} : DecoderOptions).storeFullIndexHistory = ({ debugMode := true } : DecoderOptions).storeFullIndexHistory := by decide

theorem witness_MachineRunsADecodePass :
    (hostTurn [.decode {} []]).agent = .host ∧ (hostTurn [.decode {} []]).dec.runLeft = 0 ∧
    (hostTurn [.decode {} []]).dec.startable = true ∧ (hostTurn [.decode {} []]).pending = .decode {} [] :: [] := by decide

theorem witness_ByteInHeader : (hostTurn [] .header).dec.phase = .header ∧ (hostTurn [] .header).dec.runLeft = 0 := by decide

/-- A long tag, a one-byte tag, and the end of input with the marker required and not. -/
theorem witness_ByteInTag :
    (hostTurn [.byte 0xFE#8] .tag).agent = .host ∧ (hostTurn [.byte 0xFE#8] .tag).dec.phase = .tag ∧
    (hostTurn [.byte 0xFE#8] .tag).dec.runLeft = 0 ∧ (hostTurn [.byte 0xFE#8] .tag).pending = .byte 0xFE#8 :: [] ∧
    0 < continuationBytes 0xFE#8 ∧ continuationBytes 0xFD#8 = 0 ∧ (hostTurn [] .tag).dec.serialPort = false ∧
    dispatchTag 0x7F#8 ≠ .run ∧ (hostTurn [.eoi] .tag).pending = .eoi :: [] ∧
    (hostTurn [.eoi] .tag).dec.opts.requireEndTag = true ∧ (chunks 1 0 [] { requireEndTag := false }).dec.opts.requireEndTag = false := by
  decide

/-- A LUMA chunk that waits for its last byte, and an RGB chunk that waits for more than one, each with a byte and with the end of
input pending. -/
theorem witness_ByteInArgs :
    ∀ ev ∈ [Event.byte 7#8, .eoi], ∀ c ∈ [((0x80#8 : Byte), ([] : List Byte)), (0xFE#8, [1#8])],
      (argsTurn [ev] c.1 c.2).agent = .host ∧ (argsTurn [ev] c.1 c.2).dec.phase = .args ∧
      (argsTurn [ev] c.1 c.2).dec.runLeft = 0 ∧ (argsTurn [ev] c.1 c.2).pending = ev :: [] ∧
      (argsTurn [ev] c.1 c.2).dec.need = continuationBytes (argsTurn [ev] c.1 c.2).dec.tag ∧
      (argsTurn [ev] c.1 c.2).dec.args.length < (argsTurn [ev] c.1 c.2).dec.need ∧
      ((argsTurn [ev] c.1 c.2).dec.args.length + 1 = (argsTurn [ev] c.1 c.2).dec.need ↔ c.1 = 0x80#8) := by decide

/-- Marker positions 0 and 7, and the trailing phase. -/
theorem witness_ByteInEndAndTrailing :
    (hostTurn [] .endMark).dec.phase = .endMark ∧ (hostTurn [] .endMark).dec.runLeft = 0 ∧ (hostTurn [] .endMark).dec.matched < 8 ∧
    { (hostTurn [] .endMark).dec with matched := 7 }.matched < 8 ∧ (hostTurn [] .trailing).dec.phase = .trailing := by decide

/-- The first transfer of a run of 62 and the last one, and the tags of the shortest and the longest run. -/
theorem witness_SerialRun :
    (∀ n ∈ [62, 1], (runTurn 0xFD#8 n).agent = .host ∧ 0 < (runTurn 0xFD#8 n).dec.runLeft) ∧
    (hostTurn [] .tag).dec.phase = .tag ∧ (hostTurn [] .tag).dec.runLeft = 0 ∧ dispatchTag 0xC0#8 = .run ∧
    dispatchTag 0xFD#8 = .run := by decide

theorem witness_StreamDecoderMatchesThePass :
    (decodeFinal true ⟨0#32, 0#32, 0#8, 0#8⟩ {} (encode (.header 0#32 0#32 4#8 0#8) ++ endMarkerBytes) Decoder.reset).done = true ∧
    (decodeFinal true ⟨0#32, 0#32, 0#8, 0#8⟩ {} [] Decoder.reset).error = true := by decide

theorem witness_MachineFeedsTheDecoder :
    (hostTurn [.byte 0x71#8, .eoi] .header).agent = .host ∧ (hostTurn [.byte 0x71#8, .eoi] .header).dec.runLeft = 0 ∧
    (hostTurn [.byte 0x71#8, .eoi] .header).pending = [0x71#8].map Event.byte ++ .eoi :: [] := by decide

theorem witness_ChunkPrecedence :
    (-2 : Int) = sdelta 254#8 (encoding []).enc.prev.r ∧ (1 : Int) = sdelta 1#8 (encoding []).enc.prev.g ∧
    (0 : Int) = sdelta 0#8 (encoding []).enc.prev.b := by decide

/-- A run that fills an image, and a pixel that starts none. -/
theorem witness_RunIsMaximal :
    (encoding [prevInit, prevInit]).enc.i < (encoding [prevInit, prevInit]).enc.npix ∧
    (prevInit :: [prevInit]).length = (encoding [prevInit, prevInit]).enc.npix - (encoding [prevInit, prevInit]).enc.i ∧
    (encoding [prevInit, prevInit]).enc.opts.useRun = true ∧ prevInit = (encoding [prevInit, prevInit]).enc.prev ∧
    ¬ ((encoding []).enc.opts.useRun = true ∧ zeroPixel = (encoding []).enc.prev) := by decide

theorem witness_EncoderTurn :
    (encoding [zeroPixel]).agent = .encoder ∧ (encoding [zeroPixel]).enc.phase = .pixels ∧
    (encoding [zeroPixel]).enc.i < (encoding [zeroPixel]).enc.npix ∧
    (encoding [zeroPixel]).enc.pixels.drop (encoding [zeroPixel]).enc.i = zeroPixel :: [] ∧
    ¬ (encoding []).enc.i < (encoding []).enc.npix := by decide

theorem witness_EncoderTail : (encoding [] .tail).agent = .encoder ∧ (encoding [] .tail).enc.phase = .tail := by decide

theorem witness_EncodeNeverFails : (image [zeroPixel, prevInit]).valid = true ∧ (image []).valid = true := by decide

theorem witness_ChannelsAndColorspaceAreCopied :
    (encodePass true {} (image [zeroPixel])).isSome = true ∧
    (encodePass true {} { image [zeroPixel] with regs := { (image [zeroPixel]).regs with channels := 3#8, colorspace := 1#8 } }).isSome
      = true := by decide

theorem witness_EncodeRefusesOutsideTheContract :
    (hostTurn []).agent = .host ∧ (hostTurn []).dec.runLeft = 0 ∧ (hostTurn []).enc.startable = true ∧
    fieldsLegal ⟨1#32, 1#32, 2#8, 0#8⟩ = false ∧ fieldsLegal ⟨1#32, 1#32, 3#8, 2#8⟩ = false ∧
    fieldsLegal { image [zeroPixel] with pixels := [] }.regs = true ∧
    { image [zeroPixel] with pixels := [] }.pixels.length ≠ { image [zeroPixel] with pixels := [] }.regs.npix := by decide

theorem witness_MachineRunsAnEncodePass :
    (hostTurn [.encode {} (image [zeroPixel])]).agent = .host ∧ (hostTurn [.encode {} (image [zeroPixel])]).dec.runLeft = 0 ∧
    (hostTurn [.encode {} (image [zeroPixel])]).enc.startable = true ∧ (image [zeroPixel]).valid = true ∧
    (hostTurn [.encode {} (image [zeroPixel])]).pending = .encode {} (image [zeroPixel]) :: [] := by decide

/-- A pixel equal to `prev` at run 60 and at run 61, and one that is not, before the last pixel and at it. -/
theorem witness_PixelEvent :
    (encoding [prevInit, prevInit]).enc.phase = .pixels ∧
    (encoding [prevInit, prevInit]).enc.i + 1 < (encoding [prevInit, prevInit]).enc.npix ∧
    (encoding []).enc.opts.useRun = true ∧ prevInit = (encoding []).enc.prev ∧ { (encoding []).enc with run := 60 }.run + 1 ≠ 62 ∧
    { (encoding []).enc with run := 61 }.run + 1 = 62 ∧ ¬ ((encoding []).enc.opts.useRun = true ∧ zeroPixel = (encoding []).enc.prev) ∧
    { (encoding []).enc with run := 61 }.run ≤ 62 := by decide

theorem witness_LastPixelEvent :
    (encoding [prevInit]).enc.phase = .pixels ∧ (encoding [prevInit]).enc.i + 1 = (encoding [prevInit]).enc.npix ∧
    { (encoding [prevInit]).enc with run := 61 }.run < 62 := by decide

theorem witness_StreamEncoderMatchesThePass : (image [zeroPixel, prevInit, prevInit] [1#8]).valid = true := by decide

/-- Just started, both on an image of one pixel. -/
theorem witness_Lockstep :
    (encoding [zeroPixel]).enc.pixels.length = (encoding [zeroPixel]).enc.npix ∧
    (encoding [zeroPixel]).enc.i < (encoding [zeroPixel]).enc.npix ∧ (encoding [zeroPixel]).enc.encodeChunk.isSome = true ∧
    (chunks 1 0 []).dec.cache = (encoding [zeroPixel]).enc.cache ∧ (chunks 1 0 []).dec.prev = (encoding [zeroPixel]).enc.prev ∧
    (chunks 1 0 []).dec.opix = (encoding [zeroPixel]).enc.i ∧ (chunks 1 0 []).dec.npix = (encoding [zeroPixel]).enc.npix ∧
    (chunks 1 0 []).dec.error = false := by decide

theorem witness_RoundTrip :
    (image [zeroPixel] endMarkerBytes).valid = true ∧
    (({} : EncoderOptions).insertEndTag = true ∨ ({} : DecoderOptions).requireEndTag = false) ∧
    ({ requireEndTag := false } : DecoderOptions).requireEndTag = false ∧ ({} : DecoderOptions).debugMode = false ∧
    ({ insertEndTag := false } : EncoderOptions).insertEndTag = false ∧
    ({ insertEndTag := false } : EncoderOptions).stripTrailingData = false ∧
    (image [zeroPixel] endMarkerBytes).trailing.take 8 = [0#8, 0#8, 0#8, 0#8, 0#8, 0#8, 0#8, 1#8] ∧
    (image [zeroPixel] [1#8]).trailing.take 8 ≠ [0#8, 0#8, 0#8, 0#8, 0#8, 0#8, 0#8, 1#8] := by decide

/-- A step that raises an error. -/
theorem witness_FaultingStepCommitsNothing :
    (chunks 4 1 [0xC5#8]).dec.error = false ∧ (stateOf (step (chunks 4 1 [0xC5#8]))).map (·.dec.error) = some true := by decide

/-- A step of a running decode pass and one of a running encode pass. -/
theorem witness_OptionsConstantDuringAPass :
    (stateOf (step (chunks 1 0 [0x40#8]))).isSome = true ∧ (chunks 1 0 [0x40#8]).dec.startable = false ∧
    (stateOf (step (encoding [zeroPixel]))).isSome = true ∧ (encoding [zeroPixel]).enc.startable = false := by decide

/-- The passes of `witness_invariant` and `witness_invariant_of_an_encode_pass`. -/
theorem witness_OutputsOnlyGrow :
    (stateOf (step (chunks 1 0 []))).isSome = true ∧ (chunks 1 0 []).dec.startable = false ∧
    (encoding [zeroPixel]).enc.startable = false := by decide

end Sys2Proof.Tests
end

section
/-! PROOFS. Channel arithmetic (spec/00_scope.md R9): `add8 y` adds the 8-bit word of its integer, so `sdelta` inverts it on
the signed range. -/

namespace Sys2Proof.Machine

theorem add8_eq_add_ofInt (x : Byte) (d : Int) : add8 x d = x + BitVec.ofInt 8 d := by
  simp [add8, BitVec.ofInt_add]

theorem toNat_add8 (x : Byte) (d : Int) : ((add8 x d).toNat : Int) = ((x.toNat : Int) + d) % 256 := by
  have hpos : 0 ≤ ((x.toNat : Int) + d) % 256 := Int.emod_nonneg _ (by decide)
  rw [add8, BitVec.toNat_ofInt]
  exact Int.toNat_of_nonneg hpos

theorem neg_128_le_sdelta (x y : Byte) : -128 ≤ sdelta x y := BitVec.le_toInt (x - y)

theorem sdelta_le_127 (x y : Byte) : sdelta x y ≤ 127 := Int.le_of_lt_add_one (BitVec.toInt_lt (x := x - y))

@[simp] theorem add8_sdelta (x y : Byte) : add8 y (sdelta x y) = x := by
  rw [add8_eq_add_ofInt, sdelta, BitVec.ofInt_toInt, BitVec.add_comm, BitVec.sub_add_cancel]

/-- The difference of bytes reads back the word of the integer added. -/
theorem sdelta_add8_eq_toInt_ofInt (y : Byte) (d : Int) : sdelta (add8 y d) y = (BitVec.ofInt 8 d).toInt := by
  rw [add8_eq_add_ofInt, sdelta, BitVec.add_comm, BitVec.add_sub_cancel]

theorem sdelta_add8 (y : Byte) {d : Int} (hlo : -128 ≤ d) (hhi : d ≤ 127) : sdelta (add8 y d) y = d := by
  rw [sdelta_add8_eq_toInt_ofInt]
  exact BitVec.toInt_ofInt_eq_self (by decide) hlo (Int.lt_add_one_of_le hhi)

theorem add8_toNat_sub_toNat (x y : Byte) : add8 y ((x.toNat : Int) - (y.toNat : Int)) = x := by
  simp [add8]

theorem sdelta_eq_toInt_ofInt (x y : Byte) :
    sdelta x y = (BitVec.ofInt 8 ((x.toNat : Int) - (y.toNat : Int))).toInt := by
  rw [← sdelta_add8_eq_toInt_ofInt y, add8_toNat_sub_toNat]

/-- Settles O6: `sdelta _ y` is a left inverse of `add8 y` on −128..127, which gives the uniqueness. -/
theorem channelArithmetic : Obligations.ChannelArithmetic := by
  refine ⟨toNat_add8, fun x y => ⟨neg_128_le_sdelta x y, sdelta_le_127 x y, add8_sdelta x y, ?unique,
    sdelta_eq_toInt_ofInt x y⟩⟩
  case unique =>
    intro d hlo hhi hadd
    rw [← hadd, sdelta_add8 y hlo hhi]

end Sys2Proof.Machine
end

section
/-! PROOFS. What reading an item says about the item and the length of the bytes read (spec/30_encoding.md R91 to R94). -/

namespace Sys2Proof

/-- With its continuation bytes at hand a tag byte decodes to the chunk it dispatches to (R93, R94, R103). -/
theorem decodeChunk_of_le {t : Byte} {rest : List Byte} (h : continuationBytes t ≤ rest.length) :
    ∃ i, decodeChunk (t :: rest) = .ok (i, rest.drop (continuationBytes t)) ∧
      i.chunkType = some (dispatchTag t) ∧ i.byteLength = 1 + continuationBytes t := by
  rw [continuationBytes_eq] at h ⊢
  cases ht : dispatchTag t <;> simp only [ht] at h ⊢
  case rgb =>
    obtain ⟨r, g, b, rest, rfl⟩ : ∃ r g b rest', rest = r :: g :: b :: rest' := by
      match rest, h with
      | r :: g :: b :: rest', _ => exact ⟨r, g, b, rest', rfl⟩
    exact ⟨.rgb r g b, by simp [decodeChunk, ht], rfl, rfl⟩
  case rgba =>
    obtain ⟨r, g, b, a, rest, rfl⟩ : ∃ r g b a rest', rest = r :: g :: b :: a :: rest' := by
      match rest, h with
      | r :: g :: b :: a :: rest', _ => exact ⟨r, g, b, a, rest', rfl⟩
    exact ⟨.rgba r g b a, by simp [decodeChunk, ht], rfl, rfl⟩
  case luma =>
    obtain ⟨b2, rest, rfl⟩ : ∃ b2 rest', rest = b2 :: rest' := by
      match rest, h with
      | b2 :: rest', _ => exact ⟨b2, rest', rfl⟩
    exact ⟨.luma (t.extractLsb' 0 6) (b2.extractLsb' 4 4) (b2.extractLsb' 0 4), by simp [decodeChunk, ht], rfl, rfl⟩
  case index => exact ⟨.index (t.extractLsb' 0 6), by simp [decodeChunk, ht], rfl, rfl⟩
  case diff =>
    exact ⟨.diff (t.extractLsb' 4 2) (t.extractLsb' 2 2) (t.extractLsb' 0 2), by simp [decodeChunk, ht], rfl, rfl⟩
  case run => exact ⟨.run (t.extractLsb' 0 6), by simp [decodeChunk, ht], rfl, rfl⟩

/-- Without its continuation bytes a tag byte is a truncated chunk (R165, R275). -/
theorem decodeChunk_of_lt {t : Byte} {rest : List Byte} (h : rest.length < continuationBytes t) :
    decodeChunk (t :: rest) = .error .truncated := by
  rw [continuationBytes_eq] at h
  cases ht : dispatchTag t <;> simp only [ht, Nat.not_lt_zero] at h
  case rgb =>
    match rest, h with
    | [], _ | [_], _ | [_, _], _ => simp [decodeChunk, ht]
  case rgba =>
    match rest, h with
    | [], _ | [_], _ | [_, _], _ | [_, _, _], _ => simp [decodeChunk, ht]
  case luma =>
    match rest, h with
    | [], _ => simp [decodeChunk, ht]

/-- A chunk that is read lies within the bytes it is read from. -/
theorem decodeChunk_ok {bytes rest : List Byte} {i : Instr} (h : decodeChunk bytes = .ok (i, rest)) :
    (∃ type, i.chunkType = some type) ∧ i.byteLength ≤ bytes.length := by
  match bytes with
  | [] => cases h
  | t :: tail =>
    rcases Nat.lt_or_ge tail.length (continuationBytes t) with hlt | hle
    · rw [decodeChunk_of_lt hlt] at h
      cases h
    · obtain ⟨j, hj, htype, hlen⟩ := decodeChunk_of_le hle
      rw [hj] at h
      cases h
      refine ⟨⟨_, htype⟩, ?_⟩
      rw [hlen, List.length_cons]
      omega

/-- A chunk is rejected for one reason only: its bytes end too early (R165). -/
theorem decodeChunk_error {bytes : List Byte} {r : Reject} (h : decodeChunk bytes = .error r) : r = .truncated := by
  match bytes with
  | [] => cases h; rfl
  | t :: tail =>
    rcases Nat.lt_or_ge tail.length (continuationBytes t) with hlt | hle
    · rw [decodeChunk_of_lt hlt] at h
      cases h
      rfl
    · obtain ⟨j, hj, -⟩ := decodeChunk_of_le hle
      rw [hj] at h
      cases h

/-- What is read as a header is a HEADER item of 14 bytes (R91). -/
theorem decodeHeader_ok {bytes rest : List Byte} {i : Instr} (h : decodeHeader bytes = .ok (i, rest)) :
    (∃ w ht c cs, i = .header w ht c cs) ∧ headerLen ≤ bytes.length := by
  simp only [decodeHeader] at h
  split at h
  · cases h
  split at h
  · cases h
  split at h
  · cases h
  split at h
  · split at h <;> cases h
  · next hlen =>
    cases h
    exact ⟨⟨_, _, _, _, rfl⟩, Nat.le_of_not_lt hlen⟩

/-- A rejected header is never taken for an absent end marker (R151, R272, R275). -/
theorem decodeHeader_error {bytes : List Byte} {r : Reject} (h : decodeHeader bytes = .error r) : r ≠ .notMarker := by
  simp only [decodeHeader] at h
  split at h
  · cases h; simp
  split at h
  · cases h; simp
  split at h
  · cases h; simp
  split at h
  · split at h <;> cases h <;> simp
  · cases h

/-- What is read as the end marker is END, eight bytes long (R92). -/
theorem decodeMarker_ok {bytes rest : List Byte} {i : Instr} (h : decodeMarker bytes = .ok (i, rest)) :
    i = .endMarker ∧ 8 ≤ bytes.length := by
  unfold decodeMarker at h
  split at h
  · next hm =>
    cases h
    have hlen := congrArg List.length hm
    simp only [List.length_take, endMarkerBytes, List.length_cons, List.length_nil] at hlen
    exact ⟨rfl, by omega⟩
  · cases h

theorem decodeMarker_error {bytes : List Byte} {r : Reject} (h : decodeMarker bytes = .error r) : r = .notMarker := by
  unfold decodeMarker at h
  split at h <;> cases h
  rfl

end Sys2Proof
end

section
/-! PROOFS. What one step can do, said once: the machine's step by whose turn it is, and the step of a decode pass over a whole
input by its phase. Every claim about all steps is a case analysis on these. -/

namespace Sys2Proof.Machine

/-- The steps of a decode pass over a whole input (R150, R155, R166 to R168). -/
inductive Decoder.PassMove (d : Decoder) : Decoder → Prop
  | header (w h : U32) (c cs : Byte) (hphase : d.phase = .header) (hlen : d.ipos + headerLen ≤ d.input.length) :
      Decoder.PassMove d (headerEffect w h c cs d)
  | chunk (i : Instr) (type : ChunkType) (hphase : d.phase = .tag) (hmore : d.opix < d.npix)
      (htype : i.chunkType = some type) (hlen : d.ipos + i.byteLength ≤ d.input.length) :
      Decoder.PassMove d (itemEffect i d)
  | fail (c : Cause) (hphase : d.phase = .header ∨ d.phase = .tag) (hc : c ≠ .none ∧ c ≠ .sizeMismatch) :
      Decoder.PassMove d (d.failReading c)
  | loopEnd (hphase : d.phase = .tag) : Decoder.PassMove d d.endLoop
  | marker (hphase : d.phase = .endMark) (hlen : d.ipos + 8 ≤ d.input.length) : Decoder.PassMove d (endMarkerEffect d)
  | markerAbsent (hphase : d.phase = .endMark) : Decoder.PassMove d d.missMarker
  | copyTrailing (hphase : d.phase = .trailing) : Decoder.PassMove d d.takeTrailing
  | rest (hrest : d.nextAction = .rest) : Decoder.PassMove d d

/-- Bytes found from a cursor on lie inside the list. -/
theorem add_le_length_of_le_length_drop {α : Type} {l : List α} {k n : Nat} (hn : 0 < n) (h : n ≤ (l.drop k).length) :
    k + n ≤ l.length := by
  rw [List.length_drop] at h
  omega

theorem Decoder.passStep_of_rest {d : Decoder} (h : d.nextAction = .rest) : d.passStep = d := by
  simp [Decoder.passStep, h, Decoder.control]

/-- What the fetch of a section leads to, by the outcome of the reading. -/
theorem Decoder.passStep_of_fetch {d : Decoder} {sec : StreamSection} (h : d.nextAction = d.fetch sec) :
    d.passStep =
      match decode sec (d.input.drop d.ipos) with
      | .ok (i, _) => itemEffect i d
      | .error .truncated => d.failReading .truncated
      | .error .badMagic => d.failReading .badMagic
      | .error .badChannels => d.failReading .badChannels
      | .error .notMarker => d.missMarker := by
  unfold Decoder.passStep
  rw [h, Decoder.fetch]
  cases decode sec (d.input.drop d.ipos) with
  | ok r => rfl
  | error r => cases r <;> rfl

theorem Decoder.passMove_passStep (d : Decoder) : d.PassMove d.passStep := by
  cases hphase : d.phase
  case header =>
    rw [Decoder.passStep_of_fetch (sec := .header) (by simp [Decoder.nextAction, hphase])]
    cases hr : decode .header (d.input.drop d.ipos) with
    | ok r =>
      obtain ⟨⟨w, h, c, cs, hi⟩, hlen⟩ := decodeHeader_ok (i := r.1) (rest := r.2) hr
      simp only [hi]
      exact .header w h c cs hphase (add_le_length_of_le_length_drop (by decide) hlen)
    | error r =>
      cases r with
      | notMarker => exact absurd rfl (decodeHeader_error hr)
      | _ => exact .fail _ (.inl hphase) (by decide)
  case tag =>
    by_cases hmore : d.ipos < d.input.length ∧ d.opix < d.npix
    · rw [Decoder.passStep_of_fetch (sec := .chunks) (by simp only [Decoder.nextAction, hphase, if_pos hmore])]
      cases hr : decode .chunks (d.input.drop d.ipos) with
      | ok r =>
        obtain ⟨⟨type, htype⟩, hlen⟩ := decodeChunk_ok (i := r.1) (rest := r.2) hr
        exact .chunk r.1 type hphase hmore.2 htype (add_le_length_of_le_length_drop (chunk_byteLength r.1 type htype).1 hlen)
      | error r =>
        obtain rfl := decodeChunk_error hr
        exact .fail _ (.inr hphase) (by decide)
    · have hstep : d.passStep = d.endLoop := by
        simp only [Decoder.passStep, Decoder.nextAction, hphase, if_neg hmore, Decoder.control]
      rw [hstep]
      exact .loopEnd hphase
  case endMark =>
    rw [Decoder.passStep_of_fetch (sec := .marker) (by simp [Decoder.nextAction, hphase])]
    cases hr : decode .marker (d.input.drop d.ipos) with
    | ok r =>
      obtain ⟨hi, hlen⟩ := decodeMarker_ok (i := r.1) (rest := r.2) hr
      simp only [hi]
      exact .marker hphase (add_le_length_of_le_length_drop (by decide) hlen)
    | error r =>
      obtain rfl := decodeMarker_error hr
      exact .markerAbsent hphase
  case trailing =>
    have hstep : d.passStep = d.takeTrailing := by simp [Decoder.passStep, Decoder.nextAction, hphase, Decoder.control]
    rw [hstep]
    exact .copyTrailing hphase
  all_goals
    have hrest : d.nextAction = .rest := by simp [Decoder.nextAction, hphase]
    rw [Decoder.passStep_of_rest hrest]
    exact .rest hrest

/-- The steps of the machine, by whose turn it is and, in the host's turn, by the event that is served (R240, R247, R256). An
event that is not accepted is dropped, and so is no event when none is pending. -/
inductive State.Move (s : State) : State → Prop
  | transfer (hagent : s.agent = .host) : State.Move s (s.setDec s.dec.transfer)
  | ignore (later : List Event) : State.Move s { s with pending := later }
  | byte (hagent : s.agent = .host) (later : List Event) (b : Byte) :
      State.Move s ({ s with pending := later }.setDec (s.dec.byteEvent b))
  | eoi (hagent : s.agent = .host) (later : List Event) : State.Move s ({ s with pending := later }.setDec s.dec.eoiEvent)
  | pixel (hagent : s.agent = .host) (later : List Event) (p : Pixel) :
      State.Move s ({ s with pending := later }.setEnc (s.enc.pixelEvent p))
  | startDecode (hagent : s.agent = .host) (hstart : s.dec.startable = true) (later : List Event) (o : DecoderOptions)
      (input : List Byte) (next : Agent) (hnext : next ≠ .encoder) :
      State.Move s { s with
        pending := later
        dec := s.dec.start Config.cacheSeed (Config.unparsedHeader s.freeIndex) o input
        freeIndex := s.freeIndex + 1
        agent := next }
  | startEncode (hagent : s.agent = .host) (hstart : s.enc.startable = true) (later : List Event) (o : EncoderOptions)
      (regs : HeaderRegs) (trailing : List Byte) (hlegal : fieldsLegal regs = true) :
      State.Move s ({ s with pending := later }.setEnc (Encoder.start Config.cacheSeed o regs [] trailing).settle)
  | encode (hagent : s.agent = .host) (hstart : s.enc.startable = true) (later : List Event) (o : EncoderOptions)
      (x : Image) (hlegal : fieldsLegal x.regs = true) (hsize : x.pixels.length = x.regs.npix) :
      State.Move s (({ s with pending := later }.setEnc
        (Encoder.start Config.cacheSeed o x.regs x.pixels x.trailing)).setAgent .encoder)
  | decoderPass (hagent : s.agent = .decoder) : State.Move s (s.setDec s.dec.passStep)
  | decoderRests (hagent : s.agent = .decoder) (hrest : s.dec.nextAction = .rest) : State.Move s (s.setAgent .host)
  | encoderPass (hagent : s.agent = .encoder) (hrunning : s.enc.startable = false) (e : Encoder)
      (he : s.enc.passStep = some e) : State.Move s (s.setEnc e)
  | encoderRests (hagent : s.agent = .encoder) (hover : s.enc.startable = true) : State.Move s (s.setAgent .host)

/-- A START of the decoder is taken where it is acceptable and dropped elsewhere (R240, U14). -/
theorem State.move_startDecode {s : State} (hagent : s.agent = .host) (later : List Event) (o : DecoderOptions)
    (input : List Byte) {next : Agent} (hnext : next ≠ .encoder) :
    s.Move (State.startDecode { s with pending := later } o input next) := by
  unfold State.startDecode
  split
  · next hstart => exact .startDecode hagent hstart later o input next hnext
  · exact .ignore later

theorem State.move_deliver {s s' : State} {ev : Event} {later : List Event} (hagent : s.agent = .host)
    (h : deliver ev { s with pending := later } = .next s') : s.Move s' := by
  cases ev with
  | startDecode o => cases h; exact State.move_startDecode hagent later o [] (by decide)
  | decode o input => cases h; exact State.move_startDecode hagent later o input (by decide)
  | byte b => cases h; exact .byte hagent later b
  | eoi => cases h; exact .eoi hagent later
  | pixel p => cases h; exact .pixel hagent later p
  | startEncode o regs trailing =>
    simp only [deliver] at h
    split at h
    · cases h; exact .ignore later
    split at h
    · cases h
    · next hstart hlegal =>
      cases h
      exact .startEncode hagent (by simpa using hstart) later o regs trailing (by simpa using hlegal)
  | encode o x =>
    simp only [deliver] at h
    split at h
    · cases h; exact .ignore later
    split at h
    · cases h
    split at h
    · cases h
    · next hstart hlegal hsize =>
      cases h
      exact .encode hagent (by simpa using hstart) later o x (by simpa using hlegal) (by simpa using hsize)

theorem State.move_of_step {s s' : State} (h : step s = .next s') : s.Move s' := by
  cases hagent : s.agent
  case host =>
    simp only [step, hagent] at h
    unfold hostStep at h
    split at h
    · cases h; exact .transfer hagent
    split at h
    · cases h; exact .ignore s.pending
    · exact State.move_deliver hagent h
  case decoder =>
    by_cases hrest : s.dec.nextAction = .rest
    · simp only [step, hagent, decoderStep, hrest] at h
      cases h
      exact .decoderRests hagent hrest
    · rw [step_decoder hagent hrest] at h
      cases h
      exact .decoderPass hagent
  case encoder =>
    simp only [step, hagent, encoderStep] at h
    split at h
    · next hover => cases h; exact .encoderRests hagent hover
    split at h
    · next hrunning _ e he => cases h; exact .encoderPass hagent (by simpa using hrunning) e he
    · cases h

end Sys2Proof.Machine
end

section
/-! PROOFS. The registers that only a commit writes (spec/41_decoder.md R163). Every operation of the decoder but START leaves
them alone or commits the pixels of one chunk, in whatever state it runs. -/

namespace Sys2Proof.Machine

/-- The options with the registers and streams that a commit reads and writes. -/
structure OutputRegs where
  opts  : DecoderOptions
  cache : Cache
  prev  : Pixel
  pix   : List Pixel
  opix  : Nat
  hist  : List Cache

def Decoder.outputRegs (d : Decoder) : OutputRegs := ⟨d.opts, d.cache, d.prev, d.pix, d.opix, d.hist⟩

/-- The commit of the pixels number k to k + n − 1 of a chunk, on these registers alone (R163, R171). -/
def OutputRegs.commit (p : Pixel) (type : ChunkType) (k n : Nat) (o : OutputRegs) : OutputRegs :=
  { o with
    pix := o.pix ++ outColors o.opts.debugMode p type k n
    opix := o.opix + n
    cache := if n = 0 then o.cache else o.cache.update p
    prev := if n = 0 then o.prev else p
    hist := if o.opts.storeFullIndexHistory then o.hist ++ List.replicate n (o.cache.update p) else o.hist }

@[simp] theorem Decoder.outputRegs_commitPixels (p : Pixel) (type : ChunkType) (k n : Nat) (d : Decoder) :
    (d.commitPixels p type k n).outputRegs = d.outputRegs.commit p type k n := by
  rw [Decoder.commitPixels_eq]
  rfl

@[simp] theorem OutputRegs.commit_zero (p : Pixel) (type : ChunkType) (k : Nat) (o : OutputRegs) : o.commit p type k 0 = o := by
  simp [OutputRegs.commit, outColors]

/-- From one decoder to the other the output registers have kept their values or taken one commit. -/
def Decoder.CommitsTo (d d' : Decoder) : Prop := ∃ p type k n, d'.outputRegs = d.outputRegs.commit p type k n

theorem Decoder.CommitsTo.of_eq {d d' : Decoder} (h : d'.outputRegs = d.outputRegs) : d.CommitsTo d' :=
  ⟨prevInit, .rgb, 0, 0, by rw [h, OutputRegs.commit_zero]⟩

theorem Decoder.CommitsTo.congr {c c' d d' : Decoder} (h : d.CommitsTo d') (hc : c.outputRegs = d.outputRegs)
    (hc' : c'.outputRegs = d'.outputRegs) : c.CommitsTo c' := by
  obtain ⟨p, type, k, n, h⟩ := h
  exact ⟨p, type, k, n, by rw [hc, hc', h]⟩

/-! ## What leaves the output registers alone -/

theorem Decoder.outputRegs_nextPhase (d : Decoder) : d.nextPhase.outputRegs = d.outputRegs := by
  unfold Decoder.nextPhase
  split <;> rfl

theorem Decoder.outputRegs_judgeHeader (b : Byte) (d : Decoder) : (d.judgeHeader b).outputRegs = d.outputRegs := by
  unfold Decoder.judgeHeader
  repeat' split
  all_goals rfl

theorem Decoder.outputRegs_byteEnd (b : Byte) (d : Decoder) : (d.byteEnd b).outputRegs = d.outputRegs := by
  unfold Decoder.byteEnd Decoder.matchMarker Decoder.breakMarker
  repeat' split
  all_goals rfl

theorem Decoder.outputRegs_eoiWithoutMarker (held : List Byte) (d : Decoder) :
    (d.eoiWithoutMarker held).outputRegs = d.outputRegs := by
  unfold Decoder.eoiWithoutMarker
  split <;> rfl

theorem Decoder.outputRegs_eoiEvent (d : Decoder) : d.eoiEvent.outputRegs = d.outputRegs := by
  unfold Decoder.eoiEvent
  split
  · rfl
  cases d.phase
  case tag => exact d.outputRegs_eoiWithoutMarker _
  case endMark => exact d.outputRegs_eoiWithoutMarker _
  all_goals rfl

theorem Decoder.outputRegs_missMarker (d : Decoder) : d.missMarker.outputRegs = d.outputRegs := by
  unfold Decoder.missMarker
  split <;> rfl

theorem Decoder.outputRegs_headerEffect (w h : U32) (c cs : Byte) (d : Decoder) :
    (headerEffect w h c cs d).outputRegs = d.outputRegs := by
  unfold headerEffect
  repeat' split
  all_goals rfl

theorem Decoder.outputRegs_closeRun (d : Decoder) : d.closeRun.outputRegs = d.outputRegs := by
  unfold Decoder.closeRun
  split
  · exact Decoder.outputRegs_nextPhase _
  · rfl

/-! ## What commits -/

theorem Decoder.commitsTo_commitPixel (p : Pixel) (type : ChunkType) (k : Nat) (d : Decoder) :
    d.CommitsTo (d.commitPixel p type k) := ⟨p, type, k, 1, d.outputRegs_commitPixels p type k 1⟩

theorem Decoder.commitsTo_itemEffect (i : Instr) (d : Decoder) : d.CommitsTo (itemEffect i d) := by
  cases htype : i.chunkType with
  | some type =>
    rcases itemEffect_chunk i d type htype with ⟨p, n, heffect, -⟩ | ⟨-, heffect⟩ <;> rw [heffect]
    · exact ⟨p, type, 0, n + 1, (d.advance i.byteLength).outputRegs_commitPixels p type 0 (n + 1)⟩
    · exact .of_eq rfl
  | none =>
    cases i with
    | header w h c cs => exact .of_eq (d.outputRegs_headerEffect w h c cs)
    | endMarker => exact .of_eq rfl
    | _ => cases htype

theorem Decoder.commitsTo_completeChunk (bytes : List Byte) (d : Decoder) : d.CommitsTo (d.completeChunk bytes) := by
  unfold Decoder.completeChunk
  split
  · next i _ _ => exact (d.commitsTo_itemEffect i).congr rfl (Decoder.outputRegs_nextPhase _)
  · exact .of_eq rfl

theorem Decoder.commitsTo_takeTag (t : Byte) (d : Decoder) : d.CommitsTo (d.takeTag t) := by
  unfold Decoder.takeTag Decoder.loadRun
  repeat' split
  case isFalse.isFalse => exact d.commitsTo_completeChunk [t]
  all_goals exact .of_eq rfl

theorem Decoder.commitsTo_takeArgs (d : Decoder) : d.CommitsTo d.takeArgs := by
  unfold Decoder.takeArgs
  split
  · exact d.commitsTo_completeChunk _
  · exact .of_eq rfl

theorem Decoder.commitsTo_byteEvent (b : Byte) (d : Decoder) : d.CommitsTo (d.byteEvent b) := by
  unfold Decoder.byteEvent
  split
  · exact .of_eq rfl
  cases d.phase
  case header => exact .of_eq (Decoder.outputRegs_judgeHeader b (d.pushHeader b))
  case tag => exact (d.acceptPixelByte.commitsTo_takeTag b).congr rfl rfl
  case args => exact ((d.pushArg b).commitsTo_takeArgs).congr rfl rfl
  case endMark => exact .of_eq (d.outputRegs_byteEnd b)
  all_goals exact .of_eq rfl

theorem Decoder.commitsTo_transfer (d : Decoder) : d.CommitsTo d.transfer := by
  unfold Decoder.transfer
  split
  · exact .of_eq rfl
  · exact (d.commitsTo_commitPixel d.prev .run _).congr rfl (Decoder.outputRegs_closeRun _)

theorem Decoder.PassMove.commitsTo {d d' : Decoder} (h : d.PassMove d') : d.CommitsTo d' := by
  cases h with
  | header w h c cs => exact .of_eq (d.outputRegs_headerEffect w h c cs)
  | chunk i => exact d.commitsTo_itemEffect i
  | markerAbsent => exact .of_eq d.outputRegs_missMarker
  | _ => exact .of_eq rfl

/-- Only a START writes the output registers otherwise than by a commit. -/
theorem State.Move.commitsTo_or_starts {s s' : State} (h : s.Move s') :
    s.dec.CommitsTo s'.dec ∨ s.dec.startable = true ∧
      ∃ unparsed o input, s'.dec = s.dec.start Config.cacheSeed unparsed o input := by
  cases h with
  | transfer => exact .inl s.dec.commitsTo_transfer
  | byte _ _ b => exact .inl (s.dec.commitsTo_byteEvent b)
  | eoi => exact .inl (.of_eq s.dec.outputRegs_eoiEvent)
  | startDecode _ hstart _ o input => exact .inr ⟨hstart, _, o, input, rfl⟩
  | decoderPass => exact .inl s.dec.passMove_passStep.commitsTo
  | _ => exact .inl (.of_eq rfl)

theorem State.Move.commitsTo {s s' : State} (h : s.Move s') (hrunning : s.dec.startable = false) :
    s.dec.CommitsTo s'.dec :=
  h.commitsTo_or_starts.resolve_right fun hstarts => by simp [hrunning] at hstarts

/-! ## What a commit means for the streams -/

theorem Decoder.CommitsTo.opts_eq {d d' : Decoder} (h : d.CommitsTo d') : d'.opts = d.opts := by
  obtain ⟨p, type, k, n, h⟩ := h
  exact congrArg OutputRegs.opts h

/-- `PIX` and `HIST` grow with `opix` (R61, R63, R171). -/
theorem Decoder.CommitsTo.pix_hist_grow {d d' : Decoder} (h : d.CommitsTo d') :
    ∃ pixels snapshots, d'.pix = d.pix ++ pixels ∧ d'.opix = d.opix + pixels.length ∧
      d'.hist = d.hist ++ snapshots ∧
      snapshots.length = if d.opts.storeFullIndexHistory then pixels.length else 0 := by
  obtain ⟨p, type, k, n, h⟩ := h
  refine ⟨outColors d.opts.debugMode p type k n,
    if d.opts.storeFullIndexHistory then List.replicate n (d.cache.update p) else [],
    congrArg OutputRegs.pix h, ?opix, (congrArg OutputRegs.hist h).trans ?hist, ?len⟩
  case opix => rw [outColors_length]; exact congrArg OutputRegs.opix h
  case hist =>
    show (if d.opts.storeFullIndexHistory = true then d.hist ++ List.replicate n (d.cache.update p) else d.hist) = _
    split <;> simp
  case len => split <;> simp

end Sys2Proof.Machine
end

section
/-! PROOFS. During a pass the encoder keeps its options and only appends to `OUT` (R35, R37, R66), whatever state it is in; with
the commits of the decoder this settles that options are constant. -/

namespace Sys2Proof.Machine

/-- The options are kept, `i` has not moved backwards, and `OUT` has grown by as many bytes as `opos` has advanced. -/
structure Encoder.Grows (e e' : Encoder) : Prop where
  opts : e'.opts = e.opts
  i : e.i ≤ e'.i
  out : ∃ bytes, e'.out = e.out ++ bytes ∧ e'.opos = e.opos + bytes.length

theorem Encoder.Grows.refl (e : Encoder) : e.Grows e := ⟨rfl, Nat.le_refl _, [], by simp, rfl⟩

theorem Encoder.Grows.trans {e₁ e₂ e₃ : Encoder} (h : e₁.Grows e₂) (h' : e₂.Grows e₃) : e₁.Grows e₃ := by
  obtain ⟨hopts, hi, bytes, hout, hopos⟩ := h
  obtain ⟨hopts', hi', bytes', hout', hopos'⟩ := h'
  exact ⟨hopts'.trans hopts, hi.trans hi', bytes ++ bytes', by rw [hout', hout, List.append_assoc],
    by rw [hopos', hopos, List.length_append, Nat.add_assoc]⟩

theorem Encoder.grows_emit (bytes : List Byte) (e : Encoder) : e.Grows (e.emit bytes) :=
  ⟨rfl, Nat.le_refl _, bytes, rfl, rfl⟩

/-- Growth goes on through an update that keeps options and output and does not move `i` backwards. -/
theorem Encoder.Grows.keep {e e₁ e₂ : Encoder} (h : e.Grows e₁) (hopts : e₂.opts = e₁.opts) (hi : e₁.i ≤ e₂.i)
    (hout : e₂.out = e₁.out) (hopos : e₂.opos = e₁.opos) : e.Grows e₂ :=
  h.trans ⟨hopts, hi, [], by rw [hout, List.append_nil], hopos⟩

theorem Encoder.grows_flushRun (e : Encoder) : e.Grows e.flushRun := by
  unfold Encoder.flushRun
  split
  · exact (e.grows_emit _).keep rfl (Nat.le_refl _) rfl rfl
  · exact .refl e

theorem Encoder.grows_takePixel (e : Encoder) (c : Pixel) : e.Grows (e.takePixel c) := by
  unfold Encoder.takePixel
  split
  · have hcounted : e.Grows ((e.setRun (e.run + 1)).commitPixel c) :=
      (Encoder.Grows.refl e).keep rfl (Nat.le_refl _) rfl rfl
    unfold Encoder.absorb Encoder.flushFullRun
    split
    · exact hcounted.trans (Encoder.grows_flushRun _)
    · exact hcounted
  · exact (e.grows_flushRun.trans (Encoder.grows_emit _ _)).keep rfl (Nat.le_refl _) rfl rfl

theorem Encoder.grows_writeTail (e : Encoder) : e.Grows e.writeTail := by
  have hmarker : e.Grows e.writeMarker := by
    unfold Encoder.writeMarker
    split
    · exact e.grows_emit _
    · exact .refl e
  have htrailing : e.writeMarker.Grows e.writeMarker.writeTrailing := by
    unfold Encoder.writeTrailing
    split
    · exact .refl _
    · exact Encoder.grows_emit _ _
  exact (hmarker.trans htrailing).keep rfl (Nat.le_refl _) rfl rfl

theorem Encoder.grows_settle (e : Encoder) : e.Grows e.settle := by
  unfold Encoder.settle
  split
  · exact e.grows_writeTail
  · exact .refl e

theorem Encoder.grows_endOfImage (e : Encoder) : e.Grows e.endOfImage := by
  unfold Encoder.endOfImage
  split
  · exact e.grows_flushRun.keep rfl (Nat.le_refl _) rfl rfl
  · exact .refl e

theorem Encoder.grows_pixelEvent (c : Pixel) (e : Encoder) : e.Grows (e.pixelEvent c) := by
  unfold Encoder.pixelEvent
  split
  · have htaken : e.Grows ((e.takePixel c).advance 1) :=
      (e.grows_takePixel c).keep rfl (Nat.le_succ _) rfl rfl
    exact (htaken.trans (Encoder.grows_endOfImage _)).trans (Encoder.grows_settle _)
  all_goals exact .refl e

theorem Encoder.grows_passStep {e e' : Encoder} (h : e.passStep = some e') : e.Grows e' := by
  unfold Encoder.passStep at h
  cases hphase : e.phase <;> simp only [hphase] at h
  case pixels =>
    split at h
    · obtain ⟨c, ahead, -, rfl⟩ := Encoder.encodeChunk_eq h
      exact ⟨rfl, Nat.le_add_right _ _, encode (e.select c ahead), rfl, by rw [encode_length]⟩
    · cases h
      exact (Encoder.Grows.refl e).keep rfl (Nat.le_refl _) rfl rfl
  case tail => cases h; exact e.grows_writeTail
  all_goals cases h; exact .refl e

theorem State.Move.encoder_grows {s s' : State} (h : s.Move s') (hrunning : s.enc.startable = false) :
    s.enc.Grows s'.enc := by
  cases h with
  | pixel _ _ p => exact s.enc.grows_pixelEvent p
  | startEncode _ hstart => simp [hrunning] at hstart
  | encode _ hstart => simp [hrunning] at hstart
  | encoderPass _ _ e he => exact Encoder.grows_passStep he
  | _ => exact .refl s.enc

/-- Settles O59: while a pass runs, a step commits in the decoder or emits in the encoder, and neither writes an option. -/
theorem optionsConstantDuringAPass : Obligations.OptionsConstantDuringAPass := by
  intro s s' hstep
  have hmove := State.move_of_step hstep
  exact ⟨fun hdec => (hmove.commitsTo hdec).opts_eq, fun henc => (hmove.encoder_grows henc).opts⟩

end Sys2Proof.Machine
end

section
/-! PROOFS. The decoder's invariant in two parts: the output registers, which only START and a commit write, and the rest, said
phase by phase. Each operation keeps the second part; the first follows from the commits. -/

namespace Sys2Proof.Machine

/-! ## The output registers -/

/-- The part of the invariant that concerns the cache and the streams (R21, R130, R138, R61, R63). -/
structure OutputRegs.Sound (o : OutputRegs) : Prop where
  directMapped : o.cache.DirectMapped
  prevCached : o.cache.read (hash o.prev) = o.prev
  prevIsLast : o.opts.debugMode = false → o.prev = o.pix.getLastD prevInit
  pixLength : o.pix.length = o.opix
  histLength : o.opts.storeFullIndexHistory = true → o.hist.length = o.opix
  histEmpty : o.opts.storeFullIndexHistory = false → o.hist = []

theorem OutputRegs.Sound.commit {o : OutputRegs} (h : o.Sound) (p : Pixel) (type : ChunkType) (k n : Nat) :
    (o.commit p type k n).Sound := by
  cases n with
  | zero => rwa [OutputRegs.commit_zero]
  | succ n =>
    exact {
      directMapped := h.directMapped.update p
      prevCached := Cache.read_update_self o.cache p
      prevIsLast := fun hdebug => by
        have hdebug : o.opts.debugMode = false := hdebug
        simp [OutputRegs.commit, hdebug, outColors_of_not_debug, List.replicate_succ']
      pixLength := by simp [OutputRegs.commit, h.pixLength]
      histLength := fun hhist => by
        have hhist : o.opts.storeFullIndexHistory = true := hhist
        simp [OutputRegs.commit, hhist, h.histLength hhist]
      histEmpty := fun hhist => by
        have hhist : o.opts.storeFullIndexHistory = false := hhist
        simp [OutputRegs.commit, hhist, h.histEmpty hhist] }

theorem Decoder.CommitsTo.sound {d d' : Decoder} (h : d.CommitsTo d') (hs : d.outputRegs.Sound) : d'.outputRegs.Sound := by
  obtain ⟨p, type, k, n, h⟩ := h
  rw [h]
  exact hs.commit p type k n

/-- The cache is seeded with `PREV_INIT` (R134), so `prev` is in its slot from START on. -/
theorem Cache.read_initial_prevInit : (Cache.initial Config.cacheSeed).read (hash prevInit) = prevInit := by
  rw [Cache.read_initial]
  exact if_pos ⟨rfl, rfl⟩

theorem Decoder.sound_start (unparsed : HeaderRegs) (o : DecoderOptions) (input : List Byte) (d : Decoder) :
    (d.start Config.cacheSeed unparsed o input).outputRegs.Sound where
  directMapped := Cache.directMapped_initial _
  prevCached := Cache.read_initial_prevInit
  prevIsLast := fun _ => rfl
  pixLength := rfl
  histLength := fun _ => rfl
  histEmpty := fun _ => rfl

/-! ## The phases -/

/-- The pass has neither ended nor failed (R28). -/
structure Decoder.Clear (d : Decoder) : Prop where
  done : d.done = false
  error : d.error = false
  cause : d.cause = .none

/-- The header is parsed, the pixels fit into the image and no serialised run is in transfer (R105, R164, R247). -/
structure Decoder.Parsed (d : Decoder) : Prop where
  legal : fieldsLegal d.regs = true
  within : d.opix ≤ d.npix
  noRun : d.runLeft = 0

/-- A running pass between the header and the end marker, with no run in transfer: it is `Clear` and `Parsed`, and the marker
is not yet found. -/
structure Decoder.InPixels (d : Decoder) : Prop where
  done : d.done = false
  error : d.error = false
  cause : d.cause = .none
  legal : fieldsLegal d.regs = true
  within : d.opix ≤ d.npix
  noRun : d.runLeft = 0
  markerOpen : d.matched < 8

theorem Decoder.InPixels.clear {d : Decoder} (h : d.InPixels) : d.Clear := ⟨h.done, h.error, h.cause⟩

theorem Decoder.InPixels.parsed {d : Decoder} (h : d.InPixels) : d.Parsed := ⟨h.legal, h.within, h.noRun⟩

theorem Decoder.Clear.inPixels {d : Decoder} (hclear : d.Clear) (hparsed : d.Parsed) (hmarker : d.matched < 8) :
    d.InPixels :=
  ⟨hclear.done, hclear.error, hclear.cause, hparsed.legal, hparsed.within, hparsed.noRun, hmarker⟩

/-- What the invariant says in each phase, but for the output registers. -/
inductive Decoder.PhaseInv (d : Decoder) : Prop
  | idle (hphase : d.phase = .idle) (hclear : d.Clear) (hopix : d.opix = 0) (hrun : d.runLeft = 0) (hmarker : d.matched < 8)
  | header (hphase : d.phase = .header) (hclear : d.Clear) (hopix : d.opix = 0) (hrun : d.runLeft = 0)
      (hmarker : d.matched < 8) (hopen : d.hdr.length < headerLen)
      (hchannels : 13 ≤ d.hdr.length → legalChannels (d.hdr.getD 12 0) = true)
  | tag (hphase : d.phase = .tag) (h : d.InPixels)
  | transfer (hphase : d.phase = .tag) (hclear : d.Clear) (hlegal : fieldsLegal d.regs = true) (hmarker : d.matched < 8)
      (hrun : 0 < d.runLeft) (hwithin : d.opix + d.runLeft ≤ d.npix) (hport : d.serialPort = true)
      (hlength : d.runLeft ≤ runLength (d.tag.extractLsb' 0 6))
  | args (hphase : d.phase = .args) (h : d.InPixels) (hopen : d.args.length < d.need)
      (hneed : d.need = continuationBytes d.tag)
  | endMark (hphase : d.phase = .endMark) (h : d.InPixels)
  | trailing (hphase : d.phase = .trailing) (hclear : d.Clear) (hparsed : d.Parsed)
  | done (hphase : d.phase = .done) (hparsed : d.Parsed) (hdone : d.done = true) (herror : d.error = false)
      (hcause : d.cause = .none)
  | error (hphase : d.phase = .error) (hrun : d.runLeft = 0) (hmarker : d.matched < 8) (hdone : d.done = false)
      (herror : d.error = true) (hcause : d.cause ≠ .none ∧ d.cause ≠ .sizeMismatch)

theorem Decoder.Inv.sound {d : Decoder} (h : d.Inv) : d.outputRegs.Sound :=
  ⟨h.directMapped, h.prevCached, h.prevIsLast, h.pixLength, h.histLength, h.histEmpty⟩

theorem Decoder.Inv.clear {d : Decoder} (h : d.Inv) (hdone : d.phase ≠ .done) (herror : d.phase ≠ .error) : d.Clear := by
  have he : d.error = false := by simpa [herror] using h.errorFlag
  exact ⟨by simpa [hdone] using h.doneFlag, he, h.causeFlag.mpr he⟩

theorem Decoder.Inv.runLeft_eq_zero {d : Decoder} (h : d.Inv) (hphase : d.phase ≠ .tag) : d.runLeft = 0 := by
  by_contra hrun
  exact hphase (h.runInTransfer (Nat.pos_of_ne_zero hrun)).1

theorem Decoder.Inv.parsed {d : Decoder} (h : d.Inv) (hafter : d.afterHeader = true) (hrun : d.runLeft = 0) : d.Parsed :=
  ⟨h.headerLegal hafter, by simpa [hrun] using h.withinImage hafter, hrun⟩

theorem Decoder.Inv.phaseInv {d : Decoder} (h : d.Inv) : d.PhaseInv := by
  have hmarker : d.phase ≠ .trailing → d.phase ≠ .done → d.matched < 8 := fun ht hd => by simpa [ht, hd] using h.markerOpen
  cases hphase : d.phase <;> simp [hphase] at hmarker
  case idle =>
    obtain ⟨hopix, hrun⟩ := h.nothingYet (.inl hphase)
    exact .idle hphase (h.clear (by simp [hphase]) (by simp [hphase])) hopix hrun hmarker
  case header =>
    obtain ⟨hopix, hrun⟩ := h.nothingYet (.inr hphase)
    exact .header hphase (h.clear (by simp [hphase]) (by simp [hphase])) hopix hrun hmarker (h.headerOpen hphase)
      (h.headerChannels hphase)
  case tag =>
    have hclear := h.clear (by simp [hphase]) (by simp [hphase])
    have hafter : d.afterHeader = true := by simp [Decoder.afterHeader, hphase]
    rcases Nat.eq_zero_or_pos d.runLeft with hrun | hrun
    · exact .tag hphase (hclear.inPixels (h.parsed hafter hrun) hmarker)
    · obtain ⟨-, hport, hlength⟩ := h.runInTransfer hrun
      exact .transfer hphase hclear (h.headerLegal hafter) hmarker hrun (h.withinImage hafter) hport hlength
  case args =>
    obtain ⟨hopen, hneed⟩ := h.argsOpen hphase
    exact .args hphase ((h.clear (by simp [hphase]) (by simp [hphase])).inPixels
      (h.parsed (by simp [Decoder.afterHeader, hphase]) (h.runLeft_eq_zero (by simp [hphase]))) hmarker) hopen hneed
  case endMark =>
    exact .endMark hphase ((h.clear (by simp [hphase]) (by simp [hphase])).inPixels
      (h.parsed (by simp [Decoder.afterHeader, hphase]) (h.runLeft_eq_zero (by simp [hphase]))) hmarker)
  case trailing =>
    exact .trailing hphase (h.clear (by simp [hphase]) (by simp [hphase]))
      (h.parsed (by simp [Decoder.afterHeader, hphase]) (h.runLeft_eq_zero (by simp [hphase])))
  case done =>
    have herror : d.error = false := by simpa [hphase] using h.errorFlag
    exact .done hphase (h.parsed (by simp [Decoder.afterHeader, hphase]) (h.runLeft_eq_zero (by simp [hphase])))
      (h.doneFlag.mpr hphase) herror (h.causeFlag.mpr herror)
  case error =>
    have herror := h.errorFlag.mpr hphase
    exact .error hphase (h.runLeft_eq_zero (by simp [hphase])) hmarker (by simpa [hphase] using h.doneFlag) herror
      ⟨fun hc => by simp [h.causeFlag.mp hc] at herror, h.neverSizeMismatch⟩

theorem Decoder.PhaseInv.flags {d : Decoder} (h : d.PhaseInv) :
    (d.done = true ↔ d.phase = .done) ∧ (d.error = true ↔ d.phase = .error) ∧ (d.cause = .none ↔ d.error = false) ∧
      d.cause ≠ .sizeMismatch := by
  cases h with
  | done hphase _ hdone herror hcause => simp [hphase, hdone, herror, hcause]
  | error hphase _ _ hdone herror hcause => simp [hphase, hdone, herror, hcause]
  | idle hphase hclear | header hphase hclear | transfer hphase hclear | trailing hphase hclear =>
    simp [hphase, hclear.done, hclear.error, hclear.cause]
  | tag hphase h | args hphase h | endMark hphase h =>
    simp [hphase, h.done, h.error, h.cause]

theorem Decoder.PhaseInv.afterHeader {d : Decoder} (h : d.PhaseInv) (hafter : d.afterHeader = true) :
    d.opix + d.runLeft ≤ d.npix ∧ fieldsLegal d.regs = true := by
  have hparsed : d.Parsed → d.opix + d.runLeft ≤ d.npix ∧ fieldsLegal d.regs = true := fun hp =>
    ⟨by rw [hp.noRun]; exact hp.within, hp.legal⟩
  cases h with
  | idle hphase | header hphase | error hphase => simp [Decoder.afterHeader, hphase] at hafter
  | tag _ h | args _ h | endMark _ h => exact hparsed h.parsed
  | transfer _ _ hlegal _ _ hwithin => exact ⟨hwithin, hlegal⟩
  | trailing _ _ h | done _ h => exact hparsed h

theorem Decoder.PhaseInv.markerOpen {d : Decoder} (h : d.PhaseInv) :
    d.phase = .trailing ∨ d.phase = .done ∨ d.matched < 8 := by
  cases h with
  | trailing hphase => exact .inl hphase
  | done hphase => exact .inr (.inl hphase)
  | tag _ h | args _ h | endMark _ h => exact .inr (.inr h.markerOpen)
  | idle | header | transfer | error => exact .inr (.inr ‹_›)

theorem Decoder.PhaseInv.runInTransfer {d : Decoder} (h : d.PhaseInv) (hrun : 0 < d.runLeft) :
    d.phase = .tag ∧ d.serialPort = true ∧ d.runLeft ≤ runLength (d.tag.extractLsb' 0 6) := by
  have hnone : d.runLeft ≠ 0 := Nat.ne_of_gt hrun
  cases h with
  | transfer hphase _ _ _ _ _ hport hlength => exact ⟨hphase, hport, hlength⟩
  | tag _ h | args _ h | endMark _ h => exact absurd h.parsed.noRun hnone
  | trailing _ _ h | done _ h => exact absurd h.noRun hnone
  | idle | header | error => exact absurd ‹d.runLeft = 0› hnone

/-- In each phase the clauses about the other phases hold of nothing, and its own are what `PhaseInv` says there. -/
theorem Decoder.inv_of_phaseInv {d : Decoder} (hs : d.outputRegs.Sound) (h : d.PhaseInv) : d.Inv := by
  obtain ⟨hdone, herror, hcause, hsize⟩ := h.flags
  exact {
    directMapped := hs.directMapped
    prevCached := hs.prevCached
    prevIsLast := hs.prevIsLast
    pixLength := hs.pixLength
    histLength := hs.histLength
    histEmpty := hs.histEmpty
    nothingYet := by cases h <;> simp_all
    withinImage := fun hafter => (h.afterHeader hafter).1
    headerLegal := fun hafter => (h.afterHeader hafter).2
    doneFlag := hdone
    errorFlag := herror
    causeFlag := hcause
    neverSizeMismatch := hsize
    headerOpen := by cases h <;> simp_all
    headerChannels := by cases h <;> simp_all
    argsOpen := by cases h <;> simp_all
    markerOpen := h.markerOpen
    runInTransfer := h.runInTransfer }

end Sys2Proof.Machine
end

section
/-! PROOFS. The byte-serial decoder keeps the phases' part of the invariant (spec/43_streaming_fsm.md R241 to R247). -/

namespace Sys2Proof.Machine

/-- A decoder fed byte by byte: in TAG and ARGS at least one more pixel is expected, or `next_phase` would have gone to END (R243). -/
structure Decoder.SerialInv (d : Decoder) : Prop where
  phaseInv : d.PhaseInv
  chunkExpected : d.phase = .tag ∨ d.phase = .args → d.opix < d.npix

/-- Outside TAG and ARGS nothing is expected. -/
theorem Decoder.PhaseInv.serialInv {d : Decoder} (p : DecoderPhase) (h : d.PhaseInv) (hphase : d.phase = p)
    (hp : p ≠ .tag ∧ p ≠ .args) : d.SerialInv :=
  ⟨h, fun hpixel => absurd hpixel (by simp [hphase, hp])⟩

/-! ## Raising and ending -/

theorem Decoder.phaseInv_raise {d : Decoder} (hdone : d.done = false) (hrun : d.runLeft = 0) (hmarker : d.matched < 8)
    {c : Cause} (hc : c ≠ .none ∧ c ≠ .sizeMismatch) : (d.raise c).PhaseInv :=
  .error rfl hrun hmarker hdone rfl hc

theorem Decoder.serialInv_raise {d : Decoder} (hdone : d.done = false) (hrun : d.runLeft = 0) (hmarker : d.matched < 8)
    {c : Cause} (hc : c ≠ .none ∧ c ≠ .sizeMismatch) : (d.raise c).SerialInv :=
  (Decoder.phaseInv_raise hdone hrun hmarker hc).serialInv .error rfl (by decide)

theorem Decoder.InPixels.serialInv_raise {d : Decoder} (h : d.InPixels) {c : Cause}
    (hc : c ≠ .none ∧ c ≠ .sizeMismatch) : (d.raise c).SerialInv :=
  Decoder.serialInv_raise h.done h.noRun h.markerOpen hc

theorem Decoder.phaseInv_finish {d : Decoder} (hclear : d.Clear) (hparsed : d.Parsed) : d.finish.PhaseInv :=
  .done rfl ⟨hparsed.legal, hparsed.within, hparsed.noRun⟩ rfl hclear.error hclear.cause

/-! ## The chunks -/

/-- A chunk whose first pixel is still expected keeps the pass between header and end marker, or is a run too long (R164). -/
theorem Decoder.InPixels.inPixels_itemEffect {d : Decoder} (h : d.InPixels) (hmore : d.opix < d.npix) {i : Instr} {type : ChunkType}
    (htype : i.chunkType = some type) :
    ((itemEffect i d).InPixels ∧ (itemEffect i d).phase = d.phase ∧ (itemEffect i d).ipos = d.ipos + i.byteLength ∧
      (itemEffect i d).trail = d.trail ∧ (itemEffect i d).input = d.input) ∨
    itemEffect i d = d.raise .runOverrun := by
  rcases itemEffect_chunk i d type htype with ⟨p, n, heffect, hsingle, hrun⟩ | ⟨-, heffect⟩
  · left
    have hfits : d.opix + (n + 1) ≤ d.npix := by
      by_cases hr : type = .run
      · exact (hrun hr).2
      · rw [hsingle hr]
        exact hmore
    rw [heffect, Decoder.commit_eq]
    exact ⟨{ h with within := hfits }, rfl, rfl, rfl, rfl⟩
  · exact .inr heffect

/-- `next_phase()` goes to END exactly when no more pixel is expected (R243). -/
theorem Decoder.InPixels.serialInv_nextPhase {d : Decoder} (h : d.InPixels) : d.nextPhase.SerialInv := by
  have hnext : d.nextPhase = { d with phase := if d.opix = d.npix then .endMark else .tag } :=
    if_neg (by simp [h.error])
  have hkeep (p : DecoderPhase) : Decoder.InPixels { d with phase := p } := { h with }
  rw [hnext]
  split
  · exact Decoder.PhaseInv.serialInv .endMark (.endMark rfl (hkeep .endMark)) rfl (by decide)
  · next hne => exact ⟨.tag rfl (hkeep .tag), fun _ => Nat.lt_of_le_of_ne h.within hne⟩

theorem Decoder.InPixels.serialInv_completeChunk {d : Decoder} (h : d.InPixels) (hmore : d.opix < d.npix) {t : Byte}
    {args : List Byte} (hargs : args.length = continuationBytes t) : (d.completeChunk (t :: args)).SerialInv := by
  obtain ⟨i, hdecode, htype, -⟩ := decodeChunk_of_le (Nat.le_of_eq hargs.symm)
  simp only [Decoder.completeChunk, hdecode]
  rcases h.inPixels_itemEffect hmore htype with ⟨hin, -⟩ | hraise
  · exact Decoder.InPixels.serialInv_nextPhase { hin with }
  · rw [hraise]
    exact h.serialInv_raise (c := .runOverrun) (by decide)

theorem Decoder.InPixels.serialInv_takeTag {d : Decoder} (h : d.InPixels) (hphase : d.phase = .tag) (hmore : d.opix < d.npix)
    (t : Byte) : (d.takeTag t).SerialInv := by
  unfold Decoder.takeTag
  split
  · next hlong =>
    exact ⟨.args rfl { h with } (Nat.pos_of_ne_zero hlong) rfl, fun _ => hmore⟩
  split
  · next hport =>
    unfold Decoder.loadRun
    split
    · exact h.serialInv_raise (by decide)
    · next hfits =>
      have hserial : d.serialPort = true := (Bool.and_eq_true_iff.mp hport).1
      exact ⟨.transfer hphase ⟨h.done, h.error, h.cause⟩ h.legal h.markerOpen (Nat.succ_pos _)
        (Nat.le_of_not_lt hfits) hserial (Nat.le_refl _), fun _ => hmore⟩
  · next hshort _ => exact h.serialInv_completeChunk hmore (of_not_not hshort).symm

theorem Decoder.InPixels.serialInv_takeArgs {d : Decoder} (h : d.InPixels) (hphase : d.phase = .args) (hmore : d.opix < d.npix)
    (hopen : d.args.length ≤ d.need) (hneed : d.need = continuationBytes d.tag) : d.takeArgs.SerialInv := by
  unfold Decoder.takeArgs
  split
  · next hall => exact h.serialInv_completeChunk hmore (hall.trans hneed)
  · next hnot => exact ⟨.args hphase h (Nat.lt_of_le_of_ne hopen hnot) hneed, fun _ => hmore⟩

/-! ## The header -/

theorem fieldsLegal_headerFields_append {hdr : List Byte} {b : Byte} (hlen : hdr.length = 13)
    (hchannels : legalChannels (hdr.getD 12 0) = true) (hcolorspace : legalColorspace b = true) :
    fieldsLegal (headerFields (hdr ++ [b])) = true := by
  have hc : (hdr ++ [b]).getD 12 0 = hdr.getD 12 0 := by
    simp [List.getD_eq_getElem?_getD, List.getElem?_append_left (show 12 < hdr.length by omega)]
  have hs : (hdr ++ [b]).getD 13 0 = b := by
    simp [List.getD_eq_getElem?_getD, hlen]
  simp only [fieldsLegal, headerFields, hc, hs, hchannels, hcolorspace, Bool.and_self]

/-- A complete legal header goes to END when the image has no pixel, else to TAG (R242). -/
theorem Decoder.serialInv_latchHeader {d : Decoder} (hclear : d.Clear) (hopix : d.opix = 0) (hrun : d.runLeft = 0)
    (hmarker : d.matched < 8) {regs : HeaderRegs} (hlegal : fieldsLegal regs = true) : (d.latchHeader regs).SerialInv := by
  have hin (p : DecoderPhase) : Decoder.InPixels { d with regs := regs, phase := p } :=
    { hclear with legal := hlegal, within := hopix ▸ Nat.zero_le _, noRun := hrun, markerOpen := hmarker }
  unfold Decoder.latchHeader
  split
  · exact Decoder.PhaseInv.serialInv .endMark (.endMark rfl (hin .endMark)) rfl (by decide)
  · next hpixels => exact ⟨.tag rfl (hin .tag), fun _ => hopix ▸ Nat.pos_of_ne_zero hpixels⟩

theorem Decoder.serialInv_byteHeader {d : Decoder} (hphase : d.phase = .header) (hclear : d.Clear) (hopix : d.opix = 0)
    (hrun : d.runLeft = 0) (hmarker : d.matched < 8) (hopen : d.hdr.length < headerLen)
    (hchannels : 13 ≤ d.hdr.length → legalChannels (d.hdr.getD 12 0) = true) (b : Byte) :
    (d.byteHeader b).SerialInv := by
  have hclear' : (d.pushHeader b).Clear := { hclear with }
  have hraise {c : Cause} (hc : c ≠ .none ∧ c ≠ .sizeMismatch) : ((d.pushHeader b).raise c).SerialInv :=
    Decoder.serialInv_raise hclear'.done hrun hmarker hc
  have hlen : (d.pushHeader b).hdr.length = d.hdr.length + 1 := by simp
  have hopen' : d.hdr.length < 14 := hopen
  unfold Decoder.byteHeader Decoder.judgeHeader
  split
  · exact hraise (by decide)
  split
  · exact hraise (by decide)
  split
  · next hfull =>
    have h13 : d.hdr.length = 13 := by omega
    split
    · exact hraise (by decide)
    · next hcolorspace =>
      exact Decoder.serialInv_latchHeader hclear' hopix hrun hmarker
        (fieldsLegal_headerFields_append h13 (hchannels (Nat.le_of_eq h13.symm)) (Bool.of_not_eq_false hcolorspace))
  · next hlegal hmore =>
    refine Decoder.PhaseInv.serialInv .header (.header hphase hclear' hopix hrun hmarker ?hopen ?hchannels) hphase
      (by decide)
    case hopen =>
      show (d.pushHeader b).hdr.length < 14
      omega
    case hchannels =>
      intro h13
      have h12 : d.hdr.length = 12 := by omega
      have hb : legalChannels b = true := by simpa [h12] using hlegal
      simpa [h12] using hb

/-! ## The marker and the trailing data -/

/-- The marker is absent: with the marker required the pass fails, else the trailing data is next (R245, R167). -/
theorem Decoder.InPixels.serialInv_breakMarker {d : Decoder} (h : d.InPixels) (held : List Byte) :
    (d.breakMarker held).SerialInv := by
  unfold Decoder.breakMarker
  split
  · exact Decoder.serialInv_raise (d := d.setEndTag false) h.done h.noRun h.markerOpen (by decide)
  · exact Decoder.PhaseInv.serialInv .trailing (.trailing rfl { h with } { h with }) rfl (by decide)

theorem Decoder.InPixels.serialInv_byteEnd {d : Decoder} (h : d.InPixels) (hphase : d.phase = .endMark) (b : Byte) :
    (d.byteEnd b).SerialInv := by
  unfold Decoder.byteEnd
  split
  · unfold Decoder.matchMarker
    split
    · exact Decoder.PhaseInv.serialInv .trailing (.trailing rfl { h with } { h with }) rfl (by decide)
    · next hlast =>
      have hopen : d.matched + 1 < 8 := Nat.lt_of_le_of_ne h.markerOpen fun heq => hlast (Nat.succ.inj heq)
      exact Decoder.PhaseInv.serialInv .endMark (.endMark hphase { h with markerOpen := hopen }) hphase (by decide)
  · exact Decoder.InPixels.serialInv_breakMarker (d := d.accept) { h with } _

theorem Decoder.serialInv_finish {d : Decoder} (hclear : d.Clear) (hparsed : d.Parsed) : d.finish.SerialInv :=
  (Decoder.phaseInv_finish hclear hparsed).serialInv .done rfl (by decide)

theorem Decoder.InPixels.serialInv_eoiWithoutMarker {d : Decoder} (h : d.InPixels) (held : List Byte) :
    (d.eoiWithoutMarker held).SerialInv := by
  unfold Decoder.eoiWithoutMarker
  split
  · exact Decoder.serialInv_raise (d := d.setEndTag false) h.done h.noRun h.markerOpen (by decide)
  · exact Decoder.serialInv_finish { h with } { h with }

/-! ## The events -/

theorem Decoder.SerialInv.byteEvent {d : Decoder} (h : d.SerialInv) (b : Byte) : (d.byteEvent b).SerialInv := by
  unfold Decoder.byteEvent
  split
  · exact h
  have hmore := h.chunkExpected
  cases h.phaseInv with
  | header hphase hclear hopix hrun hmarker hopen hchannels =>
    rw [hphase]
    exact Decoder.serialInv_byteHeader hphase hclear hopix hrun hmarker hopen hchannels b
  | tag hphase hin =>
    rw [hphase]
    exact Decoder.InPixels.serialInv_takeTag (d := d.acceptPixelByte) { hin with } hphase (hmore (.inl hphase)) b
  | transfer _ _ _ _ hrun => exact absurd hrun (by omega)
  | args hphase hin hopen hneed =>
    rw [hphase]
    have hopen' : (d.pushArg b).args.length ≤ (d.pushArg b).need := by simpa using hopen
    exact Decoder.InPixels.serialInv_takeArgs (d := d.pushArg b) { hin with } hphase (hmore (.inr hphase)) hopen' hneed
  | endMark hphase hin =>
    rw [hphase]
    exact hin.serialInv_byteEnd hphase b
  | trailing hphase hclear hparsed =>
    rw [hphase]
    exact Decoder.PhaseInv.serialInv .trailing (.trailing hphase { hclear with } { hparsed with }) hphase (by decide)
  | idle hphase | done hphase | error hphase => rw [hphase]; exact h

theorem Decoder.SerialInv.eoiEvent {d : Decoder} (h : d.SerialInv) : d.eoiEvent.SerialInv := by
  unfold Decoder.eoiEvent
  split
  · exact h
  cases h.phaseInv with
  | header hphase hclear _ hrun hmarker =>
    rw [hphase]
    exact Decoder.serialInv_raise hclear.done hrun hmarker (by decide)
  | tag hphase hin => rw [hphase]; exact hin.serialInv_eoiWithoutMarker _
  | transfer _ _ _ _ hrun => exact absurd hrun (by omega)
  | args hphase hin => rw [hphase]; exact hin.serialInv_raise (by decide)
  | endMark hphase hin => rw [hphase]; exact hin.serialInv_eoiWithoutMarker _
  | trailing hphase hclear hparsed => rw [hphase]; exact Decoder.serialInv_finish hclear hparsed
  | idle hphase | done hphase | error hphase => rw [hphase]; exact h

/-- Only in TAG is a run in transfer; its last pixel is followed by `next_phase()` (R247). -/
theorem Decoder.SerialInv.transfer {d : Decoder} (h : d.SerialInv) : d.transfer.SerialInv := by
  unfold Decoder.transfer
  split
  · exact h
  next hdue =>
  cases h.phaseInv with
  | transfer hphase hclear hlegal hmarker hrun hwithin hport hlength =>
    unfold Decoder.closeRun
    split
    · next hlast =>
      refine Decoder.InPixels.serialInv_nextPhase
        { hclear with legal := hlegal, within := ?_, noRun := hlast, markerOpen := hmarker }
      show d.opix + 1 ≤ d.npix
      omega
    · next hmore =>
      have hmore : d.runLeft - 1 ≠ 0 := hmore
      refine ⟨.transfer hphase { hclear with } hlegal hmarker (Nat.pos_of_ne_zero hmore) ?_ hport
        ((Nat.sub_le _ _).trans hlength), fun _ => ?_⟩
      · show d.opix + 1 + (d.runLeft - 1) ≤ d.npix
        omega
      · show d.opix + 1 < d.npix
        omega
  | tag _ hin | args _ hin | endMark _ hin => exact absurd hin.noRun hdue
  | trailing _ _ hparsed | done _ hparsed => exact absurd hparsed.noRun hdue
  | idle | header | error => exact absurd ‹d.runLeft = 0› hdue

theorem Decoder.phaseInv_start (seed : Bool) (unparsed : HeaderRegs) (o : DecoderOptions) (input : List Byte)
    (d : Decoder) : (d.start seed unparsed o input).PhaseInv :=
  .header rfl ⟨rfl, rfl, rfl⟩ rfl rfl (Nat.succ_pos 7) (Nat.succ_pos 13) (fun h => absurd h (Nat.not_succ_le_zero 12))

end Sys2Proof.Machine
end

section
/-! PROOFS. A decode pass over a whole input keeps its invariant, and in either way of decoding `ipos` and `TRAIL` only grow
(spec/41_decoder.md R150 to R168, spec/20_memory.md R62). -/

namespace Sys2Proof.Machine

/-- A decode pass over a whole input: it reads inside the input, uses no byte-serial register and writes `TRAIL` at its end. -/
structure Decoder.PassInv (d : Decoder) : Prop where
  phaseInv : d.PhaseInv
  iposInside : d.ipos ≤ d.input.length
  notArgs : d.phase ≠ .args
  noRun : d.runLeft = 0
  headerFirst : d.phase = .header → d.ipos = 0
  trailUnwritten : d.startable = false → d.trail = []

theorem Decoder.PassInv.inPixels {d : Decoder} (h : d.PassInv) (hphase : d.phase = .tag ∨ d.phase = .endMark) :
    d.InPixels := by
  cases h.phaseInv with
  | tag _ hin | endMark _ hin => exact hin
  | transfer _ _ _ _ hrun => exact absurd h.noRun (Nat.ne_of_gt hrun)
  | _ => simp_all

theorem Decoder.startable_eq_false_iff (d : Decoder) :
    d.startable = false ↔ d.phase ≠ .idle ∧ d.phase ≠ .done ∧ d.phase ≠ .error := by
  simp [Decoder.startable, and_assoc]

/-- A START with a whole input stands before its first byte (R43, R150). -/
theorem Decoder.passInv_start (seed : Bool) (unparsed : HeaderRegs) (o : DecoderOptions) (input : List Byte)
    (d : Decoder) : (d.start seed unparsed o input).PassInv where
  phaseInv := d.phaseInv_start seed unparsed o input
  iposInside := Nat.zero_le _
  notArgs := by simp [Decoder.start]
  noRun := rfl
  headerFirst := fun _ => rfl
  trailUnwritten := fun _ => rfl

/-- After its end a pass is bound by no clause about the items still to be read. -/
theorem Decoder.passInv_of_ended {d : Decoder} (h : d.PhaseInv) (hipos : d.ipos ≤ d.input.length)
    (hover : d.phase = .done ∨ d.phase = .error) : d.PassInv where
  phaseInv := h
  iposInside := hipos
  notArgs := by rcases hover with hp | hp <;> simp [hp]
  noRun := by cases h <;> simp_all [Decoder.Parsed.noRun]
  headerFirst := by rcases hover with hp | hp <;> simp [hp]
  trailUnwritten := by rcases hover with hp | hp <;> simp [Decoder.startable, hp]

/-- A pass between its header and its end. -/
theorem Decoder.InPixels.passInv {d : Decoder} (h : d.InPixels) (hphase : d.phase = .tag ∨ d.phase = .endMark)
    (hipos : d.ipos ≤ d.input.length) (htrail : d.trail = []) : d.PassInv where
  phaseInv := hphase.elim (.tag · h) (.endMark · h)
  iposInside := hipos
  notArgs := by rcases hphase with hp | hp <;> simp [hp]
  noRun := h.noRun
  headerFirst := by rcases hphase with hp | hp <;> simp [hp]
  trailUnwritten := fun _ => htrail

theorem Decoder.passInv_trailing {d : Decoder} (hphase : d.phase = .trailing) (hclear : d.Clear) (hparsed : d.Parsed)
    (hipos : d.ipos ≤ d.input.length) (htrail : d.trail = []) : d.PassInv where
  phaseInv := .trailing hphase hclear hparsed
  iposInside := hipos
  notArgs := by simp [hphase]
  noRun := hparsed.noRun
  headerFirst := by simp [hphase]
  trailUnwritten := fun _ => htrail

/-- Between two items `TRAIL` is still empty (R62). -/
theorem Decoder.PassInv.trail_eq_nil {d : Decoder} (h : d.PassInv) {p : DecoderPhase} (hphase : d.phase = p)
    (hp : p ≠ .idle ∧ p ≠ .done ∧ p ≠ .error) : d.trail = [] :=
  h.trailUnwritten (d.startable_eq_false_iff.mpr (by rwa [hphase]))

/-- The header: written and legal, or the pass has failed (R151). -/
theorem Decoder.PassInv.passInv_headerEffect {d : Decoder} (h : d.PassInv) (hphase : d.phase = .header)
    (hlen : d.ipos + headerLen ≤ d.input.length) (w ht : U32) (c cs : Byte) : (headerEffect w ht c cs d).PassInv := by
  have hipos := h.headerFirst hphase
  cases h.phaseInv with
  | header _ hclear hopix hrun hmarker =>
    rcases headerEffect_cases w ht c cs d with ⟨-, heffect⟩ | ⟨-, -, heffect⟩ | ⟨hc, hcs, heffect⟩ <;> rw [heffect]
    · exact Decoder.passInv_of_ended (.error rfl hrun hmarker hclear.done rfl (by simp)) h.iposInside (.inr rfl)
    · exact Decoder.passInv_of_ended (.error rfl hrun hmarker hclear.done rfl (by simp)) h.iposInside (.inr rfl)
    · have hlegal : fieldsLegal ⟨w, ht, c, cs⟩ = true := by simp [fieldsLegal, hc, hcs]
      have hlen : headerLen ≤ d.input.length := by omega
      refine Decoder.InPixels.passInv { hclear with legal := hlegal, within := ?_, noRun := hrun, markerOpen := hmarker }
        (.inl rfl) hlen (h.trail_eq_nil hphase (by decide))
      rw [hopix]
      exact Nat.zero_le _
  | _ => simp_all

theorem Decoder.PassInv.passMove {d d' : Decoder} (h : d.PassInv) (hmove : d.PassMove d') : d'.PassInv := by
  cases hmove with
  | header w ht c cs hphase hlen => exact h.passInv_headerEffect hphase hlen w ht c cs
  | chunk i type hphase hmore htype hlen =>
    have hin := h.inPixels (.inl hphase)
    rcases hin.inPixels_itemEffect hmore htype with ⟨hin', hphase', hipos', htrail', hinput'⟩ | hraise
    · exact hin'.passInv (.inl (hphase'.trans hphase)) (by rw [hipos', hinput']; exact hlen)
        (htrail'.trans (h.trail_eq_nil hphase (by decide)))
    · rw [hraise]
      exact Decoder.passInv_of_ended
        (Decoder.phaseInv_raise hin.done hin.noRun hin.markerOpen (c := .runOverrun) (by decide)) h.iposInside (.inr rfl)
  | fail c hphase hc =>
    have hfail (hclear : d.Clear) (hmarker : d.matched < 8) : (d.failReading c).PassInv :=
      Decoder.passInv_of_ended (.error rfl h.noRun hmarker hclear.done rfl hc) h.iposInside (.inr rfl)
    cases h.phaseInv with
    | header _ hclear _ _ hmarker => exact hfail hclear hmarker
    | tag _ hin => exact hfail hin.clear hin.markerOpen
    | transfer _ hclear _ hmarker => exact hfail hclear hmarker
    | _ => simp_all
  | loopEnd hphase =>
    exact Decoder.InPixels.passInv { h.inPixels (.inl hphase) with } (.inr rfl) h.iposInside
      (h.trail_eq_nil hphase (by decide))
  | marker hphase hlen =>
    have hin := h.inPixels (.inr hphase)
    exact Decoder.passInv_trailing rfl { hin with } { hin with } hlen (h.trail_eq_nil hphase (by decide))
  | markerAbsent hphase =>
    have hin := h.inPixels (.inr hphase)
    unfold Decoder.missMarker
    split
    · exact Decoder.passInv_of_ended
        (Decoder.phaseInv_raise (d := d.setEndTag false) hin.done hin.noRun hin.markerOpen (by decide)) h.iposInside (.inr rfl)
    · exact Decoder.passInv_trailing rfl { hin with } { hin with } h.iposInside (h.trail_eq_nil hphase (by decide))
  | copyTrailing hphase =>
    cases h.phaseInv with
    | trailing _ hclear hparsed =>
      exact Decoder.passInv_of_ended (.done rfl { hparsed with } rfl hclear.error hclear.cause) (Nat.le_refl _) (.inl rfl)
    | _ => simp_all
  | rest => exact h

theorem Decoder.fetch_ne_rest (sec : StreamSection) (d : Decoder) : d.fetch sec ≠ .rest := by
  unfold Decoder.fetch
  split
  · simp
  · next r _ => cases r <;> simp [rejectAction]

/-- A pass does not rest in its chunk loop (R155). -/
theorem Decoder.phase_ne_tag_of_rest {d : Decoder} (hrest : d.nextAction = .rest) : d.phase ≠ .tag := by
  intro hphase
  simp only [Decoder.nextAction, hphase] at hrest
  split at hrest
  · exact d.fetch_ne_rest .chunks hrest
  · cases hrest

/-- A pass that rests is over, and the byte-serial invariant holds for the host's next event. -/
theorem Decoder.PassInv.serialInv_of_rest {d : Decoder} (h : d.PassInv) (hrest : d.nextAction = .rest) : d.SerialInv :=
  h.phaseInv.serialInv d.phase rfl ⟨Decoder.phase_ne_tag_of_rest hrest, h.notArgs⟩

/-! ## The cursor and the trailing data -/

/-- `ipos` and `TRAIL` together. -/
def Decoder.cursorAndTrail (d : Decoder) : Nat × List Byte := (d.ipos, d.trail)

/-- `ipos` has not moved backwards and `TRAIL` has been appended to, in END and TRAILING only (R26, R62). -/
structure Decoder.InputGrows (d d' : Decoder) : Prop where
  ipos : d.ipos ≤ d'.ipos
  trail : ∃ bytes, d'.trail = d.trail ++ bytes
  trailKept : d.phase ≠ .endMark → d.phase ≠ .trailing → d'.trail = d.trail

theorem Decoder.InputGrows.of_trail_eq {d d' : Decoder} (hipos : d.ipos ≤ d'.ipos) (htrail : d'.trail = d.trail) :
    d.InputGrows d' := ⟨hipos, ⟨[], by simp [htrail]⟩, fun _ _ => htrail⟩

theorem Decoder.InputGrows.of_appended {d d' : Decoder} (hipos : d.ipos ≤ d'.ipos) {bytes : List Byte}
    (htrail : d'.trail = d.trail ++ bytes) (hphase : d.phase = .endMark ∨ d.phase = .trailing) : d.InputGrows d' :=
  ⟨hipos, ⟨bytes, htrail⟩, fun hend htrailing => absurd hphase (not_or.mpr ⟨hend, htrailing⟩)⟩

theorem Decoder.InputGrows.of_kept {d d' : Decoder} (h : d'.cursorAndTrail = d.cursorAndTrail) : d.InputGrows d' :=
  .of_trail_eq (Nat.le_of_eq (congrArg Prod.fst h).symm) (congrArg Prod.snd h)

/-- What an accepted byte does afterwards leaves the cursor where it is. -/
theorem Decoder.InputGrows.of_accepted {d d₁ d' : Decoder} (h : d'.cursorAndTrail = d₁.cursorAndTrail)
    (hipos : d₁.ipos = d.ipos + 1) (htrail : d₁.trail = d.trail) : d.InputGrows d' :=
  .of_trail_eq (by rw [show d'.ipos = d₁.ipos from congrArg Prod.fst h, hipos]; exact Nat.le_succ _)
    ((congrArg Prod.snd h).trans htrail)

theorem Decoder.cursorAndTrail_nextPhase (d : Decoder) : d.nextPhase.cursorAndTrail = d.cursorAndTrail := by
  unfold Decoder.nextPhase
  split <;> rfl

theorem Decoder.cursorAndTrail_judgeHeader (b : Byte) (d : Decoder) :
    (d.judgeHeader b).cursorAndTrail = d.cursorAndTrail := by
  unfold Decoder.judgeHeader
  repeat' split
  all_goals rfl

/-- No item writes `TRAIL` (R168). -/
theorem Decoder.trail_itemEffect (i : Instr) (d : Decoder) : (itemEffect i d).trail = d.trail := by
  cases htype : i.chunkType with
  | some type =>
    rcases itemEffect_chunk i d type htype with ⟨p, n, heffect, -⟩ | ⟨-, heffect⟩ <;> rw [heffect]
    · rw [Decoder.commit_eq]
      rfl
    · rfl
  | none =>
    cases i with
    | header w h c cs =>
      rcases headerEffect_cases w h c cs d with ⟨-, heffect⟩ | ⟨-, -, heffect⟩ | ⟨-, -, heffect⟩ <;>
        simp only [itemEffect, heffect]
    | endMarker => rfl
    | _ => cases htype

theorem Decoder.cursorAndTrail_completeChunk (bytes : List Byte) (d : Decoder) :
    (d.completeChunk bytes).cursorAndTrail = d.cursorAndTrail := by
  unfold Decoder.completeChunk
  split
  · next i _ _ =>
    rw [Decoder.cursorAndTrail_nextPhase]
    exact Prod.ext rfl (d.trail_itemEffect i)
  · rfl

theorem Decoder.cursorAndTrail_takeTag (t : Byte) (d : Decoder) : (d.takeTag t).cursorAndTrail = d.cursorAndTrail := by
  unfold Decoder.takeTag Decoder.loadRun
  repeat' split
  case isFalse.isFalse => exact d.cursorAndTrail_completeChunk [t]
  all_goals rfl

theorem Decoder.cursorAndTrail_takeArgs (d : Decoder) : d.takeArgs.cursorAndTrail = d.cursorAndTrail := by
  unfold Decoder.takeArgs
  split
  · exact d.cursorAndTrail_completeChunk _
  · rfl

theorem Decoder.inputGrows_byteEnd {d : Decoder} (hphase : d.phase = .endMark) (b : Byte) : d.InputGrows (d.byteEnd b) := by
  unfold Decoder.byteEnd Decoder.matchMarker Decoder.breakMarker
  repeat' split
  case isFalse.isFalse => exact .of_appended (Nat.le_succ _) rfl (.inl hphase)
  all_goals exact .of_trail_eq (Nat.le_succ _) rfl

theorem Decoder.inputGrows_byteEvent (b : Byte) (d : Decoder) : d.InputGrows (d.byteEvent b) := by
  unfold Decoder.byteEvent
  split
  · exact .of_kept rfl
  cases hphase : d.phase
  case header => exact .of_accepted ((d.pushHeader b).cursorAndTrail_judgeHeader b) rfl rfl
  case tag => exact .of_accepted (d.acceptPixelByte.cursorAndTrail_takeTag b) rfl rfl
  case args => exact .of_accepted (d.pushArg b).cursorAndTrail_takeArgs rfl rfl
  case endMark => exact Decoder.inputGrows_byteEnd hphase b
  case trailing => exact .of_appended (Nat.le_succ _) rfl (.inr hphase)
  all_goals exact .of_kept rfl

theorem Decoder.inputGrows_eoiEvent (d : Decoder) : d.InputGrows d.eoiEvent := by
  unfold Decoder.eoiEvent
  split
  · exact .of_kept rfl
  cases hphase : d.phase
  case tag =>
    simp only [Decoder.eoiWithoutMarker]
    split
    · exact .of_kept rfl
    · exact .of_trail_eq (Nat.le_refl _) (List.append_nil _)
  case endMark =>
    simp only [Decoder.eoiWithoutMarker]
    split
    · exact .of_kept rfl
    · exact .of_appended (Nat.le_refl _) rfl (.inl hphase)
  all_goals exact .of_kept rfl

theorem Decoder.inputGrows_transfer (d : Decoder) : d.InputGrows d.transfer := by
  unfold Decoder.transfer Decoder.closeRun
  repeat' split
  case isFalse.isTrue => exact .of_kept (Decoder.cursorAndTrail_nextPhase _)
  all_goals exact .of_kept rfl

theorem Decoder.PassInv.inputGrows {d d' : Decoder} (h : d.PassInv) (hmove : d.PassMove d') : d.InputGrows d' := by
  cases hmove with
  | header w ht c cs hphase =>
    rw [show headerEffect w ht c cs d = itemEffect (.header w ht c cs) d from rfl]
    exact .of_trail_eq (by rw [h.headerFirst hphase]; exact Nat.zero_le _) (d.trail_itemEffect _)
  | chunk i type hphase hmore htype =>
    rcases (h.inPixels (.inl hphase)).inPixels_itemEffect hmore htype with ⟨-, -, hipos, htrail, -⟩ | hraise
    · exact .of_trail_eq (by rw [hipos]; exact Nat.le_add_right _ _) htrail
    · rw [hraise]
      exact .of_kept rfl
  | marker => exact .of_trail_eq (Nat.le_add_right _ _) rfl
  | markerAbsent =>
    unfold Decoder.missMarker
    split <;> exact .of_kept rfl
  | copyTrailing hphase =>
    have hnil := h.trail_eq_nil hphase (by decide)
    exact .of_appended (bytes := d.input.drop d.ipos) h.iposInside (by rw [hnil]; rfl) (.inr hphase)
  | fail | loopEnd | rest => exact .of_kept rfl

end Sys2Proof.Machine
end

section
/-! PROOFS. The encoder's invariant (spec/42_encoder.md R193 to R209, spec/43_streaming_fsm.md R250 to R253): while pixels are
taken the output stays within 14 + 5k bytes after k pixels, a pending run counted as one byte. -/

namespace Sys2Proof.Machine

/-- A pass whose output is not yet closed, in PIXELS or TAIL. -/
structure Encoder.Coding (e : Encoder) : Prop where
  directMapped : e.cache.DirectMapped
  prevCached : e.cache.read (hash e.prev) = e.prev
  outLength : e.out.length = e.opos
  runShort : e.run < runMax
  withinImage : e.i ≤ e.npix
  notDone : e.done = false
  legal : fieldsLegal e.regs = true
  size : e.out.length + min e.run 1 ≤ headerLen + 5 * e.i

theorem Encoder.Inv.coding {e : Encoder} (h : e.Inv) (hphase : e.phase = .pixels ∨ e.phase = .tail) : e.Coding where
  directMapped := h.directMapped
  prevCached := h.prevCached
  outLength := h.outLength
  runShort := h.runShort
  withinImage := h.withinImage
  notDone := by
    have hnot : e.phase ≠ .done := by rcases hphase with hp | hp <;> simp [hp]
    simpa [hnot] using h.doneFlag
  legal := h.headerLegal (by rcases hphase with hp | hp <;> simp [hp])
  size := h.sizeInPixels hphase

/-- In TAIL no run is pending any more (R252). -/
theorem Encoder.Coding.inv {e : Encoder} (h : e.Coding) (hphase : e.phase = .pixels ∨ e.phase = .tail ∧ e.run = 0) :
    e.Inv where
  directMapped := h.directMapped
  prevCached := h.prevCached
  outLength := h.outLength
  runShort := h.runShort
  runPending := fun hrun => hphase.resolve_right fun htail => Nat.ne_of_gt hrun htail.2
  withinImage := h.withinImage
  doneFlag := by
    rcases hphase with hp | ⟨hp, -⟩ <;> simp [h.notDone, hp]
  headerLegal := fun _ => h.legal
  sizeInPixels := fun _ => h.size
  sizeAtEnd := fun hdone => by
    rcases hphase with hp | ⟨hp, -⟩ <;> simp [hp] at hdone

theorem Encoder.Grows.outLength {e e' : Encoder} (h : e.Grows e') (hlen : e.out.length = e.opos) :
    e'.out.length = e'.opos := by
  obtain ⟨bytes, hout, hopos⟩ := h.out
  rw [hout, hopos, List.length_append, hlen]

/-! ## START -/

/-- A START whose two enum fields are legal begins a pass within its bounds (R43, R190, R191). -/
theorem Encoder.coding_start {o : EncoderOptions} {regs : HeaderRegs} (pixels : List Pixel) (trailing : List Byte)
    (hlegal : fieldsLegal regs = true) : (Encoder.start Config.cacheSeed o regs pixels trailing).Coding where
  directMapped := Cache.directMapped_initial _
  prevCached := Cache.read_initial_prevInit
  outLength := rfl
  runShort := Nat.succ_pos _
  withinImage := Nat.zero_le _
  notDone := rfl
  legal := hlegal
  size := Nat.le_refl _

theorem Encoder.start_phase (seed : Bool) (o : EncoderOptions) (regs : HeaderRegs) (pixels : List Pixel)
    (trailing : List Byte) :
    (Encoder.start seed o regs pixels trailing).phase = if regs.npix = 0 then .tail else .pixels := rfl

/-! ## One pixel -/

theorem Encoder.Coding.flushRun {e : Encoder} (h : e.Coding) : e.flushRun.Coding := by
  have hlen := e.grows_flushRun.outLength h.outLength
  have hsize := h.size
  revert hlen
  unfold Encoder.flushRun
  split
  · next hrun =>
    intro hlen
    refine { h with outLength := hlen, runShort := Nat.succ_pos _, size := ?_ }
    show (e.out ++ encode (runChunk e.run)).length + min 0 1 ≤ headerLen + 5 * e.i
    rw [List.length_append, encode_length]
    show e.out.length + 1 + 0 ≤ headerLen + 5 * e.i
    omega
  · exact fun _ => h

@[simp] theorem Encoder.flushRun_run (e : Encoder) : e.flushRun.run = 0 := by
  unfold Encoder.flushRun
  split
  · rfl
  · omega

theorem Encoder.flushRun_frame (e : Encoder) :
    e.flushRun.i = e.i ∧ e.flushRun.npix = e.npix ∧ e.flushRun.phase = e.phase := by
  unfold Encoder.flushRun
  split <;> exact ⟨rfl, rfl, rfl⟩

theorem Encoder.takePixel_phase (e : Encoder) (c : Pixel) : (e.takePixel c).phase = e.phase := by
  unfold Encoder.takePixel Encoder.absorb Encoder.flushFullRun
  repeat' split
  case isTrue.isTrue => exact (Encoder.flushRun_frame _).2.2
  case isTrue.isFalse => rfl
  case isFalse => exact e.flushRun_frame.2.2

/-- No chunk is longer than five bytes (R93). -/
theorem Encoder.selectSingle_byteLength_le (e : Encoder) (c : Pixel) : (e.selectSingle c).byteLength ≤ 5 := by
  obtain ⟨type, htype, -⟩ := e.selectSingle_type c
  exact (chunk_byteLength _ type htype).2

/-- A pixel of cases 2 to 7 costs at most five bytes (R251). -/
theorem Encoder.Coding.emitPixel {e : Encoder} (h : e.Coding) (hmore : e.i < e.npix) (c : Pixel) :
    ((e.emitPixel c).advance 1).Coding := by
  refine { h with
    directMapped := h.directMapped.update c
    prevCached := Cache.read_update_self e.cache c
    outLength := (e.grows_emit _).outLength h.outLength
    withinImage := hmore
    size := ?_ }
  have hsize := h.size
  have hchunk := e.selectSingle_byteLength_le c
  show (e.out ++ encode (e.selectSingle c)).length + min e.run 1 ≤ headerLen + 5 * (e.i + 1)
  rw [List.length_append, encode_length]
  omega

/-- A pixel equal to `prev` lengthens the pending run, and one of 62 is written out (R251). -/
theorem Encoder.Coding.absorb {e : Encoder} (h : e.Coding) (hmore : e.i < e.npix) (c : Pixel) :
    ((e.absorb c).advance 1).Coding := by
  have hshort := h.runShort
  have hsize := h.size
  unfold Encoder.absorb Encoder.flushFullRun
  split
  · have hflush (f : Encoder) (hf : f.run = e.run + 1) : f.flushRun = (f.emitItem (runChunk f.run)).setRun 0 :=
      if_pos (by rw [hf]; exact Nat.succ_pos _)
    rw [hflush _ rfl]
    refine { h with
      directMapped := h.directMapped.update c
      prevCached := Cache.read_update_self e.cache c
      outLength := (e.grows_emit _).outLength h.outLength
      runShort := Nat.succ_pos _
      withinImage := hmore
      size := ?_ }
    show (e.out ++ encode (runChunk (e.run + 1))).length + min 0 1 ≤ headerLen + 5 * (e.i + 1)
    rw [List.length_append, encode_length]
    show e.out.length + 1 + 0 ≤ headerLen + 5 * (e.i + 1)
    omega
  · next hnot =>
    refine { h with
      directMapped := h.directMapped.update c
      prevCached := Cache.read_update_self e.cache c
      runShort := Nat.lt_of_le_of_ne hshort hnot
      withinImage := hmore
      size := ?_ }
    show e.out.length + min (e.run + 1) 1 ≤ headerLen + 5 * (e.i + 1)
    omega

theorem Encoder.Coding.takePixel {e : Encoder} (h : e.Coding) (hmore : e.i < e.npix) (c : Pixel) :
    ((e.takePixel c).advance 1).Coding := by
  unfold Encoder.takePixel
  split
  · exact h.absorb hmore c
  · obtain ⟨hi, hnpix, -⟩ := e.flushRun_frame
    exact h.flushRun.emitPixel (by rw [hi, hnpix]; exact hmore) c

/-! ## One turn over a whole Image -/

theorem foldl_update_directMapped {cache : Cache} (h : cache.DirectMapped) (ps : List Pixel) :
    (ps.foldl Cache.update cache).DirectMapped := by
  induction ps generalizing cache with
  | nil => exact h
  | cons p ps ih => exact ih (h.update p)

/-- The last pixel committed is in its slot (R206). -/
theorem foldl_update_prevCached {cache : Cache} {prev : Pixel} (h : cache.read (hash prev) = prev) (ps : List Pixel) :
    (ps.foldl Cache.update cache).read (hash (ps.getLastD prev)) = ps.getLastD prev := by
  induction ps generalizing cache prev with
  | nil => exact h
  | cons p ps ih =>
    rw [List.getLastD_cons]
    exact ih (Cache.read_update_self cache p)

/-- A chunk covers at least one pixel and none beyond the image (R193, R198). -/
theorem Encoder.covered_bounds {e : Encoder} (hmore : e.i < e.npix) (c : Pixel) (ahead : List Pixel) :
    0 < e.covered c ahead ∧ e.i + e.covered c ahead ≤ e.npix := by
  unfold Encoder.covered
  split
  · next hrun =>
    obtain rfl : c = e.prev := by simpa using (Bool.and_eq_true_iff.mp hrun).2
    have hle := runAhead_le_limit e.prev (min runMax (e.npix - e.i)) (e.prev :: ahead)
    have hlimit : 0 < min runMax (e.npix - e.i) := lt_min (Nat.succ_pos _) (Nat.sub_pos_of_lt hmore)
    exact ⟨runAhead_pos hlimit ahead, by omega⟩
  · exact ⟨Nat.one_pos, hmore⟩

theorem Encoder.select_byteLength_le (e : Encoder) (c : Pixel) (ahead : List Pixel) :
    (e.select c ahead).byteLength ≤ 5 := by
  unfold Encoder.select
  split
  · exact Nat.le_add_left 1 4
  · exact e.selectSingle_byteLength_le c

theorem Encoder.Coding.encodeChunk {e e' : Encoder} (h : e.Coding) (hmore : e.i < e.npix) (he : e.encodeChunk = some e') :
    e'.Coding := by
  obtain ⟨c, ahead, -, rfl⟩ := Encoder.encodeChunk_eq he
  obtain ⟨hpos, hwithin⟩ := Encoder.covered_bounds hmore c ahead
  refine { h with
    directMapped := foldl_update_directMapped h.directMapped _
    prevCached := foldl_update_prevCached h.prevCached _
    outLength := by rw [List.length_append, encode_length, h.outLength]
    withinImage := hwithin
    size := ?_ }
  have hsize := h.size
  have hchunk := e.select_byteLength_le c ahead
  rw [List.length_append, encode_length]
  show e.out.length + (e.select c ahead).byteLength + min e.run 1 ≤ headerLen + 5 * (e.i + e.covered c ahead)
  omega

/-! ## TAIL and the end of the image -/

/-- What TAIL writes (R207, R208). -/
def Encoder.tailBytes (e : Encoder) : List Byte :=
  (if e.opts.insertEndTag then endMarkerBytes else []) ++ (if e.opts.stripTrailingData then [] else e.trailing)

theorem Encoder.tailBytes_length_le (e : Encoder) : e.tailBytes.length ≤ 8 + e.trailing.length := by
  unfold Encoder.tailBytes
  split <;> split <;> simp only [endMarkerBytes, List.length_append, List.length_cons, List.length_nil] <;> omega

theorem Encoder.writeTail_eq (e : Encoder) :
    e.writeTail =
      { e with out := e.out ++ e.tailBytes, opos := e.opos + e.tailBytes.length, phase := .done, done := true } := by
  unfold Encoder.writeTail Encoder.writeMarker
  cases hmarker : e.opts.insertEndTag <;> cases hstrip : e.opts.stripTrailingData <;>
    simp [Encoder.writeTrailing, Encoder.tailBytes, Encoder.finish, Encoder.emitItem, Encoder.emit, encode, hmarker, hstrip,
      Nat.add_assoc]

/-- TAIL ends within the worst case of the whole output (R209). -/
theorem Encoder.Coding.inv_writeTail {e : Encoder} (h : e.Coding) (hrun : e.run = 0) : e.writeTail.Inv := by
  have hlen := e.grows_writeTail.outLength h.outLength
  rw [Encoder.writeTail_eq] at hlen ⊢
  exact {
    directMapped := h.directMapped
    prevCached := h.prevCached
    outLength := hlen
    runShort := h.runShort
    runPending := fun hpending => absurd hrun (Nat.ne_of_gt hpending)
    withinImage := h.withinImage
    doneFlag := by simp
    headerLegal := fun _ => h.legal
    sizeInPixels := by simp
    sizeAtEnd := fun _ => by
      have hsize := h.size
      have htail := e.tailBytes_length_le
      have hwithin := h.withinImage
      show (e.out ++ e.tailBytes).length ≤ headerLen + 8 + 5 * e.npix + e.trailing.length
      rw [List.length_append]
      omega }

/-! ## The two kinds of pass -/

/-- An encoder fed pixel by pixel: in PIXELS a pixel is expected, and TAIL is left in the step that enters it (R251, R252). -/
structure Encoder.SerialInv (e : Encoder) : Prop where
  inv : e.Inv
  pixelsExpected : e.phase = .pixels → e.i < e.npix
  tailLeft : e.phase ≠ .tail

/-- An encode pass over a whole Image has all its pixels and no run pending (R45, R193). -/
structure Encoder.ImageInv (e : Encoder) : Prop where
  inv : e.Inv
  wholeImage : e.pixels.length = e.npix
  noRun : e.run = 0

theorem Encoder.serialInv_of_startable {e : Encoder} (h : e.Inv) (hover : e.startable = true) : e.SerialInv := by
  have hphase : e.phase = .idle ∨ e.phase = .done := by simpa [Encoder.startable] using hover
  exact ⟨h, by rcases hphase with hp | hp <;> simp [hp], by rcases hphase with hp | hp <;> simp [hp]⟩

/-- TAIL is left at once (R252). -/
theorem Encoder.Coding.serialInv_settle {e : Encoder} (h : e.Coding)
    (hphase : e.phase = .pixels ∧ e.i < e.npix ∨ e.phase = .tail ∧ e.run = 0) : e.settle.SerialInv := by
  unfold Encoder.settle
  rcases hphase with ⟨hpixels, hmore⟩ | ⟨htail, hrun⟩
  · rw [if_neg (by simp [hpixels])]
    exact ⟨h.inv (.inl hpixels), fun _ => hmore, by simp [hpixels]⟩
  · rw [if_pos htail]
    exact Encoder.serialInv_of_startable (h.inv_writeTail hrun) (by rw [Encoder.writeTail_eq]; rfl)

theorem Encoder.serialInv_start_settle {o : EncoderOptions} {regs : HeaderRegs} (trailing : List Byte)
    (hlegal : fieldsLegal regs = true) : (Encoder.start Config.cacheSeed o regs [] trailing).settle.SerialInv := by
  refine (Encoder.coding_start [] trailing hlegal).serialInv_settle ?_
  rw [Encoder.start_phase]
  rcases Nat.eq_zero_or_pos regs.npix with hzero | hpos
  · exact .inr ⟨if_pos hzero, rfl⟩
  · exact .inl ⟨if_neg (Nat.ne_of_gt hpos), hpos⟩

theorem Encoder.imageInv_start {o : EncoderOptions} {x : Image} (hlegal : fieldsLegal x.regs = true)
    (hsize : x.pixels.length = x.regs.npix) :
    (Encoder.start Config.cacheSeed o x.regs x.pixels x.trailing).ImageInv := by
  refine ⟨(Encoder.coding_start x.pixels x.trailing hlegal).inv ?_, hsize, rfl⟩
  rw [Encoder.start_phase]
  split
  · exact .inr ⟨rfl, rfl⟩
  · exact .inl rfl

theorem Encoder.SerialInv.pixelEvent {e : Encoder} (h : e.SerialInv) (c : Pixel) : (e.pixelEvent c).SerialInv := by
  unfold Encoder.pixelEvent
  cases hphase : e.phase
  case pixels =>
    have hcoding := (h.inv.coding (.inl hphase)).takePixel (h.pixelsExpected hphase) c
    have hpixels : ((e.takePixel c).advance 1).phase = .pixels := (e.takePixel_phase c).trans hphase
    simp only [Encoder.endOfImage]
    split
    · exact Encoder.Coding.serialInv_settle { hcoding.flushRun with } (.inr ⟨rfl, Encoder.flushRun_run _⟩)
    · next hmore => exact hcoding.serialInv_settle (.inl ⟨hpixels, Nat.lt_of_le_of_ne hcoding.withinImage hmore⟩)
  all_goals exact h

theorem Encoder.ImageInv.passStep {e e' : Encoder} (h : e.ImageInv) (he : e.passStep = some e') : e'.ImageInv := by
  unfold Encoder.passStep at he
  cases hphase : e.phase <;> simp only [hphase] at he
  case pixels =>
    have hcoding := h.inv.coding (.inl hphase)
    split at he
    · next hmore =>
      have hcoding' := hcoding.encodeChunk hmore he
      obtain ⟨c, ahead, -, rfl⟩ := Encoder.encodeChunk_eq he
      exact ⟨hcoding'.inv (.inl hphase), h.wholeImage, h.noRun⟩
    · cases he
      exact ⟨Encoder.Coding.inv { hcoding with } (.inr ⟨rfl, h.noRun⟩), h.wholeImage, h.noRun⟩
  case tail =>
    cases he
    have hinv := (h.inv.coding (.inr hphase)).inv_writeTail h.noRun
    rw [Encoder.writeTail_eq] at hinv ⊢
    exact ⟨hinv, h.wholeImage, h.noRun⟩
  all_goals cases he; exact h

end Sys2Proof.Machine
end

section
/-! PROOFS. The machine's invariant is kept by every step, and the streams only grow during a pass. -/

namespace Sys2Proof.Machine

/-! ## The invariant, block by block -/

theorem State.Inv.dec_serialInv {s : State} (h : s.Inv) (hagent : s.agent ≠ .decoder) : s.dec.SerialInv :=
  ⟨h.decoder.phaseInv, h.chunkExpected hagent⟩

theorem State.Inv.dec_passInv {s : State} (h : s.Inv) (hagent : s.agent = .decoder) : s.dec.PassInv := by
  obtain ⟨hipos, hargs, hrun, hfirst⟩ := h.wholeInput hagent
  exact ⟨h.decoder.phaseInv, hipos, hargs, hrun, hfirst, h.trailUnwritten hagent⟩

theorem State.Inv.enc_serialInv {s : State} (h : s.Inv) (hagent : s.agent ≠ .encoder) : s.enc.SerialInv :=
  ⟨h.encoder, h.pixelsExpected hagent, h.tailLeft hagent⟩

theorem State.Inv.enc_imageInv {s : State} (h : s.Inv) (hagent : s.agent = .encoder) : s.enc.ImageInv := by
  obtain ⟨hpixels, hrun⟩ := h.wholeImage hagent
  exact ⟨h.encoder, hpixels, hrun⟩

/-- The decoder's part: the whole-input form while it runs such a pass, the byte-serial form otherwise. -/
def State.DecInv (s : State) : Prop :=
  (s.agent ≠ .decoder → s.dec.SerialInv) ∧ (s.agent = .decoder → s.dec.PassInv)

/-- The encoder's part: the whole-Image form while it runs such a pass, the pixel-serial form otherwise. -/
def State.EncInv (s : State) : Prop :=
  (s.agent ≠ .encoder → s.enc.SerialInv) ∧ (s.agent = .encoder → s.enc.ImageInv)

theorem State.Inv.decInv {s : State} (h : s.Inv) : s.DecInv := ⟨h.dec_serialInv, h.dec_passInv⟩

theorem State.Inv.encInv {s : State} (h : s.Inv) : s.EncInv := ⟨h.enc_serialInv, h.enc_imageInv⟩

theorem State.inv_of_blocks {s : State} (hs : s.dec.outputRegs.Sound) (hdec : s.DecInv) (henc : s.EncInv) : s.Inv where
  decoder := by
    by_cases hagent : s.agent = .decoder
    · exact Decoder.inv_of_phaseInv hs (hdec.2 hagent).phaseInv
    · exact Decoder.inv_of_phaseInv hs (hdec.1 hagent).phaseInv
  encoder := by
    by_cases hagent : s.agent = .encoder
    · exact (henc.2 hagent).inv
    · exact (henc.1 hagent).inv
  wholeInput := fun hagent =>
    let hpass := hdec.2 hagent
    ⟨hpass.iposInside, hpass.notArgs, hpass.noRun, hpass.headerFirst⟩
  trailUnwritten := fun hagent => (hdec.2 hagent).trailUnwritten
  chunkExpected := fun hagent => (hdec.1 hagent).chunkExpected
  wholeImage := fun hagent => ⟨(henc.2 hagent).wholeImage, (henc.2 hagent).noRun⟩
  pixelsExpected := fun hagent => (henc.1 hagent).pixelsExpected
  tailLeft := fun hagent => (henc.1 hagent).tailLeft

/-! ## Every step keeps it -/

theorem State.DecInv.serial {s : State} (hagent : s.agent ≠ .decoder) (h : s.dec.SerialInv) : s.DecInv :=
  ⟨fun _ => h, fun hdec => absurd hdec hagent⟩

theorem State.DecInv.pass {s : State} (hagent : s.agent = .decoder) (h : s.dec.PassInv) : s.DecInv :=
  ⟨fun hdec => absurd hagent hdec, fun _ => h⟩

theorem State.EncInv.serial {s : State} (hagent : s.agent ≠ .encoder) (h : s.enc.SerialInv) : s.EncInv :=
  ⟨fun _ => h, fun henc => absurd henc hagent⟩

theorem State.EncInv.image {s : State} (hagent : s.agent = .encoder) (h : s.enc.ImageInv) : s.EncInv :=
  ⟨fun henc => absurd hagent henc, fun _ => h⟩

theorem State.Inv.decInv_move {s s' : State} (h : s.Inv) (hmove : s.Move s') : s'.DecInv := by
  have hhost (hagent : s.agent = .host) : s.dec.SerialInv := h.dec_serialInv (by simp [hagent])
  cases hmove with
  | transfer hagent => exact .serial (by simp [hagent]) (hhost hagent).transfer
  | byte hagent later b => exact .serial (by simp [hagent]) ((hhost hagent).byteEvent b)
  | eoi hagent later => exact .serial (by simp [hagent]) (hhost hagent).eoiEvent
  | startDecode hagent hstart later o input next hnext =>
    cases next with
    | encoder => exact absurd rfl hnext
    | decoder => exact .pass rfl (s.dec.passInv_start _ _ o input)
    | host => exact .serial (by simp) ((s.dec.phaseInv_start _ _ o input).serialInv .header rfl (by decide))
  | decoderPass hagent => exact .pass hagent ((h.dec_passInv hagent).passMove s.dec.passMove_passStep)
  | decoderRests hagent hrest => exact .serial (by simp) ((h.dec_passInv hagent).serialInv_of_rest hrest)
  | encode hagent => exact .serial (by simp) (hhost hagent)
  | encoderRests hagent => exact .serial (by simp) (h.dec_serialInv (by simp [hagent]))
  | ignore | pixel | startEncode | encoderPass => exact h.decInv

theorem State.Inv.encInv_move {s s' : State} (h : s.Inv) (hmove : s.Move s') : s'.EncInv := by
  have hhost (hagent : s.agent = .host) : s.enc.SerialInv := h.enc_serialInv (by simp [hagent])
  cases hmove with
  | pixel hagent later p => exact .serial (by simp [hagent]) ((hhost hagent).pixelEvent p)
  | startEncode hagent hstart later o regs trailing hlegal =>
    exact .serial (by simp [hagent]) (Encoder.serialInv_start_settle trailing hlegal)
  | encode hagent hstart later o x hlegal hsize => exact .image rfl (Encoder.imageInv_start hlegal hsize)
  | encoderPass hagent hrunning e he => exact .image hagent ((h.enc_imageInv hagent).passStep he)
  | encoderRests hagent hover => exact .serial (by simp) (Encoder.serialInv_of_startable h.encoder hover)
  | startDecode hagent hstart later o input next hnext => exact .serial hnext (hhost hagent)
  | decoderRests hagent => exact .serial (by simp) (h.enc_serialInv (by simp [hagent]))
  | transfer | ignore | byte | eoi | decoderPass => exact h.encInv

theorem State.Inv.sound_move {s s' : State} (h : s.Inv) (hmove : s.Move s') : s'.dec.outputRegs.Sound := by
  rcases hmove.commitsTo_or_starts with hcommits | ⟨-, unparsed, o, input, hstart⟩
  · exact hcommits.sound h.decoder.sound
  · rw [hstart]
    exact s.dec.sound_start unparsed o input

theorem State.Inv.move {s s' : State} (h : s.Inv) (hmove : s.Move s') : s'.Inv :=
  State.inv_of_blocks (h.sound_move hmove) (h.decInv_move hmove) (h.encInv_move hmove)

/-- The canonical form of the streams is part of the invariant (R61, R63, R66). -/
theorem State.Inv.memory_wf {s : State} (h : s.Inv) : Memory.wf s = true :=
  (Memory.wf_iff s).mpr ⟨h.decoder.pixLength, h.decoder.histLength, h.decoder.histEmpty, h.encoder.outLength⟩

/-- Settles O56: each block keeps its part of the invariant in the form that fits who runs it. -/
theorem stepKeepsTheInvariant : Obligations.StepKeepsTheInvariant := by
  intro s s' h hstep
  have hinv := h.move (State.move_of_step hstep)
  exact ⟨hinv, hinv.memory_wf⟩

/-! ## The streams during a pass -/

theorem State.Inv.inputGrows_move {s s' : State} (h : s.Inv) (hmove : s.Move s') (hrunning : s.dec.startable = false) :
    s.dec.InputGrows s'.dec := by
  cases hmove with
  | transfer => exact s.dec.inputGrows_transfer
  | byte _ _ b => exact s.dec.inputGrows_byteEvent b
  | eoi => exact s.dec.inputGrows_eoiEvent
  | startDecode _ hstart => simp [hrunning] at hstart
  | decoderPass hagent => exact (h.dec_passInv hagent).inputGrows s.dec.passMove_passStep
  | _ => exact .of_kept rfl

/-- Settles O60: the decoder's output grows by commits, its input side by what a phase reads, the encoder's by what it emits. -/
theorem outputsOnlyGrow : Obligations.OutputsOnlyGrow := by
  intro s s' h hstep
  have hmove := State.move_of_step hstep
  refine ⟨fun hdec => ?_, fun henc => ?_⟩
  · obtain ⟨hipos, htrail, hkept⟩ := h.inputGrows_move hmove hdec
    exact ⟨hipos, (hmove.commitsTo hdec).pix_hist_grow, htrail, hkept⟩
  · obtain ⟨-, hi, hout⟩ := hmove.encoder_grows henc
    exact ⟨hi, hout⟩

/-! ## Reset and START -/

theorem Encoder.inv_reset : Encoder.reset.Inv where
  directMapped := Cache.directMapped_initial _
  prevCached := Cache.read_initial_prevInit
  outLength := rfl
  runShort := by decide
  runPending := by decide
  withinImage := Nat.le_refl _
  doneFlag := by decide
  headerLegal := fun hphase => absurd rfl hphase
  sizeInPixels := by decide
  sizeAtEnd := fun hdone => absurd hdone (by decide)

theorem Decoder.phaseInv_reset : Decoder.reset.PhaseInv :=
  .idle rfl ⟨rfl, rfl, rfl⟩ rfl rfl (Nat.succ_pos 7)

/-- After reset the output registers hold the START values (R43; log entry 1). -/
theorem Decoder.sound_reset : Decoder.reset.outputRegs.Sound := Decoder.sound_start default {} [] Decoder.reset

/-- Settles O55: both blocks are idle, and the output registers are those of a START. -/
theorem resetMeetsTheInvariant : Obligations.ResetMeetsTheInvariant :=
  State.inv_of_blocks Decoder.sound_reset
    (.serial (by decide) (Decoder.phaseInv_reset.serialInv .idle rfl (by decide)))
    (.serial (by decide) (Encoder.serialInv_of_startable Encoder.inv_reset rfl))

/-- The seeded slot is number 53, the hash of `PREV_INIT` (R134). -/
theorem Cache.read_initial_53 (seed : Bool) (k : BitVec 6) :
    (Cache.initial seed).read k = if seed = true ∧ k = 53#6 then prevInit else zeroPixel := by
  rw [Cache.read_initial, hash_prevInit]
  simp only [eq_comm (a := 53#6)]

/-- Settles O2: the registers are those of the reset table by definition, the cache is read slot by slot. -/
theorem startResetsEveryRegister : Obligations.StartResetsEveryRegister :=
  ⟨fun seed _ _ _ _ => ⟨rfl, Cache.read_initial_53 seed⟩, fun seed _ _ _ _ => ⟨rfl, Cache.read_initial_53 seed⟩⟩

/-! ## Errors and ended passes -/

/-- Outside a pass the decoder ignores data events (R248, U14). -/
theorem Decoder.ignores_data_of_startable {d : Decoder} (h : d.startable = true) (b : Byte) :
    d.byteEvent b = d ∧ d.eoiEvent = d := by
  have hphase : (d.phase = .idle ∨ d.phase = .done) ∨ d.phase = .error := by simpa [Decoder.startable] using h
  rcases hphase with (hp | hp) | hp <;> simp [Decoder.byteEvent, Decoder.eoiEvent, hp]

theorem Encoder.pixelEvent_of_phase_ne {e : Encoder} (h : e.phase ≠ .pixels) (p : Pixel) : e.pixelEvent p = e := by
  unfold Encoder.pixelEvent
  cases hphase : e.phase
  case pixels => exact absurd hphase h
  all_goals rfl

/-- Settles O5: outside a pass data events are ignored; START clears the error; the codes are R271's. -/
theorem errorIsSticky : Obligations.ErrorIsSticky := by
  refine ⟨fun d b hphase => Decoder.ignores_data_of_startable ?ended b, fun e p => (Encoder.pixelEvent_of_phase_ne · p),
    fun seed unparsed o input d herror => ⟨by simp [Decoder.startable, herror], rfl, rfl, rfl⟩, ?codes⟩
  case ended => rcases hphase with hp | hp | hp <;> simp [Decoder.startable, hp]
  case codes => intro c; cases c <;> rfl

end Sys2Proof.Machine
end

section
/-! PROOFS. The result of a pass depends on its options and its input alone (spec/10_state.md R42): the port strap is never read in
a pass over a whole input, and the header registers are overwritten by the first step, or the pass fails in it. -/

namespace Sys2Proof.Machine

/-- The same decoder behind another pixel port. -/
def Decoder.onPort (port : Bool) (d : Decoder) : Decoder := { d with serialPort := port }

/-- The same decoder with other header registers. -/
def Decoder.withRegs (regs : HeaderRegs) (d : Decoder) : Decoder := { d with regs := regs }

/-! ## The port -/

theorem Decoder.commit_onPort (port : Bool) (p : Pixel) (n : Nat) (type : ChunkType) (d : Decoder) :
    (d.onPort port).commit p n type = (d.commit p n type).onPort port := by
  simp only [Decoder.commit, Decoder.commitPixels_eq]
  rfl

theorem itemEffect_onPort (i : Instr) (port : Bool) (d : Decoder) :
    itemEffect i (d.onPort port) = (itemEffect i d).onPort port := by
  cases i with
  | run len1 =>
    simp only [itemEffect, runEffect]
    rw [apply_ite (Decoder.onPort port)]
    exact if_congr Iff.rfl rfl (Decoder.commit_onPort port d.prev _ .run (d.advance 1))
  | header w h c cs =>
    simp only [itemEffect, headerEffect, apply_ite (Decoder.onPort port)]
    rfl
  | _ => rfl

theorem Decoder.control_onPort (a : DecoderAction) (port : Bool) (d : Decoder) :
    (d.onPort port).control a = (d.control a).onPort port := by
  cases a with
  | markerAbsent =>
    simp only [Decoder.control, Decoder.missMarker, apply_ite (Decoder.onPort port)]
    rfl
  | _ => rfl

theorem Decoder.passStep_onPort (port : Bool) (d : Decoder) : (d.onPort port).passStep = d.passStep.onPort port := by
  have hnext : (d.onPort port).nextAction = d.nextAction := rfl
  unfold Decoder.passStep
  rw [hnext]
  cases d.nextAction with
  | item i => exact itemEffect_onPort i port d
  | _ => exact Decoder.control_onPort _ port d

theorem Decoder.runPass_onPort (n : Nat) (port : Bool) (d : Decoder) :
    (d.onPort port).runPass n = (d.runPass n).onPort port := by
  induction n generalizing d with
  | zero => rfl
  | succ n ih =>
    rw [Decoder.runPass, Decoder.passStep_onPort, ih]
    rfl

theorem Decoder.result_onPort (port : Bool) (d : Decoder) : (d.onPort port).result = d.result := rfl

/-! ## The header registers -/

/-- A pass that has failed with a cause. -/
structure Decoder.Failed (c : Cause) (d : Decoder) : Prop where
  phase : d.phase = .error
  error : d.error = true
  cause : d.cause = c

theorem Decoder.Failed.result_runPass {d : Decoder} {c : Cause} (h : d.Failed c) (n : Nat) :
    (d.runPass n).result = some (.error c) := by
  have hstay : d.passStep = d := Decoder.passStep_of_rest (by simp [Decoder.nextAction, h.phase])
  induction n with
  | zero => simp [Decoder.runPass, Decoder.result, h.error, h.cause]
  | succ n ih => rw [Decoder.runPass, hstay, ih]

theorem Decoder.headerEffect_withRegs (w h : U32) (c cs : Byte) (regs : HeaderRegs) (d : Decoder) :
    headerEffect w h c cs (d.withRegs regs) = headerEffect w h c cs d ∨
    ∃ cause, (headerEffect w h c cs (d.withRegs regs)).Failed cause ∧ (headerEffect w h c cs d).Failed cause := by
  unfold headerEffect
  split
  · exact .inr ⟨.badChannels, ⟨rfl, rfl, rfl⟩, ⟨rfl, rfl, rfl⟩⟩
  split
  · exact .inr ⟨.badColorspace, ⟨rfl, rfl, rfl⟩, ⟨rfl, rfl, rfl⟩⟩
  · exact .inl rfl

/-- Reading the header overwrites all four registers or fails, with the same cause whatever they held (R151, R272 to R275). -/
theorem Decoder.passStep_withRegs_of_header {d : Decoder} (hphase : d.phase = .header) (regs : HeaderRegs) :
    (d.withRegs regs).passStep = d.passStep ∨
    ∃ cause, (d.withRegs regs).passStep.Failed cause ∧ d.passStep.Failed cause := by
  have hfetch (f : Decoder) (hf : f.phase = .header) : f.nextAction = f.fetch .header := by simp [Decoder.nextAction, hf]
  rw [Decoder.passStep_of_fetch (hfetch d hphase), Decoder.passStep_of_fetch (hfetch (d.withRegs regs) hphase)]
  rw [show (d.withRegs regs).input.drop (d.withRegs regs).ipos = d.input.drop d.ipos from rfl]
  cases hr : decode .header (d.input.drop d.ipos) with
  | ok r =>
    obtain ⟨⟨w, h, c, cs, hi⟩, -⟩ := decodeHeader_ok (i := r.1) (rest := r.2) hr
    simp only [hi]
    exact d.headerEffect_withRegs w h c cs regs
  | error r =>
    cases r with
    | notMarker => exact absurd rfl (decodeHeader_error hr)
    | _ => exact .inr ⟨_, ⟨rfl, rfl, rfl⟩, ⟨rfl, rfl, rfl⟩⟩

theorem Decoder.result_runPass_withRegs {d : Decoder} (hphase : d.phase = .header) (regs : HeaderRegs) (n : Nat) :
    ((d.withRegs regs).runPass (n + 1)).result = (d.runPass (n + 1)).result := by
  rw [Decoder.runPass, Decoder.runPass]
  rcases Decoder.passStep_withRegs_of_header hphase regs with hsame | ⟨cause, hfailed, hfailed'⟩
  · rw [hsame]
  · rw [hfailed.result_runPass, hfailed'.result_runPass]

/-- The result of a pass over a whole input, whatever the decoder and its header registers held before (R42). -/
theorem decodeFinal_result_eq (seed : Bool) (unparsed unparsed' : HeaderRegs) (o : DecoderOptions) (input : List Byte)
    (d d' : Decoder) : (decodeFinal seed unparsed o input d).result = (decodeFinal seed unparsed' o input d').result := by
  have hstart : d.start seed unparsed o input =
      ((d'.start seed unparsed' o input).withRegs unparsed).onPort d.serialPort := rfl
  unfold decodeFinal
  rw [hstart, Decoder.runPass_onPort, Decoder.result_onPort]
  exact Decoder.result_runPass_withRegs rfl unparsed (input.length + 3)

/-! ## The encoder's START -/

theorem Image.valid_iff (x : Image) : x.valid = true ↔ fieldsLegal x.regs = true ∧ x.pixels.length = x.regs.npix := by
  simp [Image.valid]

/-- An encode START of a valid Image that is accepted leaves nothing of the old encoder (R43, R190). -/
theorem step_encode {s : State} {o : EncoderOptions} {x : Image} {later : List Event} (hagent : s.agent = .host)
    (hrun : s.dec.runLeft = 0) (hstart : s.enc.startable = true) (hvalid : x.valid = true)
    (hpending : s.pending = .encode o x :: later) :
    step s = .next (({ s with pending := later }.setEnc
      (Encoder.start Config.cacheSeed o x.regs x.pixels x.trailing)).setAgent .encoder) := by
  obtain ⟨hlegal, hsize⟩ := (Image.valid_iff x).mp hvalid
  simp [step, hagent, hostStep, hrun, hpending, deliver, hstart, hlegal, hsize]

/-- Settles O3: START and the header leave nothing of the earlier pass, and DONE ignores data events. -/
theorem noStateSurvivesAPass : Obligations.NoStateSurvivesAPass := by
  refine ⟨decodeFinal_result_eq, ?encode, fun d b hdone => ?ended⟩
  case encode =>
    intro s s' o x later later' hagent hagent' hrun hrun' hstart hstart' hvalid hpending hpending'
    exact ⟨_, _, step_encode hagent hrun hstart hvalid hpending, step_encode hagent' hrun' hstart' hvalid hpending', rfl⟩
  case ended => exact Decoder.ignores_data_of_startable (by simp [Decoder.startable, hdone]) b

end Sys2Proof.Machine
end

section
/-! PROOFS. Decoder and encoder of the items are inverse to each other, and the tag byte decides the chunk
(spec/30_encoding.md R90 to R103, R109). -/

namespace Sys2Proof

/-! ## Words and tag bytes put together again -/

/-- The bytes of the word that four bytes are read as, compared bit by bit (R68). -/
theorem be32Bytes_be32 (b0 b1 b2 b3 : Byte) : be32Bytes (be32 b0 b1 b2 b3) = [b0, b1, b2, b3] := by
  simp only [be32Bytes, be32, List.cons.injEq, and_true]
  refine ⟨?_, ?_, ?_, ?_⟩ <;> apply BitVec.eq_of_getLsbD_eq <;> grind

theorem indexTag_append_low6 {t : Byte} (h : dispatchTag t = .index) : (0b00#2 ++ t.extractLsb' 0 6 : BitVec 8) = t := by
  decide +revert

theorem diffTag_append_fields {t : Byte} (h : dispatchTag t = .diff) :
    (0b01#2 ++ t.extractLsb' 4 2 ++ t.extractLsb' 2 2 ++ t.extractLsb' 0 2 : BitVec 8) = t := by
  decide +revert

theorem lumaTag_append_low6 {t : Byte} (h : dispatchTag t = .luma) : (0b10#2 ++ t.extractLsb' 0 6 : BitVec 8) = t := by
  decide +revert

/-- Beside the bits of the tag: the two lengths that would be `FE` and `FF` are never read (R104). -/
theorem runTag_append_low6 {t : Byte} (h : dispatchTag t = .run) :
    (0b11#2 ++ t.extractLsb' 0 6 : BitVec 8) = t ∧ (t.extractLsb' 0 6).toNat ≤ 61 := by
  decide +revert

theorem rgbTag_eq {t : Byte} (h : dispatchTag t = .rgb) : 0xFE#8 = t := by decide +revert

theorem rgbaTag_eq {t : Byte} (h : dispatchTag t = .rgba) : 0xFF#8 = t := by decide +revert

theorem nibbles_append (b : Byte) : (b.extractLsb' 4 4 ++ b.extractLsb' 0 4 : BitVec 8) = b := by decide +revert

/-! ## Decoding an encoding -/

theorem headerFields_encode (w h : U32) (c s : Byte) (rest : List Byte) :
    headerFields (encode (.header w h c s) ++ rest) = ⟨w, h, c, s⟩ := by
  simp [headerFields, encode, magic, be32Bytes, be32_be32Bytes]

theorem decodeHeader_encode (w h : U32) (c s : Byte) (rest : List Byte) :
    decodeHeader (encode (.header w h c s) ++ rest) = .ok (.header w h c s, rest) := by
  have hlen : (encode (.header w h c s) ++ rest).length = 14 + rest.length := by
    simp [Instr.byteLength, headerLen]
  have hmagic : (encode (.header w h c s) ++ rest).take 4 = magic := rfl
  have hrest : (encode (.header w h c s) ++ rest).drop 14 = rest := rfl
  have h4 : ¬ 14 + rest.length < 4 := by omega
  have h13 : ¬ 14 + rest.length < 13 := by omega
  have h14 : ¬ 14 + rest.length < 14 := by omega
  simp [decodeHeader, hlen, hmagic, hrest, headerFields_encode, h4, h13, h14]

/-- The encoding of a well-formed item decodes to it, whatever follows (R90 to R101). -/
theorem decode_encode {i : Instr} (h : WellFormed i = true) (rest : List Byte) :
    decode i.streamSection (encode i ++ rest) = .ok (i, rest) := by
  cases i with
  | rgb r g b => rfl
  | rgba r g b a => rfl
  | index idx => simp [decode, Instr.streamSection, encode, decodeChunk]
  | diff dr2 dg2 db2 => simp [decode, Instr.streamSection, encode, decodeChunk]
  | luma dg32 drg8 dbg8 => simp [decode, Instr.streamSection, encode, decodeChunk]
  | run len1 =>
    have htag := dispatchTag_run len1 (of_decide_eq_true h)
    simp [decode, Instr.streamSection, encode, decodeChunk, htag]
  | header w ht c s => exact decodeHeader_encode w ht c s rest
  | endMarker => rfl

/-- Settles O23: `decode_encode`, by cases on the item. -/
theorem encodeThenDecode : Obligations.EncodeThenDecode := fun _ rest h => decode_encode h rest

/-- Settles O21: each word is the encoding of its item, written out bit by bit. -/
theorem wordsDecode : Obligations.WordsDecode :=
  ⟨decode_encode (i := .rgb 9#8 8#8 7#8) rfl [],
    decode_encode (i := .rgba 10#8 20#8 30#8 128#8) rfl [],
    decode_encode (i := .index 53#6) rfl [],
    decode_encode (i := .diff 3#2 1#2 2#2) rfl [],
    decode_encode (i := .luma 37#6 12#4 3#4) rfl [],
    decode_encode (i := .run 1#6) rfl [],
    decode_encode (i := .run 61#6) rfl [],
    decode_encode (i := .header 5#32 1#32 3#8 1#8) rfl [],
    decode_encode (i := .endMarker) rfl []⟩

/-! ## Encoding what is decoded -/

/-- A chunk that is read is well formed and stands in the bytes as its own encoding (R103, R109). -/
theorem encode_of_decodeChunk {bytes rest : List Byte} {i : Instr} (h : decodeChunk bytes = .ok (i, rest)) :
    i.streamSection = .chunks ∧ encode i ++ rest = bytes ∧ WellFormed i = true := by
  match bytes with
  | [] => cases h
  | t :: tail =>
    cases ht : dispatchTag t <;> simp only [decodeChunk, ht] at h
    case rgb =>
      split at h <;> cases h
      exact ⟨rfl, congrArg (· :: _) (rgbTag_eq ht), rfl⟩
    case rgba =>
      split at h <;> cases h
      exact ⟨rfl, congrArg (· :: _) (rgbaTag_eq ht), rfl⟩
    case index =>
      cases h
      exact ⟨rfl, congrArg (· :: _) (indexTag_append_low6 ht), rfl⟩
    case diff =>
      cases h
      exact ⟨rfl, congrArg (· :: _) (diffTag_append_fields ht), rfl⟩
    case luma =>
      split at h <;> cases h
      exact ⟨rfl, congrArg₂ (· :: · :: _) (lumaTag_append_low6 ht) (nibbles_append _), rfl⟩
    case run =>
      cases h
      obtain ⟨htag, hlen⟩ := runTag_append_low6 ht
      exact ⟨rfl, congrArg (· :: _) htag, decide_eq_true hlen⟩

/-- Fourteen bytes that begin with the magic are the encoding of the header they hold, legal or not (R91). -/
theorem encode_headerFields {bytes : List Byte} (hmagic : bytes.take 4 = magic) (hlen : 14 ≤ bytes.length) :
    encode (.header (headerFields bytes).width (headerFields bytes).height (headerFields bytes).channels
      (headerFields bytes).colorspace) ++ bytes.drop 14 = bytes := by
  match bytes, hlen with
  | b0 :: b1 :: b2 :: b3 :: w0 :: w1 :: w2 :: w3 :: h0 :: h1 :: h2 :: h3 :: c :: s :: rest, _ =>
    have hm : [b0, b1, b2, b3] = magic := hmagic
    simp [encode, headerFields, be32Bytes_be32, ← hm]

theorem encode_of_decodeHeader {bytes rest : List Byte} {i : Instr} (h : decodeHeader bytes = .ok (i, rest)) :
    i.streamSection = .header ∧ encode i ++ rest = bytes := by
  obtain ⟨-, hlen : 14 ≤ bytes.length⟩ := decodeHeader_ok h
  simp only [decodeHeader] at h
  split at h
  · cases h
  split at h
  · cases h
  · next hmagic =>
    rw [if_neg (by omega), if_neg (Nat.not_lt.mpr hlen)] at h
    cases h
    exact ⟨rfl, encode_headerFields (not_not.mp hmagic) hlen⟩

theorem encode_of_decodeMarker {bytes rest : List Byte} {i : Instr} (h : decodeMarker bytes = .ok (i, rest)) :
    i.streamSection = .marker ∧ encode i ++ rest = bytes ∧ WellFormed i = true := by
  unfold decodeMarker at h
  split at h <;> cases h
  · next hmarker =>
    refine ⟨rfl, ?_, rfl⟩
    rw [encode, ← hmarker, List.take_append_drop]

/-- Settles O24: one lemma for each section of the stream. -/
theorem decodeThenEncode : Obligations.DecodeThenEncode := by
  intro sec bytes rest i h
  cases sec with
  | header =>
    obtain ⟨hsec, hbytes⟩ := encode_of_decodeHeader h
    exact ⟨hsec, hbytes, fun hne => absurd rfl hne⟩
  | chunks =>
    obtain ⟨hsec, hbytes, hwf⟩ := encode_of_decodeChunk h
    exact ⟨hsec, hbytes, fun _ => hwf⟩
  | marker =>
    obtain ⟨hsec, hbytes, hwf⟩ := encode_of_decodeMarker h
    exact ⟨hsec, hbytes, fun _ => hwf⟩

/-! ## The map of tag bytes -/

/-- The six ranges of tag bytes, which do not overlap and leave none out (R102). -/
theorem dispatchTag_eq (t : Byte) :
    dispatchTag t =
      if t.toNat ≤ 0x3F then .index
      else if t.toNat ≤ 0x7F then .diff
      else if t.toNat ≤ 0xBF then .luma
      else if t.toNat ≤ 0xFD then .run
      else if t.toNat = 0xFE then .rgb
      else .rgba := by
  decide +revert

/-- Settles O22: the ranges by `dispatchTag_eq`, the reading by `decodeChunk_of_le` and `decodeChunk_of_lt`. -/
theorem tagByteDecidesTheChunk : Obligations.TagByteDecidesTheChunk := by
  intro t
  have hlen := continuationBytes_eq t
  rw [dispatchTag_eq] at hlen
  refine ⟨fun h => ?_, fun _ h => ?_, fun _ h => ?_, fun _ h => ?_, fun h => ?_, fun h => ?_, fun rest =>
    ⟨fun hle => ?read, decodeChunk_of_lt⟩⟩
  case read =>
    obtain ⟨i, hi, htype, hbytes⟩ := decodeChunk_of_le hle
    obtain ⟨-, -, hwf⟩ := encode_of_decodeChunk hi
    exact ⟨i, hi, htype, hbytes, hwf⟩
  all_goals
    rw [hlen, dispatchTag_eq]
    grind

end Sys2Proof
end

section
/-! PROOFS. INDEX chunks that stand one behind the other, and the bytes of the end marker as such chunks (spec/30_encoding.md
R107, spec/41_decoder.md R159, R174). -/

namespace Sys2Proof.Machine

/-! ## INDEX chunks in a row -/

/-- The effect of INDEX chunks, one after the other. -/
def Decoder.runIndices (slots : List (BitVec 6)) (d : Decoder) : Decoder := slots.foldl (fun d k => indexEffect k d) d

theorem Decoder.runIndices_append (ks ls : List (BitVec 6)) (d : Decoder) :
    d.runIndices (ks ++ ls) = (d.runIndices ks).runIndices ls := List.foldl_append

/-- The bytes of INDEX chunks, one behind the other. -/
def indexBytes (slots : List (BitVec 6)) : List Byte := slots.flatMap fun k => encode (.index k)

/-- The decoder is in its chunk loop, INDEX chunks stand at its cursor, and it still expects a pixel for each. -/
structure Decoder.AtIndices (slots : List (BitVec 6)) (d : Decoder) : Prop where
  phase : d.phase = .tag
  expected : d.opix + slots.length ≤ d.npix
  bytes : ∃ rest, d.input.drop d.ipos = indexBytes slots ++ rest

/-- In the chunk loop the next item is the chunk at the cursor, while a pixel is expected (R155). -/
theorem Decoder.nextAction_of_chunk {d : Decoder} {i : Instr} {rest : List Byte} (hphase : d.phase = .tag)
    (hmore : d.opix < d.npix) (hi : decode .chunks (d.input.drop d.ipos) = .ok (i, rest)) : d.nextAction = .item i := by
  have hinput : d.ipos < d.input.length := by
    by_contra hend
    rw [List.drop_eq_nil_of_le (Nat.le_of_not_lt hend)] at hi
    cases hi
  simp only [Decoder.nextAction, hphase, if_pos (And.intro hinput hmore), Decoder.fetch, hi]

theorem Decoder.AtIndices.nextAction {d : Decoder} {k : BitVec 6} {ks : List (BitVec 6)} (h : d.AtIndices (k :: ks)) :
    d.nextAction = .item (.index k) := by
  obtain ⟨hphase, hexpected, rest, hbytes⟩ := h
  rw [List.length_cons] at hexpected
  refine Decoder.nextAction_of_chunk (rest := indexBytes ks ++ rest) hphase (by omega) ?_
  rw [hbytes]
  exact decode_encode (i := .index k) rfl (indexBytes ks ++ rest)

theorem Decoder.AtIndices.indexEffect {d : Decoder} {k : BitVec 6} {ks : List (BitVec 6)} (h : d.AtIndices (k :: ks)) :
    (indexEffect k d).AtIndices ks := by
  obtain ⟨hphase, hexpected, rest, hbytes⟩ := h
  rw [List.length_cons] at hexpected
  refine ⟨hphase, ?expected, rest, ?bytes⟩
  case expected =>
    show d.opix + 1 + ks.length ≤ d.npix
    omega
  case bytes =>
    show d.input.drop (d.ipos + 1) = indexBytes ks ++ rest
    rw [← List.drop_drop, hbytes]
    rfl

/-! ## The machine runs them -/

theorem core_run_of_step {s u : State} (h : step s = .next u) (n : Nat) :
    Sys2Proof.core.run (n + 1) s = Sys2Proof.core.run n u := by
  have hcore : Sys2Proof.core.step s = .next u := h
  simp only [Host.Core.run, hcore]

/-- INDEX chunks run one per step, and leave the decoder at what stands behind them. -/
theorem core_run_indices {s : State} (hagent : s.agent = .decoder) {ks ls : List (BitVec 6)}
    (h : s.dec.AtIndices (ks ++ ls)) :
    Sys2Proof.core.run ks.length s = .next (s.setDec (s.dec.runIndices ks)) ∧ (s.dec.runIndices ks).AtIndices ls := by
  induction ks generalizing s with
  | nil => exact ⟨rfl, h⟩
  | cons k ks ih =>
    have hstep : step s = .next (s.setDec (indexEffect k s.dec)) := step_item hagent h.nextAction
    rw [List.length_cons, core_run_of_step hstep]
    exact ih hagent h.indexEffect

/-- Step number `j` runs INDEX chunk number `j`. -/
theorem core_run_then_step_index {s : State} (hagent : s.agent = .decoder) {ks : List (BitVec 6)}
    (h : s.dec.AtIndices ks) {j : Nat} (hj : j < ks.length) :
    ∃ u, Sys2Proof.core.run j s = .next u ∧ step u = exec (.index ks[j]) u := by
  rw [← List.take_append_drop j ks, List.drop_eq_getElem_cons hj] at h
  obtain ⟨hrun, hat⟩ := core_run_indices hagent h
  rw [List.length_take_of_le (Nat.le_of_lt hj)] at hrun
  exact ⟨_, hrun, step_item hagent hat.nextAction⟩

/-! ## The bytes of the end marker -/

/-- The slots that the marker's bytes name as INDEX chunks (R107). -/
def markerSlots : List (BitVec 6) := List.replicate 7 0#6 ++ [1#6]

theorem indexBytes_markerSlots : indexBytes markerSlots = endMarkerBytes := rfl

theorem indexBytes_append (ks ls : List (BitVec 6)) : indexBytes (ks ++ ls) = indexBytes ks ++ indexBytes ls :=
  List.flatMap_append

theorem getElem_markerSlots {j : Nat} (hj : j < markerSlots.length) :
    Instr.index markerSlots[j] = if j < 7 then .index 0#6 else .index 1#6 := by
  revert j
  decide

/-- INDEX 0 repeated: slot 0 holds its own pixel afterwards, so each of them puts out the same one. -/
theorem Decoder.runIndices_replicate_zero (n : Nat) (d : Decoder) :
    d.runIndices (List.replicate (n + 1) 0#6) =
      { d with
        ipos := d.ipos + (n + 1)
        opix := d.opix + (n + 1)
        pix := d.pix ++ List.replicate (n + 1) (outColor d.opts.debugMode (d.cache.read 0#6) .index 0)
        cache := d.cache.update (d.cache.read 0#6)
        prev := d.cache.read 0#6
        hist := if d.opts.storeFullIndexHistory
          then d.hist ++ List.replicate (n + 1) (d.cache.update (d.cache.read 0#6)) else d.hist
        count := { d.count with index := d.count.index + (n + 1) } } := by
  induction n with
  | zero => rfl
  | succ n ih =>
    have hslot : (d.cache.update (d.cache.read 0#6)).read 0#6 = d.cache.read 0#6 := by
      rw [Cache.read_update, ite_self]
    rw [List.replicate_succ', Decoder.runIndices_append, ih]
    by_cases hhist : d.opts.storeFullIndexHistory = true <;>
      simp [Decoder.runIndices, indexEffect, Decoder.commit_one, Decoder.advance, ChunkCounts.bump, hslot, hhist,
        List.replicate_succ', Nat.add_assoc]

/-- The first `m` marker bytes as chunks: INDEX 0 up to seven times, then INDEX 1, which reads the cache the others left. -/
theorem Decoder.runIndices_take_markerSlots {d : Decoder} {p0 p1 : Pixel} (hp0 : p0 = d.cache.read 0#6)
    (hp1 : p1 = (d.cache.update p0).read 1#6) {m : Nat} (hpos : 0 < m) (hle : m ≤ 8) :
    d.runIndices (markerSlots.take m) =
      { d with
        ipos := d.ipos + m
        opix := d.opix + m
        pix := d.pix ++ List.replicate (min m 7) (outColor d.opts.debugMode p0 .index 0) ++
          (if m = 8 then [outColor d.opts.debugMode p1 .index 0] else [])
        cache := if m = 8 then (d.cache.update p0).update p1 else d.cache.update p0
        prev := if m = 8 then p1 else p0
        hist := if d.opts.storeFullIndexHistory
          then d.hist ++ List.replicate (min m 7) (d.cache.update p0) ++
            (if m = 8 then [(d.cache.update p0).update p1] else [])
          else d.hist
        count := { d.count with index := d.count.index + m } } := by
  subst hp0 hp1
  rcases Nat.lt_or_eq_of_le hle with hlt | rfl
  · have htake : markerSlots.take m = List.replicate m 0#6 := by
      rw [markerSlots, List.take_append_of_le_length (by simp; omega), List.take_replicate, Nat.min_eq_left (by omega)]
    obtain ⟨n, rfl⟩ := Nat.exists_eq_add_one_of_ne_zero (Nat.ne_of_gt hpos)
    simp [htake, Decoder.runIndices_replicate_zero, show n ≠ 7 by omega, Nat.min_eq_left (show n + 1 ≤ 7 by omega)]
  · have htake : markerSlots.take 8 = List.replicate 7 0#6 ++ [1#6] := rfl
    rw [htake, Decoder.runIndices_append, Decoder.runIndices_replicate_zero]
    by_cases hhist : d.opts.storeFullIndexHistory = true <;>
      simp [Decoder.runIndices, indexEffect, Decoder.commit_one, Decoder.advance, ChunkCounts.bump, hhist]

/-- Behind some of the marker's bytes the marker does not stand again, and behind all of them only as a second one: the byte
that is 1 comes too early. -/
theorem take_drop_endMarkerBytes_ne {m : Nat} (hpos : 0 < m) (hle : m ≤ 8) {rest : List Byte}
    (h : m < 8 ∨ rest.take 8 ≠ endMarkerBytes) : ((endMarkerBytes ++ rest).drop m).take 8 ≠ endMarkerBytes := by
  rcases Nat.lt_or_eq_of_le hle with hlt | rfl
  · interval_cases m <;> simp [endMarkerBytes]
  · exact h.resolve_left (by decide)

/-! ## The marker that is absent -/

theorem decodeMarker_absent {bytes : List Byte} (h : bytes.take 8 ≠ endMarkerBytes) :
    decodeMarker bytes = .error .notMarker := if_neg h

/-- Where the chunk loop is over and no marker follows, two steps leave the loop and report the marker absent (R166, R167). -/
theorem core_run_two_of_markerAbsent {s : State} (hagent : s.agent = .decoder) (hphase : s.dec.phase = .tag)
    (hover : ¬ (s.dec.ipos < s.dec.input.length ∧ s.dec.opix < s.dec.npix))
    (habsent : (s.dec.input.drop s.dec.ipos).take 8 ≠ endMarkerBytes) :
    Sys2Proof.core.run 2 s = .next (s.setDec s.dec.endLoop.missMarker) := by
  have hloop : s.dec.nextAction = .loopEnd := by simp only [Decoder.nextAction, hphase, if_neg hover]
  have hmarker : s.dec.endLoop.nextAction = .markerAbsent := by
    simp [Decoder.nextAction, Decoder.fetch, decode, decodeMarker_absent habsent, rejectAction]
  have hfirst : step s = .next (s.setDec s.dec.endLoop) := by
    simp only [step, hagent, decoderStep, hloop, Decoder.control]
  have hsecond : step (s.setDec s.dec.endLoop) = .next (s.setDec s.dec.endLoop.missMarker) := by
    simp only [step, State.setDec_agent, State.setDec_dec, hagent, decoderStep, hmarker, Decoder.control]
    rfl
  rw [core_run_of_step hfirst, core_run_of_step hsecond]
  rfl

theorem Decoder.missMarker_of_required {d : Decoder} (h : d.opts.requireEndTag = true) :
    d.missMarker = { d with endTagPresent := false, error := true, cause := .missingEndTag, phase := .error } := if_pos h

theorem Decoder.missMarker_of_not_required {d : Decoder} (h : d.opts.requireEndTag = false) :
    d.missMarker = { d with endTagPresent := false, phase := .trailing } := if_neg (by simp [h])

/-- Settles O30: the first m marker bytes are INDEX chunks at the cursor, and what is left of the input behind them does not
begin with the marker. -/
theorem markerBytesInsideChunks : Obligations.MarkerBytesInsideChunks := by
  intro s rest m p0 p1 hagent hphase hmore hm hbytes hp0 hp1
  have hpos : 0 < m := by omega
  have hle : m ≤ 8 := by omega
  have hlen : (markerSlots.take m).length = m := List.length_take_of_le hle
  have hat : s.dec.AtIndices (markerSlots.take m) := by
    refine ⟨hphase, by omega, indexBytes (markerSlots.drop m) ++ rest, ?_⟩
    rw [← List.append_assoc, ← indexBytes_append, List.take_append_drop, indexBytes_markerSlots]
    exact hbytes
  have heffect := Decoder.runIndices_take_markerSlots hp0 hp1 hpos hle
  obtain ⟨hrun, -⟩ := core_run_indices (ls := []) hagent (by rwa [List.append_nil])
  rw [hlen] at hrun
  refine ⟨fun j hj => ?step, _, hrun, by rw [heffect]; rfl, fun hend => ?absent⟩
  case step =>
    obtain ⟨u, hu, hstep⟩ := core_run_then_step_index hagent hat (hlen.symm ▸ hj)
    rw [List.getElem_take, getElem_markerSlots] at hstep
    exact ⟨u, hu, hstep⟩
  case absent =>
    have hbehind : s.dec.input.drop (s.dec.ipos + m) = (endMarkerBytes ++ rest).drop m := by
      rw [← List.drop_drop, hbytes]
      rfl
    have habsent : (s.dec.input.drop (s.dec.ipos + m)).take 8 ≠ endMarkerBytes := by
      rw [hbehind]
      refine take_drop_endMarkerBytes_ne hpos hle ?_
      rcases hend with hshort | rfl | ⟨-, hnone⟩
      · exact .inl hshort
      · exact .inr (by decide)
      · exact .inr hnone
    have hover : ¬ (s.dec.ipos + m < s.dec.input.length ∧ s.dec.opix + m < s.dec.npix) := by
      have hinput := congrArg List.length hbytes
      simp only [List.length_drop, List.length_append, List.length_cons, List.length_nil] at hinput
      rcases hend with hshort | rfl | ⟨hall, -⟩
      · omega
      · simp only [List.length_nil] at hinput
        omega
      · omega
    have htwo := core_run_two_of_markerAbsent (s := s.setDec (s.dec.runIndices (markerSlots.take m))) hagent
      (by rw [heffect]; exact hphase) (by rw [heffect]; exact hover) (by rw [heffect]; exact habsent)
    have hopts : (s.dec.runIndices (markerSlots.take m)).opts = s.dec.opts := by rw [heffect]
    rw [htwo]
    refine ⟨fun hreq => ?_, fun hreq => ?_⟩
    · rw [State.setDec_dec, Decoder.missMarker_of_required (by rw [Decoder.endLoop_opts, hopts, hreq])]
      rfl
    · rw [State.setDec_dec, Decoder.missMarker_of_not_required (by rw [Decoder.endLoop_opts, hopts, hreq])]
      rfl

end Sys2Proof.Machine
end

section
/-! PROOFS. The color cache (spec/40_cache.md R131 to R141): its hash, its operations, what a slot holds after any commits, and
the lockstep of encoder and decoder. -/

namespace Sys2Proof.Machine

/-! ## The hash -/

theorem toNat_hash (p : Pixel) :
    (hash p).toNat = (p.r.toNat * 3 + p.g.toNat * 5 + p.b.toNat * 7 + p.a.toNat * 11) % 64 := rfl

/-- A wrap to 6 bits or more keeps the low 6 bits. -/
theorem mod_two_pow_modEq_64 {k : Nat} (hk : 6 ≤ k) (x : Nat) : x % 2 ^ k ≡ x [MOD 64] :=
  (Nat.mod_modEq x (2 ^ k)).of_dvd (pow_dvd_pow 2 hk)

/-- Settles O7: every wrap is a congruence modulo 64, and so are the products and the sum (R131, R132). -/
theorem hashOfAnyWidth : Obligations.HashOfAnyWidth := by
  refine fun p => ⟨toNat_hash p, fun k hk => ?wrapped, fun q hr hg hb ha => ?lowBits⟩
  case wrapped =>
    have wrap := mod_two_pow_modEq_64 hk
    exact (wrap _).trans ((((wrap _).add (wrap _)).add (wrap _)).add (wrap _))
  case lowBits =>
    have hsum := (((Nat.ModEq.mul_right 3 hr).add (Nat.ModEq.mul_right 5 hg)).add (Nat.ModEq.mul_right 7 hb)).add
      (Nat.ModEq.mul_right 11 ha)
    exact BitVec.eq_of_toNat_eq hsum

/-! ## The operations, and what a slot holds -/

/-- Settles O8: each clause is the operation's own law (R133 to R137). -/
theorem cacheOperations : Obligations.CacheOperations := by
  refine ⟨Cache.read_cleared, fun slots => ⟨rfl, rfl⟩, hash_prevInit, Cache.hit_iff, fun slots p k => ?_⟩
  rw [Cache.read_update]
  simp only [eq_comm (a := k)]

/-- After any UPDATEs a slot holds the last pixel that hashes to it, or what it held before (R137). -/
theorem Cache.read_foldl_update (slots : Cache) (ps : List Pixel) (k : BitVec 6) :
    (ps.foldl Cache.update slots).read k = ((ps.filter fun p => hash p = k).getLast?).getD (slots.read k) := by
  induction ps generalizing slots with
  | nil => rfl
  | cons p ps ih =>
    rw [List.foldl_cons, ih, Cache.read_update]
    by_cases hp : hash p = k <;> simp [hp, List.getLast?_cons]

theorem Decoder.cache_foldl_commitPixel (type : ChunkType) (d : Decoder) (ps : List Pixel) :
    (ps.foldl (fun d p => d.commitPixel p type 0) d).cache = ps.foldl Cache.update d.cache :=
  (List.foldl_hom Decoder.cache fun _ _ => rfl).symm

theorem Encoder.cache_commitPixels (e : Encoder) (ps : List Pixel) :
    (e.commitPixels ps).cache = ps.foldl Cache.update e.cache := by
  rw [Encoder.commitPixels_eq]

/-- Settles O9: in either block the commits since START are UPDATEs of the cache of START. -/
theorem slotHoldsMostRecentPixel : Obligations.SlotHoldsMostRecentPixel := by
  refine fun seed seen k => ⟨fun unparsed o input d type => ?_, fun o regs pixels trailing => ?_⟩
  · rw [Decoder.cache_foldl_commitPixel, Cache.read_foldl_update]
    exact congrArg _ (Cache.read_initial_53 seed k)
  · rw [Encoder.cache_commitPixels, Cache.read_foldl_update]
    exact congrArg _ (Cache.read_initial_53 seed k)

/-! ## A field holds its operand -/

/-- A field in excess-K form holds the operand that its width can carry (R101). -/
theorem excess_ofInt {w : Nat} {d k : Int} (hlo : -k ≤ d) (hhi : d + k < (2 ^ w : Nat)) :
    ((BitVec.ofInt w (d + k)).toNat : Int) - k = d := by
  rw [BitVec.toNat_ofInt, Int.emod_eq_of_lt (by omega) hhi]
  omega

theorem diffDelta_diffField {d : Int} (hlo : -2 ≤ d) (hhi : d ≤ 1) : diffDelta (diffField d) = d :=
  excess_ofInt hlo (by omega)

theorem lumaGreenDelta_lumaGreenField {d : Int} (hlo : -32 ≤ d) (hhi : d ≤ 31) : lumaGreenDelta (lumaGreenField d) = d :=
  excess_ofInt hlo (by omega)

theorem lumaRelativeDelta_lumaRelativeField {d : Int} (hlo : -8 ≤ d) (hhi : d ≤ 7) :
    lumaRelativeDelta (lumaRelativeField d) = d :=
  excess_ofInt hlo (by omega)

theorem toNat_runField {n : Nat} (h : n < 64) : (runField (n + 1)).toNat = n := by
  simp [runField, Nat.mod_eq_of_lt h]

/-! ## The chunk the encoder selects decodes to its pixels -/

/-- DIFF of deltas that fit is the pixel they were taken from (R160, R195). -/
theorem diffPixel_deltas {c prev : Pixel} (halpha : c.a = prev.a) (hfits : fitsDiff (deltas c prev) = true) :
    diffPixel (diffField (deltas c prev).dr) (diffField (deltas c prev).dg) (diffField (deltas c prev).db) prev = c := by
  obtain ⟨hr, hr', hg, hg', hb, hb'⟩ := of_decide_eq_true hfits
  rw [diffPixel, diffDelta_diffField hr hr', diffDelta_diffField hg hg', diffDelta_diffField hb hb']
  simp [deltas, ← halpha]

/-- LUMA of deltas that fit is the pixel they were taken from (R161, R196). -/
theorem lumaPixel_deltas {c prev : Pixel} (halpha : c.a = prev.a) (hfits : fitsLuma (deltas c prev) = true) :
    lumaPixel (lumaGreenField (deltas c prev).dg) (lumaRelativeField ((deltas c prev).dr - (deltas c prev).dg))
      (lumaRelativeField ((deltas c prev).db - (deltas c prev).dg)) prev = c := by
  obtain ⟨hg, hg', hr, hr', hb, hb'⟩ := of_decide_eq_true hfits
  rw [lumaPixel, lumaGreenDelta_lumaGreenField hg hg', lumaRelativeDelta_lumaRelativeField hr hr',
    lumaRelativeDelta_lumaRelativeField hb hb']
  simp [deltas, ← halpha]

/-- Cases 2 to 7 select a chunk that commits the pixel itself, in a decoder with the encoder's cache and `prev` (R141). -/
theorem Encoder.itemEffect_selectSingle {e : Encoder} {d : Decoder} (hcache : d.cache = e.cache) (hprev : d.prev = e.prev)
    (c : Pixel) :
    ∃ type, itemEffect (e.selectSingle c) d = (d.advance (e.selectSingle c).byteLength).commit c 1 type := by
  unfold Encoder.selectSingle
  split
  case isTrue hindex =>
    obtain ⟨-, hhit⟩ := Bool.and_eq_true_iff.mp hindex
    refine ⟨.index, ?_⟩
    show (d.advance 1).commit (d.cache.read (hash c)) 1 .index = _
    rw [hcache, (Cache.hit_iff e.cache c).mp hhit]
    rfl
  split
  case isTrue => exact ⟨.rgba, rfl⟩
  case isFalse halpha =>
    have halpha : c.a = e.prev.a := not_not.mp halpha
    split
    case isTrue hdiff =>
      refine ⟨.diff, ?_⟩
      show (d.advance 1).commit (diffPixel _ _ _ d.prev) 1 .diff = _
      rw [hprev, diffPixel_deltas halpha (Bool.and_eq_true_iff.mp hdiff).2]
      rfl
    split
    case isTrue hluma =>
      refine ⟨.luma, ?_⟩
      show (d.advance 2).commit (lumaPixel _ _ _ d.prev) 1 .luma = _
      rw [hprev, lumaPixel_deltas halpha (Bool.and_eq_true_iff.mp hluma).2]
      rfl
    split
    case isTrue =>
      refine ⟨.rgb, ?_⟩
      show (d.advance 4).commit ⟨c.r, c.g, c.b, d.prev.a⟩ 1 .rgb = _
      rw [hprev, ← halpha]
      rfl
    case isFalse => exact ⟨.rgba, rfl⟩

/-- RUN of a length that fits the image commits `prev` so many times (R162, R198). -/
theorem itemEffect_runChunk {d : Decoder} {n : Nat} (hn : n < 64) (hfit : d.opix + (n + 1) ≤ d.npix) :
    itemEffect (runChunk (n + 1)) d = (d.advance 1).commit d.prev (n + 1) .run := by
  have hlength : runLength (runField (n + 1)) = n + 1 := by rw [runLength, toNat_runField hn]
  show runEffect (runField (n + 1)) d = _
  rw [runEffect, hlength, if_neg (Nat.not_lt.mpr hfit)]

/-- The pixels that a chunk covers are equal (R193, R198). -/
theorem Encoder.take_covered (e : Encoder) (c : Pixel) (ahead : List Pixel) :
    (c :: ahead).take (e.covered c ahead) = List.replicate (e.covered c ahead) c := by
  unfold Encoder.covered
  split
  case isTrue hrun =>
    obtain rfl : c = e.prev := eq_of_beq (Bool.and_eq_true_iff.mp hrun).2
    exact take_runAhead _ _ _
  case isFalse => rfl

theorem Encoder.covered_le_runMax (e : Encoder) (c : Pixel) (ahead : List Pixel) : e.covered c ahead ≤ runMax := by
  unfold Encoder.covered
  split
  · exact (runAhead_le_limit _ _ _).trans (min_le_left _ _)
  · decide

/-- A chunk covers 1 to 62 pixels, all of them in the image (R193, R198). -/
theorem Encoder.exists_covered_eq_add_one {e : Encoder} (hmore : e.i < e.npix) (c : Pixel) (ahead : List Pixel) :
    ∃ n, e.covered c ahead = n + 1 ∧ n ≤ 61 ∧ e.i + (n + 1) ≤ e.npix := by
  obtain ⟨hpos, hwithin⟩ := Encoder.covered_bounds hmore c ahead
  obtain ⟨n, hn⟩ := Nat.exists_eq_add_one.mpr hpos
  have hmax := e.covered_le_runMax c ahead
  rw [hn] at hmax hwithin
  exact ⟨n, hn, Nat.le_of_succ_le_succ hmax, hwithin⟩

/-- The chunk selected for a position commits the pixels it covers, in a decoder in the encoder's place (R141). -/
theorem Encoder.itemEffect_select {e : Encoder} {d : Decoder} (hcache : d.cache = e.cache) (hprev : d.prev = e.prev)
    (hopix : d.opix = e.i) (hnpix : d.npix = e.npix) (hmore : e.i < e.npix) (c : Pixel) (ahead : List Pixel) :
    ∃ type, itemEffect (e.select c ahead) d =
      (d.advance (e.select c ahead).byteLength).commit c (e.covered c ahead) type := by
  unfold Encoder.select
  split
  case isTrue hrun =>
    obtain ⟨n, hn, hmax, hwithin⟩ := Encoder.exists_covered_eq_add_one hmore c ahead
    have hc : c = d.prev := (eq_of_beq (Bool.and_eq_true_iff.mp hrun).2).trans hprev.symm
    rw [hn, hc]
    exact ⟨.run, itemEffect_runChunk (by omega) (by rw [hopix, hnpix]; exact hwithin)⟩
  case isFalse hrun =>
    rw [Encoder.covered, if_neg hrun]
    exact Encoder.itemEffect_selectSingle hcache hprev c

/-! ## The chunk the encoder selects can be read back -/

/-- Any chunk but a RUN is well formed (R102, R103). -/
theorem wellFormed_of_chunkType {i : Instr} {type : ChunkType} (htype : i.chunkType = some type) (hrun : type ≠ .run) :
    WellFormed i = true := by
  cases i with
  | run len1 => cases htype; exact absurd rfl hrun
  | header w h c s => cases htype
  | _ => rfl

theorem streamSection_of_chunkType {i : Instr} {type : ChunkType} (htype : i.chunkType = some type) :
    i.streamSection = .chunks := by
  cases i with
  | header w h c s => cases htype
  | endMarker => cases htype
  | _ => rfl

/-- The encoder writes well-formed chunks only (R104, R197). -/
theorem Encoder.wellFormed_select {e : Encoder} (hmore : e.i < e.npix) (c : Pixel) (ahead : List Pixel) :
    WellFormed (e.select c ahead) = true ∧ (e.select c ahead).streamSection = .chunks := by
  unfold Encoder.select
  split
  · obtain ⟨n, hn, hmax, -⟩ := Encoder.exists_covered_eq_add_one hmore c ahead
    refine ⟨decide_eq_true ?_, rfl⟩
    rw [hn, toNat_runField (by omega)]
    exact hmax
  · obtain ⟨type, htype, hrun⟩ := e.selectSingle_type c
    exact ⟨wellFormed_of_chunkType htype hrun, streamSection_of_chunkType htype⟩

/-! ## Lockstep -/

/-- UPDATEs with one pixel, repeated, are one UPDATE (R139). -/
theorem Cache.foldl_update_replicate (slots : Cache) (p : Pixel) (n : Nat) :
    (List.replicate (n + 1) p).foldl Cache.update slots = slots.update p := by
  induction n with
  | zero => rfl
  | succ n ih => rw [List.replicate_succ', List.foldl_append, ih]; exact Cache.update_update slots p

/-- Settles O53: both blocks commit the pixels the chunk covers, equal pixels of a number that fits the image. -/
theorem lockstep : Obligations.Lockstep := by
  intro e e' d _ hmore hchunk hcache hprev hopix hnpix herror
  obtain ⟨c, ahead, hahead, rfl⟩ := Encoder.encodeChunk_eq hchunk
  obtain ⟨type, heffect⟩ := Encoder.itemEffect_select hcache hprev hopix hnpix hmore c ahead
  obtain ⟨hwf, hsection⟩ := Encoder.wellFormed_select hmore c ahead
  have htake := e.take_covered c ahead
  obtain ⟨n, hn, -⟩ := Encoder.exists_covered_eq_add_one hmore c ahead
  rw [hn] at heffect htake
  rw [Decoder.commit_eq] at heffect
  refine ⟨e.select c ahead, hwf, rfl, fun rest => hsection ▸ decode_encode hwf rest, ?_⟩
  rw [heffect]
  refine ⟨?cache, ?prev, ?opix, hnpix, herror, ?ipos, fun hdebug => ?pix⟩
  case cache => simp [hn, htake, Cache.foldl_update_replicate, hcache]
  case prev => simp [hn, htake, List.getLast?_replicate]
  case opix => simp [hn, hopix]
  case ipos => simp
  case pix => simp [hn, htake, hahead, hdebug, outColors_of_not_debug]

end Sys2Proof.Machine
end

section
/-! PROOFS. What each item does to the decoder: result and frame (spec/41_decoder.md R151, R157 to R167), the commit they end in
(R163), the colors put out (R170) and who changes alpha (R175). -/

namespace Sys2Proof.Machine

/-! ## The commit and the colors it puts out -/

theorem outColors_zero (debugMode : Bool) (p : Pixel) (type : ChunkType) (n : Nat) :
    outColors debugMode p type 0 n = (List.range n).map (outColor debugMode p type) := by
  rw [outColors, List.range_eq_range']

/-- Unseeded, the slot of `PREV_INIT` does not hold it at the start of a pass (R134, D2). -/
theorem Cache.update_initial_false_ne : (Cache.initial false).update prevInit ≠ Cache.initial false := by
  intro h
  have hslot := congrArg (Cache.read · (hash prevInit)) h
  simp only [Cache.read_update_self, Cache.read_initial] at hslot
  exact absurd hslot (by decide)

/-- Settles O10: the commit is written out by `Decoder.commit_eq`, the rest are laws of the cache. -/
theorem commitOfARun : Obligations.CommitOfARun := by
  refine ⟨fun d p n type => ?_, fun slots p => Cache.update_of_hit slots, Cache.read_update_self,
    Cache.update_of_hit _ Cache.read_initial_prevInit, Cache.update_initial_false_ne⟩
  rw [Decoder.commit_eq, outColors_zero]

theorem Pixel.ofWord_injective : Function.Injective Pixel.ofWord :=
  Function.LeftInverse.injective (g := Pixel.toWord) Pixel.toWord_ofWord

theorem debugIndex_injective : Function.Injective debugIndex := by
  intro a b
  cases a <;> cases b <;> decide

/-- R170's constraint: different kinds have different numbers, which the permutation and the unpacking keep apart. -/
theorem debugColor_injective : Function.Injective debugColor :=
  (Pixel.ofWord_injective.comp Config.debugPermutation.injective).comp debugIndex_injective

/-- Settles O20: the colors by `debugColor_injective`, the keying type by type. -/
theorem debugColors : Obligations.DebugColors := by
  refine ⟨fun _ _ h => debugColor_injective h, fun p type k => ⟨rfl, ?_⟩⟩
  cases type with
  | run => exact apply_ite debugColor (k = 0) .run .runCont
  | _ => rfl

/-! ## A chunk whose bytes end too early -/

/-- Too few bytes behind a tag are TRUNCATED, and nothing is committed (R165, R275). -/
theorem step_of_truncated_chunk {s : State} {t : Byte} {rest : List Byte} (hagent : s.agent = .decoder)
    (hphase : s.dec.phase = .tag) (hmore : s.dec.opix < s.dec.npix) (hbytes : s.dec.input.drop s.dec.ipos = t :: rest)
    (hshort : rest.length < continuationBytes t) : step s = .next (s.setDec (s.dec.raise .truncated)) := by
  have hinput : s.dec.ipos < s.dec.input.length := by
    by_contra hend
    rw [List.drop_eq_nil_of_le (Nat.le_of_not_lt hend)] at hbytes
    cases hbytes
  have hnext : s.dec.nextAction = .raise .truncated := by
    simp only [Decoder.nextAction, hphase, if_pos (And.intro hinput hmore), Decoder.fetch, decode, hbytes,
      decodeChunk_of_lt hshort, rejectAction]
  simp only [step, hagent, decoderStep, hnext, Decoder.control]
  rw [Decoder.failReading_eq_raise (by simp [hphase])]

/-! ## The chunks -/

/-- Settles O11: the commit of the chunk's channels, and the reading of too few bytes. -/
theorem rgbResult : Obligations.RgbResult :=
  ⟨fun _ _ _ _ => rfl, fun _ _ hagent hphase hmore hbytes hshort =>
    step_of_truncated_chunk hagent hphase hmore hbytes hshort⟩

/-- Settles O12: the commit of the chunk's channels, and the reading of too few bytes. -/
theorem rgbaResult : Obligations.RgbaResult :=
  ⟨fun _ _ _ _ _ => rfl, fun _ _ hagent hphase hmore hbytes hshort =>
    step_of_truncated_chunk hagent hphase hmore hbytes hshort⟩

/-- Settles O13: the commit of the pixel in the slot. -/
theorem indexResult : Obligations.IndexResult := fun _ _ => rfl

/-- Settles O14: the commit of `diffPixel`, whose channels are sums modulo 256 (R9). -/
theorem diffResult : Obligations.DiffResult := fun dr2 dg2 db2 s =>
  ⟨diffPixel dr2 dg2 db2 s.dec.prev, toNat_add8 _ _, toNat_add8 _ _, toNat_add8 _ _, rfl, rfl⟩

/-- A tag with the top bits 10 is followed by one byte (R99). -/
theorem continuationBytes_of_luma {t : Byte} (h : t.extractLsb' 6 2 = 0b10#2) : continuationBytes t = 1 := by
  decide +revert

/-- Settles O15: the commit of `lumaPixel`, whose channels are sums modulo 256 (R9), and the reading of too few bytes. -/
theorem lumaResult : Obligations.LumaResult := by
  refine ⟨fun dg32 drg8 dbg8 s => ⟨lumaPixel dg32 drg8 dbg8 s.dec.prev, toNat_add8 _ _, toNat_add8 _ _, toNat_add8 _ _,
    rfl, rfl⟩, fun s t hagent hphase hmore htag hbytes => step_of_truncated_chunk hagent hphase hmore hbytes ?_⟩
  rw [continuationBytes_of_luma htag]
  exact Nat.one_pos

/-- Settles O16: a run that fits is one commit of `prev`; a longer one raises before any commit. -/
theorem runResult : Obligations.RunResult := by
  refine ⟨fun len1 s hfits => ?fits, fun len1 s hlong => ?long⟩
  case fits =>
    have heffect : runEffect len1 s.dec = (s.dec.advance 1).commit s.dec.prev (len1.toNat + 1) .run :=
      if_neg (Nat.not_lt.mpr hfits)
    rw [exec_eq, itemEffect, heffect, Decoder.commit_eq, outColors_zero]
    rfl
  case long =>
    have heffect : runEffect len1 s.dec = s.dec.raise .runOverrun := if_pos hlong
    rw [exec_eq, itemEffect, heffect]
    rfl

/-! ## The framing items -/

theorem legalChannels_iff (c : Byte) : legalChannels c = true ↔ c = 3#8 ∨ c = 4#8 := by simp [legalChannels]

theorem legalColorspace_iff (s : Byte) : legalColorspace s = true ↔ s = 0#8 ∨ s = 1#8 := by simp [legalColorspace]

/-- Settles O17: HEADER's three ends (`headerEffect_cases`). -/
theorem headerResult : Obligations.HeaderResult := by
  intro w h c cs s
  rw [exec_eq, itemEffect]
  simp only [← legalChannels_iff, ← legalColorspace_iff]
  rcases headerEffect_cases w h c cs s.dec with ⟨hc, heffect⟩ | ⟨hc, hcs, heffect⟩ | ⟨hc, hcs, heffect⟩ <;> rw [heffect]
  · exact ⟨by simp [hc], fun _ => ⟨_, rfl⟩, by simp [hc]⟩
  · exact ⟨by simp [hcs], by simp [hc], fun _ _ => ⟨_, rfl⟩⟩
  · exact ⟨fun _ _ => rfl, by simp [hc], by simp [hcs]⟩

/-- Settles O18: the three updates of END. -/
theorem endResult : Obligations.EndResult := fun _ => rfl

/-! ## Alpha -/

theorem prev_runEffect (len1 : BitVec 6) (d : Decoder) : (runEffect len1 d).prev = d.prev := by
  unfold runEffect
  split
  · rfl
  · rw [runLength, Decoder.commit_eq]

theorem prev_headerEffect (w h : U32) (c cs : Byte) (d : Decoder) : (headerEffect w h c cs d).prev = d.prev :=
  congrArg OutputRegs.prev (d.outputRegs_headerEffect w h c cs)

/-- Settles O19: a chunk's pixel is `prev` afterwards, a run and a framing item leave `prev` as it is. -/
theorem alphaOnlyByRgbaOrIndex : Obligations.AlphaOnlyByRgbaOrIndex := by
  intro i s
  refine ⟨_, exec_eq i s, ?_⟩
  cases i with
  | run len1 => exact congrArg Pixel.a (prev_runEffect len1 s.dec)
  | header w h c cs => exact congrArg Pixel.a (prev_headerEffect w h c cs s.dec)
  | _ => rfl

end Sys2Proof.Machine
end

section
/-! PROOFS. One step of a decode pass over a whole input, by where the pass stands: the header (spec/41_decoder.md R151), a chunk
(R155), the loop end (R166), the marker test (R167) and the trailing data (R168). -/

namespace Sys2Proof.Machine

/-! ## The item at the cursor -/

/-- The item that is read is as long as its length says. -/
theorem drop_byteLength_of_decode {sec : StreamSection} {bytes rest : List Byte} {i : Instr}
    (h : decode sec bytes = .ok (i, rest)) : bytes.drop i.byteLength = rest := by
  obtain ⟨-, hbytes, -⟩ := decodeThenEncode sec bytes rest i h
  rw [← hbytes, ← encode_length, List.drop_left]

/-- Settles O25: in each section the pass reads the item at the cursor, and a read item is the next action. -/
theorem stepRunsTheItem : Obligations.StepRunsTheItem := by
  intro s sec i rest hagent hsection hread
  refine ⟨step_item hagent ?next, ?length⟩
  case next =>
    rcases hsection with ⟨hphase, rfl⟩ | ⟨hphase, rfl, -, hmore⟩ | ⟨hphase, rfl⟩
    · simp only [Decoder.nextAction, hphase, Decoder.fetch, hread]
    · exact Decoder.nextAction_of_chunk hphase hmore hread
    · simp only [Decoder.nextAction, hphase, Decoder.fetch, hread]
  case length => rw [← List.drop_drop, drop_byteLength_of_decode hread]

/-! ## The header -/

theorem Decoder.nextAction_of_header {d : Decoder} (hphase : d.phase = .header) : d.nextAction = d.fetch .header := by
  simp only [Decoder.nextAction, hphase]

/-- A machine in the header makes the pass step (R151). -/
theorem step_of_header {s : State} (hagent : s.agent = .decoder) (hphase : s.dec.phase = .header) :
    step s = .next (s.setDec s.dec.passStep) :=
  step_decoder hagent (by rw [Decoder.nextAction_of_header hphase]; exact s.dec.fetch_ne_rest .header)

/-- A legal header is written, and the chunk loop is next (R151). -/
theorem Decoder.passStep_of_legal_header {d : Decoder} {w h : U32} {c cs : Byte} {more : List Byte}
    (hphase : d.phase = .header) (hbytes : d.input.drop d.ipos = encode (.header w h c cs) ++ more)
    (hlegal : fieldsLegal ⟨w, h, c, cs⟩ = true) :
    d.passStep = { d with regs := ⟨w, h, c, cs⟩, ipos := headerLen, phase := .tag } := by
  obtain ⟨hc : legalChannels c = true, hcs : legalColorspace cs = true⟩ := Bool.and_eq_true_iff.mp hlegal
  rw [Decoder.passStep_of_fetch (Decoder.nextAction_of_header hphase), hbytes, decode, decodeHeader_encode]
  show headerEffect w h c cs d = _
  rw [headerEffect, if_neg (by simp [hc]), if_neg (by simp [hcs])]
  rfl

/-- Before the magic has been read a failed reading just raises (R151). -/
theorem Decoder.failReading_of_no_magic {d : Decoder} (hipos : d.ipos = 0) (h : d.input.take 4 ≠ magic) (c : Cause) :
    d.failReading c = d.raise c := by
  simp [Decoder.failReading, Decoder.regsRead, hipos, h, Decoder.raise]

theorem take_ne_magic_of_short {bytes : List Byte} (h : bytes.length < 4) : bytes.take 4 ≠ magic := by
  intro hmagic
  have hlen := congrArg List.length hmagic
  simp only [List.length_take, magic, List.length_cons, List.length_nil] at hlen
  omega

/-- The header in stream order: what the reading finds, then HEADER's own judgement of its bytes 12 and 13; an illegal
byte 12 is judged alike whether byte 13 is there or not (R151, R272 to R275, R279). -/
theorem Decoder.passStep_of_header {d : Decoder} (hphase : d.phase = .header) (hipos : d.ipos = 0) :
    d.passStep =
      if d.input.length < 4 then d.raise .truncated
      else if d.input.take 4 ≠ magic then d.raise .badMagic
      else if d.input.length < 13 then d.failReading .truncated
      else if ¬ legalChannels (headerFields d.input).channels = true then
        if d.input.length < 14 then d.failReading .badChannels
        else (d.writeSize (headerFields d.input).width (headerFields d.input).height).raise .badChannels
      else if d.input.length < 14 then d.failReading .truncated
      else if ¬ legalColorspace (headerFields d.input).colorspace = true then
        Decoder.raise .badColorspace { d with regs := { headerFields d.input with colorspace := d.regs.colorspace } }
      else { d with regs := headerFields d.input, ipos := headerLen, phase := .tag } := by
  have hbytes : d.input.drop d.ipos = d.input := by rw [hipos, List.drop_zero]
  rw [Decoder.passStep_of_fetch (Decoder.nextAction_of_header hphase), hbytes]
  simp only [decode, decodeHeader, ite_not]
  split_ifs with h4 hmagic h13 h14 hchannels hchannels hcolorspace
  · exact Decoder.failReading_of_no_magic hipos (take_ne_magic_of_short h4) _
  · rfl
  · rfl
  · rfl
  · simp [itemEffect, headerEffect, hchannels, hcolorspace, Decoder.writeSize, Decoder.writeChannels,
      Decoder.writeColorspace]
  · simp [itemEffect, headerEffect, hchannels, hcolorspace, Decoder.writeSize, Decoder.writeChannels]
  · simp [itemEffect, headerEffect, hchannels]
  · exact Decoder.failReading_of_no_magic hipos hmagic _

/-- A byte appended to a word is its lowest digit to the base 256. -/
theorem toNat_append_byte {n : Nat} (w : BitVec n) (b : Byte) : (w ++ b).toNat = w.toNat * 2 ^ 8 + b.toNat := by
  rw [BitVec.toNat_append, ← Nat.shiftLeft_add_eq_or_of_lt b.isLt, Nat.shiftLeft_eq]

/-- Four bytes as a big-endian number (R68). -/
theorem toNat_be32 (b0 b1 b2 b3 : Byte) :
    (be32 b0 b1 b2 b3).toNat = b0.toNat * 2 ^ 24 + b1.toNat * 2 ^ 16 + b2.toNat * 2 ^ 8 + b3.toNat := by
  rw [be32, toNat_append_byte, toNat_append_byte, toNat_append_byte]
  omega

/-- Settles O26: the outcomes of the reading in stream order, then HEADER's own judgement of the two enum bytes. -/
theorem headerInStreamOrder : Obligations.HeaderInStreamOrder := by
  intro s hagent hphase hipos
  refine ⟨s.dec.passStep, step_of_header hagent hphase, ?_⟩
  have hmagic : [0x71#8, 0x6F#8, 0x69#8, 0x66#8] = magic := rfl
  have hchannels : s.dec.input.getD 12 0#8 = (headerFields s.dec.input).channels := rfl
  have hcolorspace : s.dec.input.getD 13 0#8 = (headerFields s.dec.input).colorspace := rfl
  simp only [hmagic, hchannels, hcolorspace, ← legalChannels_iff, ← legalColorspace_iff]
  have hstep := Decoder.passStep_of_header hphase hipos
  split_ifs at hstep ⊢ <;> rw [hstep]
  any_goals rfl
  exact ⟨rfl, toNat_be32 _ _ _ _, toNat_be32 _ _ _ _, rfl, rfl, rfl⟩

/-! ## The loop end, the marker and the trailing data -/

/-- The chunk loop is left when the input or the pixel count is exhausted (R166). -/
theorem Decoder.nextAction_of_loop_over {d : Decoder} (hphase : d.phase = .tag)
    (hover : ¬ (d.ipos < d.input.length ∧ d.opix < d.npix)) : d.nextAction = .loopEnd := by
  simp only [Decoder.nextAction, hphase, if_neg hover]

theorem Decoder.passStep_of_loop_over {d : Decoder} (hphase : d.phase = .tag)
    (hover : ¬ (d.ipos < d.input.length ∧ d.opix < d.npix)) : d.passStep = d.endLoop := by
  rw [Decoder.passStep, Decoder.nextAction_of_loop_over hphase hover]
  rfl

theorem step_of_loop_over {s : State} (hagent : s.agent = .decoder) (hphase : s.dec.phase = .tag)
    (hover : ¬ (s.dec.ipos < s.dec.input.length ∧ s.dec.opix < s.dec.npix)) : step s = .next (s.setDec s.dec.endLoop) := by
  rw [step_decoder hagent (by simp [Decoder.nextAction_of_loop_over hphase hover]),
    Decoder.passStep_of_loop_over hphase hover]

/-- Settles O27: the loop end is a step of its own, and the invariant bounds cursor and pixel count. -/
theorem loopEnd : Obligations.LoopEnd := by
  intro s hagent hphase hover
  refine ⟨step_of_loop_over hagent hphase hover, fun hinv => ?_⟩
  have hpass := hinv.dec_passInv hagent
  have hwithin := (hpass.inPixels (.inl hphase)).within
  have hinside := hpass.iposInside
  omega

/-- The marker stands at the cursor (R167). -/
theorem Decoder.nextAction_of_marker {d : Decoder} (hphase : d.phase = .endMark)
    (hmarker : (d.input.drop d.ipos).take 8 = endMarkerBytes) : d.nextAction = .item .endMarker := by
  simp only [Decoder.nextAction, hphase, Decoder.fetch, decode, decodeMarker, if_pos hmarker]

theorem Decoder.nextAction_of_no_marker {d : Decoder} (hphase : d.phase = .endMark)
    (habsent : (d.input.drop d.ipos).take 8 ≠ endMarkerBytes) : d.nextAction = .markerAbsent := by
  simp only [Decoder.nextAction, hphase, Decoder.fetch, decode, decodeMarker_absent habsent, rejectAction]

theorem Decoder.passStep_of_marker {d : Decoder} (hphase : d.phase = .endMark)
    (hmarker : (d.input.drop d.ipos).take 8 = endMarkerBytes) : d.passStep = endMarkerEffect d := by
  rw [Decoder.passStep, Decoder.nextAction_of_marker hphase hmarker]
  rfl

theorem Decoder.passStep_of_no_marker {d : Decoder} (hphase : d.phase = .endMark)
    (habsent : (d.input.drop d.ipos).take 8 ≠ endMarkerBytes) : d.passStep = d.missMarker := by
  rw [Decoder.passStep, Decoder.nextAction_of_no_marker hphase habsent]
  rfl

theorem step_of_no_marker {s : State} (hagent : s.agent = .decoder) (hphase : s.dec.phase = .endMark)
    (habsent : (s.dec.input.drop s.dec.ipos).take 8 ≠ endMarkerBytes) : step s = .next (s.setDec s.dec.missMarker) := by
  rw [step_decoder hagent (by simp [Decoder.nextAction_of_no_marker hphase habsent]),
    Decoder.passStep_of_no_marker hphase habsent]

theorem Decoder.nextAction_of_trailing {d : Decoder} (hphase : d.phase = .trailing) : d.nextAction = .copyTrailing := by
  simp only [Decoder.nextAction, hphase]

theorem Decoder.passStep_of_trailing {d : Decoder} (hphase : d.phase = .trailing) : d.passStep = d.takeTrailing := by
  rw [Decoder.passStep, Decoder.nextAction_of_trailing hphase]
  rfl

theorem step_of_trailing {s : State} (hagent : s.agent = .decoder) (hphase : s.dec.phase = .trailing) :
    step s = .next (s.setDec s.dec.takeTrailing) := by
  rw [step_decoder hagent (by simp [Decoder.nextAction_of_trailing hphase]), Decoder.passStep_of_trailing hphase]

/-- Settles O28: END where the marker stands, else the marker is absent; then the trailing data. -/
theorem endMarkerAndTrailingData : Obligations.EndMarkerAndTrailingData := by
  refine ⟨fun s hagent hphase => ?marker, fun s hagent hphase => step_of_trailing hagent hphase⟩
  by_cases hmarker : (s.dec.input.drop s.dec.ipos).take 8 = endMarkerBytes
  · exact .inl ⟨hmarker, step_item hagent (Decoder.nextAction_of_marker hphase hmarker)⟩
  · refine .inr ⟨hmarker, ?_⟩
    rw [step_of_no_marker hagent hphase hmarker]
    exact ⟨fun hreq => by rw [Decoder.missMarker_of_required hreq]; rfl,
      fun hreq => by rw [Decoder.missMarker_of_not_required hreq]; rfl⟩

/-- A run is continued from the state it has reached. -/
theorem core_run_add {n : Nat} {s u : State} (h : Sys2Proof.core.run n s = .next u) (m : Nat) :
    Sys2Proof.core.run (n + m) s = Sys2Proof.core.run m u := by
  induction n generalizing s with
  | zero => cases h; rw [Nat.zero_add]
  | succ n ih =>
    cases hstep : step s with
    | next t =>
      rw [core_run_of_step hstep] at h
      rw [Nat.add_right_comm, core_run_of_step hstep, ih h]
    | fault r => cases r
    | refused r =>
      have hcore : Sys2Proof.core.step s = .refused r := hstep
      simp only [Host.Core.run, hcore] at h
      cases h

theorem core_run_one {s u : State} (h : step s = .next u) : Sys2Proof.core.run 1 s = .next u := core_run_of_step h 0

/-- Settles O29: nothing is left of the input, so the loop is over, no marker follows and no trailing data. -/
theorem payloadExhausted : Obligations.PayloadExhausted := by
  intro s hagent hphase hend hmore
  have hnil : s.dec.input.drop s.dec.ipos = [] := List.drop_eq_nil_of_le (Nat.le_of_eq hend.symm)
  have htwo := core_run_two_of_markerAbsent hagent hphase (fun h => Nat.ne_of_lt h.1 hend) (by rw [hnil]; decide)
  refine ⟨fun hreq => ?tolerated, fun hreq => ?required⟩
  case tolerated =>
    rw [Decoder.missMarker_of_not_required (by rw [Decoder.endLoop_opts, hreq])] at htwo
    have hlast := step_of_trailing (s := s.setDec { s.dec.endLoop with endTagPresent := false, phase := .trailing })
      hagent rfl
    rw [core_run_add (n := 2) htwo 1, core_run_one hlast]
    simp [State.setDec, Decoder.takeTrailing, Decoder.finish, Decoder.endLoop, hend, headerLen]
  case required =>
    rw [htwo, Decoder.missMarker_of_required (by rw [Decoder.endLoop_opts, hreq])]
    rfl

end Sys2Proof.Machine
end

section
/-! PROOFS. A decode pass over a whole input ends (spec/41_decoder.md R155), in DONE or in ERROR, and the machine runs it to that
end (R150, spec/00_scope.md R12). -/

namespace Sys2Proof.Machine

/-! ## The steps that are left -/

/-- How many steps a pass has left at most: a chunk consumes a byte, and three steps follow the chunk loop. -/
def Decoder.stepsLeft (d : Decoder) : Nat :=
  match d.phase with
  | .header => d.input.length + 4
  | .tag => d.input.length - d.ipos + 3
  | .endMark => 2
  | .trailing => 1
  | .idle => 0
  | .args => 0
  | .done => 0
  | .error => 0

theorem Decoder.nextAction_of_stepsLeft_zero {d : Decoder} (h : d.stepsLeft = 0) : d.nextAction = .rest := by
  cases hphase : d.phase <;> simp [Decoder.stepsLeft, hphase] at h <;> simp [Decoder.nextAction, hphase]

/-- Every step of a pass that does not rest brings its end nearer. -/
theorem Decoder.PassMove.stepsLeft_lt {d d' : Decoder} (h : d.PassMove d') (hruns : d.nextAction ≠ .rest) :
    d'.stepsLeft < d.stepsLeft := by
  cases h with
  | header w ht c cs hphase hlen =>
    have hlen : 14 ≤ d.input.length := (Nat.le_add_left _ _).trans hlen
    rcases headerEffect_cases w ht c cs d with ⟨-, heffect⟩ | ⟨-, -, heffect⟩ | ⟨-, -, heffect⟩ <;> rw [heffect] <;>
      simp only [Decoder.stepsLeft, hphase, headerLen] <;> omega
  | chunk i type hphase _ htype hlen =>
    have hbytes := (chunk_byteLength i type htype).1
    rcases itemEffect_chunk i d type htype with ⟨p, n, heffect, -⟩ | ⟨-, heffect⟩ <;> rw [heffect]
    · simp only [Decoder.commit_eq, Decoder.stepsLeft, Decoder.advance_phase, Decoder.advance_input, Decoder.advance_ipos,
        hphase]
      omega
    · simp only [Decoder.stepsLeft, Decoder.raise_phase, hphase]
      omega
  | fail c hphase =>
    rcases hphase with hphase | hphase <;> simp only [Decoder.stepsLeft, Decoder.failReading_phase, hphase] <;> omega
  | loopEnd hphase =>
    simp only [Decoder.stepsLeft, Decoder.endLoop_phase, hphase]
    omega
  | marker hphase => simp [Decoder.stepsLeft, endMarkerEffect, hphase]
  | markerAbsent hphase =>
    unfold Decoder.missMarker
    split <;> simp [Decoder.stepsLeft, hphase]
  | copyTrailing hphase => simp [Decoder.stepsLeft, hphase]
  | rest hrest => exact absurd hrest hruns

theorem Decoder.runPass_of_rest {d : Decoder} (h : d.nextAction = .rest) (n : Nat) : d.runPass n = d := by
  induction n with
  | zero => rfl
  | succ n ih => rw [Decoder.runPass, Decoder.passStep_of_rest h, ih]

theorem Decoder.nextAction_runPass {d : Decoder} {n : Nat} (h : d.stepsLeft ≤ n) : (d.runPass n).nextAction = .rest := by
  induction n generalizing d with
  | zero => exact Decoder.nextAction_of_stepsLeft_zero (Nat.le_zero.mp h)
  | succ n ih =>
    by_cases hrest : d.nextAction = .rest
    · rw [Decoder.runPass_of_rest hrest, hrest]
    · exact ih (Nat.le_of_lt_succ ((d.passMove_passStep.stepsLeft_lt hrest).trans_le h))

/-- The steps that `decodeFinal` allows are enough (R155). -/
theorem decodeFinal_rests (seed : Bool) (unparsed : HeaderRegs) (o : DecoderOptions) (input : List Byte) (d : Decoder) :
    (decodeFinal seed unparsed o input d).nextAction = .rest :=
  Decoder.nextAction_runPass (Nat.le_refl _)

/-! ## How a pass ends -/

/-- What every step of a pass keeps holds at its end. -/
theorem Decoder.runPass_induction {P : Decoder → Prop} (hkeep : ∀ d d' : Decoder, P d → d.PassMove d' → P d')
    {d : Decoder} (h : P d) (n : Nat) : P (d.runPass n) := by
  induction n generalizing d with
  | zero => exact h
  | succ n ih => exact ih (hkeep _ _ h d.passMove_passStep)

theorem decodeFinal_passInv (seed : Bool) (unparsed : HeaderRegs) (o : DecoderOptions) (input : List Byte) (d : Decoder) :
    (decodeFinal seed unparsed o input d).PassInv :=
  Decoder.runPass_induction (fun _ _ h hmove => h.passMove hmove) (d.passInv_start seed unparsed o input) _

/-- No step leads back to IDLE (R33, R282). -/
theorem Decoder.PassMove.phase_ne_idle {d d' : Decoder} (h : d.PassMove d') (hphase : d.phase ≠ .idle) :
    d'.phase ≠ .idle := by
  cases h with
  | header w ht c cs =>
    rcases headerEffect_cases w ht c cs d with ⟨-, heffect⟩ | ⟨-, -, heffect⟩ | ⟨-, -, heffect⟩ <;> simp [heffect]
  | chunk i type _ _ htype =>
    rcases itemEffect_chunk i d type htype with ⟨p, n, heffect, -⟩ | ⟨-, heffect⟩
    · simpa [heffect, Decoder.commit_eq] using hphase
    · simp [heffect]
  | markerAbsent =>
    unfold Decoder.missMarker
    split <;> simp
  | rest => exact hphase
  | _ => simp [endMarkerEffect]

/-- Where a pass rests it has not begun or it has ended. -/
theorem Decoder.PassInv.ended_of_rest {d : Decoder} (h : d.PassInv) (hrest : d.nextAction = .rest)
    (hbegun : d.phase ≠ .idle) : d.phase = .done ∨ d.phase = .error := by
  cases hphase : d.phase
  case idle => exact absurd hphase hbegun
  case header => exact absurd (Decoder.nextAction_of_header hphase ▸ hrest) (d.fetch_ne_rest .header)
  case tag => exact absurd hphase (Decoder.phase_ne_tag_of_rest hrest)
  case args => exact absurd hphase h.notArgs
  case endMark =>
    simp only [Decoder.nextAction, hphase] at hrest
    exact absurd hrest (d.fetch_ne_rest .marker)
  case trailing => simp [Decoder.nextAction, hphase] at hrest
  case done => exact .inl rfl
  case error => exact .inr rfl

theorem decodeFinal_ended (seed : Bool) (unparsed : HeaderRegs) (o : DecoderOptions) (input : List Byte) (d : Decoder) :
    (decodeFinal seed unparsed o input d).phase = .done ∨ (decodeFinal seed unparsed o input d).phase = .error :=
  (decodeFinal_passInv seed unparsed o input d).ended_of_rest (decodeFinal_rests seed unparsed o input d)
    (Decoder.runPass_induction (P := fun d => d.phase ≠ .idle) (fun _ _ h hmove => hmove.phase_ne_idle h)
      (by simp [Decoder.start]) _)

/-- Settles O31: the pass rests within its bound, and what the invariant says of a pass that rests. -/
theorem decodeAlwaysEnds : Obligations.DecodeAlwaysEnds := by
  intro seed unparsed o input d
  obtain ⟨hdone, herror, hcause, hsize⟩ := (decodeFinal_passInv seed unparsed o input d).phaseInv.flags
  rcases decodeFinal_ended seed unparsed o input d with hphase | hphase
  · exact .inl ⟨hphase, hdone.mpr hphase, by simpa [hphase] using herror⟩
  · have herr := herror.mpr hphase
    exact .inr ⟨hphase, herr, by simpa [hphase] using hdone, by simp [hcause, herr], hsize⟩

/-! ## The machine runs it -/

/-- A pass that is over gives the turn back to the host. -/
theorem step_of_rest {s : State} (hagent : s.agent = .decoder) (hrest : s.dec.nextAction = .rest) :
    step s = .next (s.setAgent .host) := by
  simp only [step, hagent, decoderStep, hrest]

/-- The machine runs a pass to its end, and one step more gives the turn back to the host. -/
theorem core_run_pass {n : Nat} {s : State} (hagent : s.agent = .decoder) (h : s.dec.stepsLeft ≤ n) :
    ∃ k ≤ n + 1, Sys2Proof.core.run k s = .next ((s.setDec (s.dec.runPass n)).setAgent .host) := by
  induction n generalizing s with
  | zero =>
    have hrest := Decoder.nextAction_of_stepsLeft_zero (Nat.le_zero.mp h)
    exact ⟨1, Nat.le_refl 1, core_run_one (step_of_rest hagent hrest)⟩
  | succ n ih =>
    by_cases hrest : s.dec.nextAction = .rest
    · refine ⟨1, Nat.le_add_left 1 (n + 1), ?_⟩
      rw [core_run_one (step_of_rest hagent hrest), Decoder.runPass_of_rest hrest]
      rfl
    · have hless := s.dec.passMove_passStep.stepsLeft_lt hrest
      obtain ⟨k, hk, hrun⟩ := ih (s := s.setDec s.dec.passStep) hagent (Nat.le_of_lt_succ (hless.trans_le h))
      exact ⟨k + 1, Nat.succ_le_succ hk, (core_run_of_step (step_decoder hagent hrest) k).trans hrun⟩

/-- A START with a whole input that is accepted (R150, R240). -/
theorem step_decode {s : State} {o : DecoderOptions} {input : List Byte} {later : List Event} (hagent : s.agent = .host)
    (hrun : s.dec.runLeft = 0) (hstart : s.dec.startable = true) (hpending : s.pending = .decode o input :: later) :
    step s = .next { s with
      pending := later, freeIndex := s.freeIndex + 1, agent := .decoder
      dec := s.dec.start Config.cacheSeed (Config.unparsedHeader s.freeIndex) o input } := by
  simp [step, hagent, hostStep, hrun, hpending, deliver, State.startDecode, hstart]

/-- Settles O34: the START, then the steps of the pass, then the step that gives the turn back. -/
theorem machineRunsADecodePass : Obligations.MachineRunsADecodePass := by
  intro s o input later hagent hrun hstart hpending
  obtain ⟨k, hk, hpass⟩ := core_run_pass (n := input.length + 4) (s := { s with
    pending := later, freeIndex := s.freeIndex + 1, agent := .decoder
    dec := s.dec.start Config.cacheSeed (Config.unparsedHeader s.freeIndex) o input }) rfl (Nat.le_refl _)
  refine ⟨k + 1, Nat.succ_le_succ hk, ?_⟩
  rw [core_run_of_step (step_decode hagent hrun hstart hpending), hpass]
  cases s
  cases hagent
  rfl

end Sys2Proof.Machine
end

section
/-! PROOFS. The chunk counts weighted with the chunk lengths (spec/41_decoder.md R169): along a pass they are the bytes that the
cursor has moved since the header. -/

namespace Sys2Proof.Machine

/-- The length of a chunk, by its type (R93). -/
def chunkBytes : ChunkType → Nat
  | .rgb => 4
  | .rgba => 5
  | .index => 1
  | .diff => 1
  | .luma => 2
  | .run => 1

theorem byteLength_eq_chunkBytes {i : Instr} {type : ChunkType} (h : i.chunkType = some type) :
    i.byteLength = chunkBytes type := by
  cases i <;> cases h <;> rfl

/-- The counts weighted with the chunk lengths (R169). -/
def ChunkCounts.bytes (n : ChunkCounts) : Nat := n.rgb * 4 + n.rgba * 5 + n.luma * 2 + n.index + n.diff + n.run

theorem ChunkCounts.bytes_bump (type : ChunkType) (n : ChunkCounts) : (n.bump type).bytes = n.bytes + chunkBytes type := by
  cases type <;> simp only [ChunkCounts.bytes, ChunkCounts.bump, chunkBytes] <;> omega

/-- What the counted bytes are, by where the pass stands; nothing is said of a pass that has failed (R280). -/
def Decoder.Counted (d : Decoder) : Prop :=
  match d.phase with
  | .header => d.count.bytes = 0
  | .tag => headerLen + d.count.bytes = d.ipos
  | .endMark => d.count.bytes = d.pixelDataByteLength
  | .trailing => d.count.bytes = d.pixelDataByteLength
  | .done => d.count.bytes = d.pixelDataByteLength
  | .idle => True
  | .args => True
  | .error => True

theorem Decoder.Counted.passMove {d d' : Decoder} (h : d.Counted) (hmove : d.PassMove d') : d'.Counted := by
  cases hmove with
  | header w ht c cs hphase =>
    simp only [Decoder.Counted, hphase] at h
    rcases headerEffect_cases w ht c cs d with ⟨-, heffect⟩ | ⟨-, -, heffect⟩ | ⟨-, -, heffect⟩ <;>
      simp [heffect, Decoder.Counted, h]
  | chunk i type hphase _ htype =>
    simp only [Decoder.Counted, hphase] at h
    rcases itemEffect_chunk i d type htype with ⟨p, n, heffect, -⟩ | ⟨-, heffect⟩ <;> rw [heffect]
    · simp only [Decoder.commit_eq, Decoder.Counted, Decoder.advance_phase, Decoder.advance_ipos, Decoder.advance_count,
        hphase, ChunkCounts.bytes_bump, byteLength_eq_chunkBytes htype]
      omega
    · trivial
  | fail => trivial
  | loopEnd hphase =>
    simp only [Decoder.Counted, hphase] at h
    show d.count.bytes = d.ipos - headerLen
    omega
  | marker hphase =>
    simp only [Decoder.Counted, hphase] at h
    exact h
  | markerAbsent hphase =>
    simp only [Decoder.Counted, hphase] at h
    unfold Decoder.missMarker
    split
    · trivial
    · exact h
  | copyTrailing hphase =>
    simp only [Decoder.Counted, hphase] at h
    exact h
  | rest => exact h

/-- Settles O32: `Decoder.Counted` along the pass, read at its end. -/
theorem chunkCountsAddUp : Obligations.ChunkCountsAddUp := by
  intro seed unparsed o input d hdone
  have hcounted : (decodeFinal seed unparsed o input d).Counted :=
    Decoder.runPass_induction (P := Decoder.Counted) (fun _ _ h hmove => h.passMove hmove)
      (d := d.start seed unparsed o input) rfl (input.length + 4)
  have hphase := (decodeFinal_passInv seed unparsed o input d).phaseInv.flags.1.mp hdone
  simp only [Decoder.Counted, hphase] at hcounted
  exact hcounted

end Sys2Proof.Machine
end

section
/-! PROOFS. Debug colors and the index history are sinks (spec/41_decoder.md R172): a pass runs alike whatever the two options
are and whatever the two streams hold. -/

namespace Sys2Proof.Machine

/-- The options and the two streams that debug mode and the history decide on. -/
structure Sinks where
  opts : DecoderOptions
  pix  : List Pixel
  hist : List Cache

def Decoder.sinks (d : Decoder) : Sinks := ⟨d.opts, d.pix, d.hist⟩

/-- The same decoder with other options and other colors and snapshots put out. -/
def Decoder.withSinks (x : Sinks) (d : Decoder) : Decoder := { d with opts := x.opts, pix := x.pix, hist := x.hist }

/-- The marker is required in both or in neither, and where an option is the same so is its stream. -/
structure Sinks.Agree (x y : Sinks) : Prop where
  required : x.opts.requireEndTag = y.opts.requireEndTag
  colors : x.opts.debugMode = y.opts.debugMode → x.pix = y.pix
  history : x.opts.storeFullIndexHistory = y.opts.storeFullIndexHistory → x.hist = y.hist

/-- The two decoders differ in their sinks only, and these agree. -/
def Decoder.Alike (d d' : Decoder) : Prop := ∃ x, d' = d.withSinks x ∧ d.sinks.Agree x

theorem Decoder.Alike.differ_in_sinks {d d' : Decoder} (h : d.Alike d') :
    d' = { d with opts := d'.opts, pix := d'.pix, hist := d'.hist } ∧
    (d.opts.debugMode = d'.opts.debugMode → d'.pix = d.pix) ∧
    (d.opts.storeFullIndexHistory = d'.opts.storeFullIndexHistory → d'.hist = d.hist) := by
  obtain ⟨x, rfl, hagree⟩ := h
  exact ⟨rfl, fun hdebug => (hagree.colors hdebug).symm, fun hstore => (hagree.history hstore).symm⟩

theorem Decoder.Alike.commit {d d' : Decoder} (h : d.Alike d') (p : Pixel) (n : Nat) (type : ChunkType) :
    (d.commit p n type).Alike (d'.commit p n type) := by
  obtain ⟨x, rfl, hrequired, hcolors, hhistory⟩ := h
  simp only [Decoder.commit, Decoder.commitPixels_eq]
  refine ⟨⟨x.opts, x.pix ++ outColors x.opts.debugMode p type 0 n,
    if x.opts.storeFullIndexHistory then x.hist ++ List.replicate n (d.cache.update p) else x.hist⟩, rfl, hrequired, ?_, ?_⟩
  · intro hdebug
    have hdebug : d.opts.debugMode = x.opts.debugMode := hdebug
    show d.pix ++ outColors d.opts.debugMode p type 0 n = _
    rw [show d.pix = x.pix from hcolors hdebug, hdebug]
  · intro hstore
    have hstore : d.opts.storeFullIndexHistory = x.opts.storeFullIndexHistory := hstore
    show (if d.opts.storeFullIndexHistory = true then d.hist ++ _ else d.hist) = _
    rw [show d.hist = x.hist from hhistory hstore, hstore]

/-- An update that neither reads nor writes a sink keeps two decoders alike. -/
theorem Decoder.Alike.map {d d' : Decoder} (h : d.Alike d') {f : Decoder → Decoder}
    (hsinks : (f d).sinks = d.sinks) (hf : ∀ x, f (d.withSinks x) = (f d).withSinks x) : (f d).Alike (f d') := by
  obtain ⟨x, rfl, hagree⟩ := h
  exact ⟨x, hf x, hsinks ▸ hagree⟩

/-- Two decoders that take the same branch stay alike. -/
theorem Decoder.Alike.ite {a a' b b' : Decoder} {p : Prop} [Decidable p] (ha : a.Alike a') (hb : b.Alike b') :
    (if p then a else b).Alike (if p then a' else b') := by
  split
  · exact ha
  · exact hb

theorem Decoder.Alike.itemEffect {d d' : Decoder} (h : d.Alike d') (i : Instr) :
    (itemEffect i d).Alike (itemEffect i d') := by
  have hadvance (n : Nat) : (d.advance n).Alike (d'.advance n) := h.map rfl fun _ => rfl
  obtain ⟨x, rfl, -⟩ := id h
  cases i with
  | rgb r g b => exact (hadvance 4).commit ⟨r, g, b, d.prev.a⟩ 1 .rgb
  | rgba r g b a => exact (hadvance 5).commit ⟨r, g, b, a⟩ 1 .rgba
  | index idx => exact (hadvance 1).commit (d.cache.read idx) 1 .index
  | diff dr2 dg2 db2 => exact (hadvance 1).commit (diffPixel dr2 dg2 db2 d.prev) 1 .diff
  | luma dg32 drg8 dbg8 => exact (hadvance 2).commit (lumaPixel dg32 drg8 dbg8 d.prev) 1 .luma
  | run len1 =>
    exact .ite (p := d.opix + runLength len1 > d.npix) (h.map rfl fun _ => rfl)
      ((hadvance 1).commit d.prev (runLength len1) .run)
  | header w ht c cs =>
    have hchannels := h.map (f := fun d => (d.writeSize w ht).raise .badChannels) rfl fun _ => rfl
    have hcolorspace := h.map (f := fun d => ((d.writeSize w ht).writeChannels c).raise .badColorspace) rfl fun _ => rfl
    have hwritten := h.map (f := fun d => ((d.writeSize w ht).writeChannels c).writeColorspace cs) rfl fun _ => rfl
    exact .ite (p := legalChannels c = false) hchannels (.ite (p := legalColorspace cs = false) hcolorspace hwritten)
  | endMarker => exact h.map rfl fun _ => rfl

/-- The absent marker is an error for both or for neither (R167). -/
theorem Decoder.Alike.missMarker {d d' : Decoder} (h : d.Alike d') : d.missMarker.Alike d'.missMarker := by
  have hsame : d.opts.requireEndTag = d'.opts.requireEndTag := by
    obtain ⟨x, rfl, hagree⟩ := h
    exact hagree.required
  unfold Decoder.missMarker
  rw [← hsame]
  exact .ite (h.map (f := fun d => (d.setEndTag false).raise .missingEndTag) rfl fun _ => rfl)
    (h.map (f := fun d => (d.setEndTag false).goTo .trailing) rfl fun _ => rfl)

theorem Decoder.Alike.control {d d' : Decoder} (h : d.Alike d') (a : DecoderAction) :
    (d.control a).Alike (d'.control a) := by
  cases a with
  | markerAbsent => exact h.missMarker
  | _ => exact h.map rfl fun _ => rfl

theorem Decoder.Alike.nextAction_eq {d d' : Decoder} (h : d.Alike d') : d'.nextAction = d.nextAction := by
  obtain ⟨x, rfl, -⟩ := h
  rfl

theorem Decoder.Alike.passStep {d d' : Decoder} (h : d.Alike d') : d.passStep.Alike d'.passStep := by
  unfold Decoder.passStep
  rw [h.nextAction_eq]
  cases d.nextAction with
  | item i => exact h.itemEffect i
  | _ => exact h.control _

theorem Decoder.Alike.runPass {d d' : Decoder} (h : d.Alike d') (n : Nat) : (d.runPass n).Alike (d'.runPass n) := by
  induction n generalizing d d' with
  | zero => exact h
  | succ n ih => exact ih h.passStep

/-- A pass keeps the options of its START (R23). -/
theorem decodeFinal_opts (seed : Bool) (unparsed : HeaderRegs) (o : DecoderOptions) (input : List Byte) (d : Decoder) :
    (decodeFinal seed unparsed o input d).opts = o :=
  Decoder.runPass_induction (P := fun d => d.opts = o) (fun _ _ h hmove => hmove.commitsTo.opts_eq.trans h)
    (d := d.start seed unparsed o input) rfl _

/-- Settles O33: two passes that start alike end alike, with the options they started with. -/
theorem observationChangesNothing : Obligations.ObservationChangesNothing := by
  intro seed unparsed o o' input d hrequired
  have hstart : (d.start seed unparsed o input).Alike (d.start seed unparsed o' input) :=
    ⟨⟨o', [], []⟩, rfl, hrequired, fun _ => rfl, fun _ => rfl⟩
  have hfinal : (decodeFinal seed unparsed o input d).Alike (decodeFinal seed unparsed o' input d) := hstart.runPass _
  simpa only [decodeFinal_opts] using hfinal.differ_in_sinks

end Sys2Proof.Machine
end

section
/-! PROOFS. Decoding what was encoded (spec/41_decoder.md R176): along the two passes the decoder stands where the encoder stood
(R141), then it reads what the encoder's TAIL wrote. -/

namespace Sys2Proof.Machine

/-! ## The encode pass of an Image ends -/

theorem Encoder.runPass_of_passStep {e e₁ : Encoder} (h : e.passStep = some e₁) (n : Nat) :
    e.runPass (n + 1) = e₁.runPass n := by
  simp only [Encoder.runPass, h]

theorem Encoder.passStep_of_more {e : Encoder} (hphase : e.phase = .pixels) (hmore : e.i < e.npix) :
    e.passStep = e.encodeChunk := by
  simp only [Encoder.passStep, hphase, if_pos hmore]

theorem Encoder.passStep_of_all {e : Encoder} (hphase : e.phase = .pixels) (hall : ¬ e.i < e.npix) :
    e.passStep = some (e.goTo .tail) := by
  simp only [Encoder.passStep, hphase, if_neg hall]

theorem Encoder.passStep_of_tail {e : Encoder} (hphase : e.phase = .tail) : e.passStep = some e.writeTail := by
  simp only [Encoder.passStep, hphase]

theorem Encoder.runPass_of_done {e : Encoder} (hphase : e.phase = .done) (n : Nat) : e.runPass n = some e := by
  have hstay : e.passStep = some e := by simp only [Encoder.passStep, hphase]
  induction n with
  | zero => rfl
  | succ n ih => rw [Encoder.runPass_of_passStep hstay, ih]

theorem Encoder.runPass_of_tail {e : Encoder} (hphase : e.phase = .tail) (n : Nat) :
    e.runPass (n + 1) = some e.writeTail := by
  rw [Encoder.runPass_of_passStep (Encoder.passStep_of_tail hphase), Encoder.runPass_of_done rfl]

theorem Encoder.grows_runPass {n : Nat} {e e' : Encoder} (h : e.runPass n = some e') : e.Grows e' := by
  induction n generalizing e with
  | zero => cases h; exact .refl _
  | succ n ih =>
    cases hstep : e.passStep with
    | none => simp [Encoder.runPass, hstep] at h
    | some e₁ =>
      rw [Encoder.runPass_of_passStep hstep] at h
      exact (Encoder.grows_passStep hstep).trans (ih h)

/-- An encode pass in its pixel loop or in TAIL, with all the pixels of its Image (R45, R193). -/
structure Encoder.Working (e : Encoder) : Prop where
  wholeImage : e.pixels.length = e.npix
  within : e.i ≤ e.npix
  phase : e.phase = .pixels ∨ e.phase = .tail ∧ e.i = e.npix

theorem Encoder.working_start (seed : Bool) (o : EncoderOptions) {x : Image} (hsize : x.pixels.length = x.regs.npix) :
    (Encoder.start seed o x.regs x.pixels x.trailing).Working := by
  refine ⟨hsize, Nat.zero_le _, ?_⟩
  rw [Encoder.start_phase]
  split
  · next hzero => exact .inr ⟨rfl, hzero.symm⟩
  · exact .inl rfl

/-- A turn of the pixel loop finds its pixel and moves on in the same Image (R193). -/
theorem Encoder.Working.exists_encodeChunk {e : Encoder} (h : e.Working) (hphase : e.phase = .pixels)
    (hmore : e.i < e.npix) :
    ∃ e₁, e.encodeChunk = some e₁ ∧ e₁.Working ∧ e.i < e₁.i ∧
      e₁.regs = e.regs ∧ e₁.pixels = e.pixels ∧ e₁.tailBytes = e.tailBytes := by
  cases hchunk : e.encodeChunk with
  | none =>
    unfold Encoder.encodeChunk at hchunk
    split at hchunk
    · next hnil =>
      have hsize := h.wholeImage
      have hend := List.drop_eq_nil_iff.mp hnil
      omega
    · cases hchunk
  | some e₁ =>
    obtain ⟨c, ahead, -, rfl⟩ := Encoder.encodeChunk_eq hchunk
    obtain ⟨hpos, hwithin⟩ := Encoder.covered_bounds hmore c ahead
    exact ⟨_, rfl, ⟨h.wholeImage, hwithin, .inl hphase⟩, Nat.lt_add_of_pos_right hpos, rfl, rfl, rfl⟩

/-- Each turn consumes a pixel, and two steps follow the pixel loop. -/
theorem Encoder.Working.runPass_ends {n : Nat} {e : Encoder} (h : e.Working) (hn : e.npix - e.i + 2 ≤ n) :
    ∃ e', e.runPass n = some e' ∧ e'.phase = .done ∧ e'.done = true := by
  induction n generalizing e with
  | zero => omega
  | succ n ih =>
    rcases h.phase with hphase | ⟨hphase, -⟩
    · by_cases hmore : e.i < e.npix
      · obtain ⟨e₁, hchunk, hworking, hless, hregs, -⟩ := h.exists_encodeChunk hphase hmore
        have hnpix : e₁.npix = e.npix := congrArg HeaderRegs.npix hregs
        rw [Encoder.runPass_of_passStep ((Encoder.passStep_of_more hphase hmore).trans hchunk)]
        exact ih hworking (by omega)
      · obtain ⟨m, rfl⟩ : ∃ m, n = m + 1 := ⟨n - 1, by omega⟩
        rw [Encoder.runPass_of_passStep (Encoder.passStep_of_all hphase hmore)]
        exact ⟨_, Encoder.runPass_of_tail rfl m, rfl, rfl⟩
    · exact ⟨_, Encoder.runPass_of_tail hphase n, rfl, rfl⟩

/-! ## The decoder follows the encoder -/

/-- The decoder, in a pass over the bytes `out`, stands where the encoder stands, with the same pixels out (R141). -/
structure Decoder.Follows (o : DecoderOptions) (out : List Byte) (e : Encoder) (d : Decoder) : Prop where
  opts : d.opts = o
  phase : d.phase = .tag
  noError : d.error = false
  input : d.input = out
  ipos : d.ipos = e.out.length
  cache : d.cache = e.cache
  prev : d.prev = e.prev
  opix : d.opix = e.i
  regs : d.regs = e.regs
  pix : d.pix = e.pixels.take e.i

/-- The decoder has read all chunks: the pixels of the image are out and the encoder's tail is next. -/
structure Decoder.AtTail (o : DecoderOptions) (e : Encoder) (d : Decoder) : Prop where
  opts : d.opts = o
  phase : d.phase = .tag
  noError : d.error = false
  all : d.opix = d.npix
  regs : d.regs = e.regs
  pix : d.pix = e.pixels
  tail : d.input.drop d.ipos = e.tailBytes

theorem Decoder.AtTail.of_same_image {o : DecoderOptions} {e e₁ : Encoder} {d : Decoder} (h : d.AtTail o e₁)
    (hregs : e₁.regs = e.regs) (hpixels : e₁.pixels = e.pixels) (htail : e₁.tailBytes = e.tailBytes) : d.AtTail o e :=
  { h with regs := h.regs.trans hregs, pix := h.pix.trans hpixels, tail := h.tail.trans htail }

/-- A pass gets from one decoder to the other. -/
def Decoder.Reaches (d d' : Decoder) : Prop := ∃ k, d.runPass k = d'

theorem Decoder.Reaches.of_passStep {d d' : Decoder} (h : d.passStep.Reaches d') : d.Reaches d' := by
  obtain ⟨k, h⟩ := h
  exact ⟨k + 1, h⟩

theorem Decoder.runPass_add (m n : Nat) (d : Decoder) : d.runPass (m + n) = (d.runPass m).runPass n := by
  induction m generalizing d with
  | zero => rw [Nat.zero_add]; rfl
  | succ m ih => rw [Nat.add_right_comm]; exact ih d.passStep

theorem Decoder.Reaches.trans {d d₁ d' : Decoder} (h : d.Reaches d₁) (h' : d₁.Reaches d') : d.Reaches d' := by
  obtain ⟨m, rfl⟩ := h
  obtain ⟨n, rfl⟩ := h'
  exact ⟨m + n, d.runPass_add m n⟩

/-- A pass rests in one state only, whatever the number of steps. -/
theorem decodeFinal_eq_of_reaches {seed : Bool} {unparsed : HeaderRegs} {o : DecoderOptions} {input : List Byte}
    {d d' : Decoder} (h : (d.start seed unparsed o input).Reaches d') (hrest : d'.nextAction = .rest) :
    decodeFinal seed unparsed o input d = d' := by
  obtain ⟨k, rfl⟩ := h
  have hfinal := decodeFinal_rests seed unparsed o input d
  rw [← Decoder.runPass_of_rest hfinal k, ← Decoder.runPass_of_rest hrest (input.length + 4), decodeFinal,
    ← Decoder.runPass_add, ← Decoder.runPass_add, Nat.add_comm]

/-- A chunk that does not fail keeps the options, the phase, the input and the header registers. -/
theorem itemEffect_chunk_frame {i : Instr} {type : ChunkType} {d : Decoder} (htype : i.chunkType = some type)
    (herror : (itemEffect i d).error = false) :
    (itemEffect i d).opts = d.opts ∧ (itemEffect i d).phase = d.phase ∧ (itemEffect i d).input = d.input ∧
      (itemEffect i d).regs = d.regs := by
  rcases itemEffect_chunk i d type htype with ⟨p, n, heffect, -⟩ | ⟨-, heffect⟩
  · simp [heffect, Decoder.commit_eq]
  · simp [heffect] at herror

/-- One turn of the encoder is one step of the decoder (R141, R155, R193). -/
theorem Decoder.Follows.passStep {o : DecoderOptions} {out : List Byte} {e e₁ : Encoder} {d : Decoder}
    (h : d.Follows o out e) (hdebug : o.debugMode = false) (hsize : e.pixels.length = e.npix) (hmore : e.i < e.npix)
    (hchunk : e.encodeChunk = some e₁) (hbegins : e₁.out <+: out) : d.passStep.Follows o out e₁ := by
  obtain ⟨i, -, hemits, hreads, hcache, hprev, hopix, -, herror, hipos, hpix⟩ :=
    lockstep e e₁ d hsize hmore hchunk h.cache h.prev h.opix (congrArg HeaderRegs.npix h.regs) h.noError
  obtain ⟨more, hmoreBytes⟩ := hbegins
  have hcursor : d.input.drop d.ipos = encode i ++ more := by
    rw [h.input, h.ipos, ← hmoreBytes, hemits, List.append_assoc, List.drop_left]
  have hread := hreads more
  have hnpix : d.npix = e.npix := congrArg HeaderRegs.npix h.regs
  have hexpected : d.opix < d.npix := by rw [h.opix, hnpix]; exact hmore
  have hstep : d.passStep = itemEffect i d := by
    rw [Decoder.passStep, Decoder.nextAction_of_chunk h.phase hexpected (hcursor ▸ hread)]
  obtain ⟨⟨type, htype⟩, -⟩ := decodeChunk_ok hread
  obtain ⟨hopts', hphase', hinput', hregs'⟩ := itemEffect_chunk_frame htype herror
  have hpix := hpix (by rw [h.opts, hdebug])
  obtain ⟨c, ahead, -, rfl⟩ := Encoder.encodeChunk_eq hchunk
  rw [hstep]
  exact {
    opts := hopts'.trans h.opts
    phase := hphase'.trans h.phase
    noError := herror
    input := hinput'.trans h.input
    ipos := by rw [hipos, hemits, List.length_append, h.ipos]
    cache := hcache
    prev := hprev
    opix := hopix
    regs := hregs'.trans h.regs
    pix := by rw [hpix, h.pix, Nat.add_sub_cancel_left, List.take_add] }

/-- After the last pixel the encoder's tail is next, in the decoder's input too. -/
theorem Decoder.Follows.atTail {o : DecoderOptions} {e : Encoder} {d : Decoder} (h : d.Follows o e.writeTail.out e)
    (hsize : e.pixels.length = e.npix) (hall : e.i = e.npix) : d.AtTail o e where
  opts := h.opts
  phase := h.phase
  noError := h.noError
  all := by rw [h.opix, hall]; exact congrArg HeaderRegs.npix h.regs.symm
  regs := h.regs
  pix := by rw [h.pix, List.take_of_length_le (by omega)]
  tail := by rw [h.input, h.ipos, Encoder.writeTail_eq, List.drop_left]

/-- The decoder reads all the chunks that the encoder writes. -/
theorem Decoder.Follows.reaches_tail {n : Nat} {o : DecoderOptions} {e e' : Encoder} {d : Decoder}
    (h : d.Follows o e'.out e) (hdebug : o.debugMode = false) (hworking : e.Working) (hrun : e.runPass n = some e')
    (hdone : e'.phase = .done) : ∃ d', d.Reaches d' ∧ d'.AtTail o e := by
  induction n generalizing e d with
  | zero =>
    cases hrun
    rcases hworking.phase with hp | ⟨hp, -⟩ <;> simp [hp] at hdone
  | succ n ih =>
    rcases hworking.phase with hphase | ⟨hphase, hall⟩
    · by_cases hmore : e.i < e.npix
      · obtain ⟨e₁, hchunk, hworking₁, -, hregs, hpixels, htail⟩ := hworking.exists_encodeChunk hphase hmore
        rw [Encoder.runPass_of_passStep ((Encoder.passStep_of_more hphase hmore).trans hchunk)] at hrun
        obtain ⟨bytes, hbegins, -⟩ := (Encoder.grows_runPass hrun).out
        have hfollows := h.passStep hdebug hworking.wholeImage hmore hchunk ⟨bytes, hbegins.symm⟩
        obtain ⟨d', hreaches, hat⟩ := ih hfollows hworking₁ hrun
        exact ⟨d', hreaches.of_passStep, hat.of_same_image hregs hpixels htail⟩
      · rw [Encoder.runPass_of_passStep (Encoder.passStep_of_all hphase hmore)] at hrun
        have hall : e.i = e.npix := Nat.le_antisymm hworking.within (Nat.le_of_not_lt hmore)
        have hworking' : (e.goTo .tail).Working := ⟨hworking.wholeImage, hworking.within, .inr ⟨rfl, hall⟩⟩
        obtain ⟨d', hreaches, hat⟩ := ih (e := e.goTo .tail) { h with } hworking' hrun
        exact ⟨d', hreaches, { hat with }⟩
    · rw [Encoder.runPass_of_tail hphase] at hrun
      cases hrun
      exact ⟨d, ⟨0, rfl⟩, h.atTail hworking.wholeImage hall⟩

/-- The header that the encoder's START emits puts the decoder where the encoder stands (R151, R191). -/
theorem Decoder.follows_of_header {seed : Bool} {unparsed : HeaderRegs} {eo : EncoderOptions} {o : DecoderOptions} {x : Image}
    {out : List Byte} (hlegal : fieldsLegal x.regs = true)
    (hbegins : (Encoder.start seed eo x.regs x.pixels x.trailing).out <+: out) (d : Decoder) :
    (d.start seed unparsed o out).passStep.Follows o out (Encoder.start seed eo x.regs x.pixels x.trailing) := by
  obtain ⟨more, rfl⟩ := hbegins
  rw [Decoder.passStep_of_legal_header (more := more) rfl rfl hlegal]
  exact ⟨rfl, rfl, rfl, rfl, rfl, rfl, rfl, rfl, rfl, rfl⟩

/-! ## The end of the decode pass -/

theorem Decoder.result_takeTrailing {d : Decoder} (h : d.error = false) :
    d.takeTrailing.result = some (.ok d.takeTrailing.outputs) := by
  simp [Decoder.result, h]

theorem Decoder.AtTail.passStep {o : DecoderOptions} {e : Encoder} {d : Decoder} (h : d.AtTail o e) :
    d.passStep = d.endLoop :=
  Decoder.passStep_of_loop_over h.phase fun hmore => Nat.ne_of_lt hmore.2 h.all

/-- Where the marker stands it is stripped, and what follows is the trailing data (R167, R168). -/
theorem Decoder.AtTail.ends_with_marker {o : DecoderOptions} {e : Encoder} {d : Decoder} (h : d.AtTail o e)
    (hmarker : e.tailBytes.take 8 = endMarkerBytes) :
    ∃ d' result, d.Reaches d' ∧ d'.nextAction = .rest ∧ d'.result = some (.ok result) ∧
      result.image = ⟨e.regs, e.pixels, e.tailBytes.drop 8⟩ ∧ result.endTagPresent = true := by
  have hstep : d.endLoop.passStep = endMarkerEffect d.endLoop :=
    Decoder.passStep_of_marker rfl (by rw [← h.tail] at hmarker; exact hmarker)
  refine ⟨(endMarkerEffect d.endLoop).takeTrailing, _, ⟨3, ?run⟩, rfl, Decoder.result_takeTrailing h.noError, ?image, rfl⟩
  case run =>
    simp only [Decoder.runPass, h.passStep, hstep]
    exact Decoder.passStep_of_trailing rfl
  case image =>
    show Image.mk d.regs d.pix (d.input.drop (d.ipos + 8)) = _
    rw [h.regs, h.pix, ← List.drop_drop, h.tail]

/-- Where it does not, and is not required, all the bytes are trailing data (R167, R168). -/
theorem Decoder.AtTail.ends_without_marker {o : DecoderOptions} {e : Encoder} {d : Decoder} (h : d.AtTail o e)
    (habsent : e.tailBytes.take 8 ≠ endMarkerBytes) (htolerated : o.requireEndTag = false) :
    ∃ d' result, d.Reaches d' ∧ d'.nextAction = .rest ∧ d'.result = some (.ok result) ∧
      result.image = ⟨e.regs, e.pixels, e.tailBytes⟩ := by
  have hstep : d.endLoop.passStep = { d.endLoop with endTagPresent := false, phase := .trailing } := by
    rw [Decoder.passStep_of_no_marker rfl (by rw [← h.tail] at habsent; exact habsent)]
    exact Decoder.missMarker_of_not_required (by rw [Decoder.endLoop_opts, h.opts, htolerated])
  refine ⟨Decoder.takeTrailing { d.endLoop with endTagPresent := false, phase := .trailing }, _, ⟨3, ?run⟩, rfl,
    Decoder.result_takeTrailing h.noError, ?image⟩
  case run =>
    simp only [Decoder.runPass, h.passStep, hstep]
    exact Decoder.passStep_of_trailing rfl
  case image =>
    show Image.mk d.regs d.pix (d.input.drop d.ipos) = _
    rw [h.regs, h.pix, h.tail]

/-! ## There and back -/

/-- A valid Image is encoded, and a decoder gets through its chunks to the encoder's tail. -/
theorem exists_encodePass_and_atTail (seed : Bool) (unparsed : HeaderRegs) (eo : EncoderOptions) {o : DecoderOptions}
    {x : Image} (hvalid : x.valid = true) (hdebug : o.debugMode = false) (d : Decoder) :
    ∃ out d', encodePass seed eo x = some out ∧ (d.start seed unparsed o out).Reaches d' ∧
      d'.AtTail o (Encoder.start seed eo x.regs x.pixels x.trailing) := by
  obtain ⟨hlegal, hsize⟩ := (Image.valid_iff x).mp hvalid
  have hworking := Encoder.working_start seed eo hsize
  obtain ⟨e', hrun, hphase, hdone⟩ := hworking.runPass_ends (n := x.pixels.length + 2) (by rw [hsize]; exact Nat.le_refl _)
  obtain ⟨bytes, hbegins, -⟩ := (Encoder.grows_runPass hrun).out
  have hfollows := d.follows_of_header (seed := seed) (unparsed := unparsed) (o := o) hlegal ⟨bytes, hbegins.symm⟩
  obtain ⟨d', hreaches, hat⟩ := hfollows.reaches_tail hdebug hworking hrun hphase
  exact ⟨e'.out, d', by simp [encodePass, hvalid, hrun, hdone], hreaches.of_passStep, hat⟩

/-- A decode pass that rests with a result has it as its result. -/
theorem decodePass_of_reaches {seed : Bool} {o : DecoderOptions} {input : List Byte} {d' : Decoder}
    {result : Except Cause DecodeResult}
    (h : (Decoder.reset.start seed (Config.unparsedHeader 0) o input).Reaches d') (hrest : d'.nextAction = .rest)
    (hresult : d'.result = some result) : decodePass seed o input = some result := by
  rw [decodePass, decodeFinal_eq_of_reaches h hrest, hresult]

/-- What TAIL writes of an Image (R207, R208). -/
theorem Encoder.tailBytes_start (seed : Bool) (o : EncoderOptions) (x : Image) :
    (Encoder.start seed o x.regs x.pixels x.trailing).tailBytes =
      (if o.insertEndTag then endMarkerBytes else []) ++ (if o.stripTrailingData then [] else x.trailing) := rfl

/-- Settles O54: the decoder gets to the encoder's tail, which is the marker and the trailing data, or the trailing data alone,
with the marker's bytes in front or not. -/
theorem roundTrip : Obligations.RoundTrip := by
  intro seed eo o x hvalid htag hdebug
  obtain ⟨out, d, hencode, hreaches, hat⟩ :=
    exists_encodePass_and_atTail seed (Config.unparsedHeader 0) eo hvalid hdebug Decoder.reset
  have hbytes := Encoder.tailBytes_start seed eo x
  cases hinsert : eo.insertEndTag
  case true =>
    simp only [hinsert, if_true] at hbytes
    obtain ⟨d', result, hend, hrest, hresult, himage, hpresent⟩ :=
      hat.ends_with_marker (by rw [hbytes]; exact List.take_left' rfl)
    refine ⟨out, result, hencode, decodePass_of_reaches (hreaches.trans hend) hrest hresult, ?_⟩
    rw [himage, hbytes]
    exact ⟨rfl, rfl, fun _ => ⟨hpresent, List.drop_left' rfl⟩, nofun, nofun⟩
  case false =>
    have htolerated := htag.resolve_left (by simp [hinsert])
    simp only [hinsert, Bool.false_eq_true, if_false, List.nil_append] at hbytes
    by_cases hmarker : (Encoder.start seed eo x.regs x.pixels x.trailing).tailBytes.take 8 = endMarkerBytes
    · obtain ⟨d', result, hend, hrest, hresult, himage, -⟩ := hat.ends_with_marker hmarker
      refine ⟨out, result, hencode, decodePass_of_reaches (hreaches.trans hend) hrest hresult, ?_⟩
      rw [himage, hbytes]
      refine ⟨rfl, rfl, nofun, fun _ hstrip habsent => ?_, fun _ hstrip _ => by simp [hstrip]⟩
      exact absurd (by simpa [hbytes, hstrip, endMarkerBytes] using hmarker) habsent
    · obtain ⟨d', result, hend, hrest, hresult, himage⟩ := hat.ends_without_marker hmarker htolerated
      refine ⟨out, result, hencode, decodePass_of_reaches (hreaches.trans hend) hrest hresult, ?_⟩
      rw [himage, hbytes]
      refine ⟨rfl, rfl, nofun, fun _ hstrip _ => by simp [hstrip], fun _ hstrip hpresent => ?_⟩
      exact absurd hpresent (by simpa [hbytes, hstrip, endMarkerBytes] using hmarker)

end Sys2Proof.Machine
end

section
/-! PROOFS. The chunk-selector (spec/42_encoder.md R193 to R204): the bytes of each case, in the order of their precedence, and
the length of a RUN. -/

namespace Sys2Proof.Machine

/-! ## The bytes of the six chunks -/

/-- Fields put side by side are the word of the shifted fields, or-ed. -/
theorem append_eq_ofNat {m n : Nat} (x : BitVec m) (y : BitVec n) :
    x ++ y = BitVec.ofNat (m + n) (x.toNat <<< n ||| y.toNat) := by
  rw [← BitVec.toNat_append, BitVec.ofNat_toNat, BitVec.setWidth_eq]

/-- A field in excess-K form, read as an unsigned number (R101). -/
theorem toNat_ofInt_excess {w : Nat} {d k : Int} (hlo : -k ≤ d) (hhi : d + k < (2 ^ w : Nat)) :
    (BitVec.ofInt w (d + k)).toNat = (d + k).toNat := by
  have hfield := excess_ofInt hlo hhi
  omega

theorem toNat_diffField {d : Int} (hlo : -2 ≤ d) (hhi : d ≤ 1) : (diffField d).toNat = (d + 2).toNat :=
  toNat_ofInt_excess hlo (by omega)

theorem toNat_lumaGreenField {d : Int} (hlo : -32 ≤ d) (hhi : d ≤ 31) : (lumaGreenField d).toNat = (d + 32).toNat :=
  toNat_ofInt_excess hlo (by omega)

theorem toNat_lumaRelativeField {d : Int} (hlo : -8 ≤ d) (hhi : d ≤ 7) : (lumaRelativeField d).toNat = (d + 8).toNat :=
  toNat_ofInt_excess hlo (by omega)

/-- RUN's byte (R198). -/
theorem encode_runChunk {n : Nat} (hmax : n ≤ 62) : encode (runChunk n) = [BitVec.ofNat 8 (0xC0 ||| (n - 1))] := by
  have hfield : (runField n).toNat = n - 1 := Nat.mod_eq_of_lt (by omega)
  simp only [encode, runChunk, append_eq_ofNat, hfield]
  rfl

/-- INDEX's byte is the slot number (R199). -/
theorem encode_indexChunk (c : Pixel) : encode (indexChunk c) = [BitVec.ofNat 8 (hash c).toNat] := by
  simp only [encode, indexChunk, append_eq_ofNat, BitVec.toNat_zero, Nat.zero_shiftLeft, Nat.zero_or]

/-- DIFF's byte (R195, R201). -/
theorem encode_diffChunk {d : Deltas} (hfits : fitsDiff d = true) :
    encode (diffChunk d) =
      [BitVec.ofNat 8 (0x40 ||| (d.dr + 2).toNat <<< 4 ||| (d.dg + 2).toNat <<< 2 ||| (d.db + 2).toNat)] := by
  obtain ⟨hr, hr', hg, hg', hb, hb'⟩ := of_decide_eq_true hfits
  rw [diffChunk, encode, append_eq_ofNat]
  simp only [BitVec.toNat_append, toNat_diffField hr hr', toNat_diffField hg hg', toNat_diffField hb hb',
    Nat.shiftLeft_or_distrib, ← Nat.shiftLeft_add]
  rfl

/-- LUMA's bytes (R196, R202). -/
theorem encode_lumaChunk {d : Deltas} (hfits : fitsLuma d = true) :
    encode (lumaChunk d) =
      [BitVec.ofNat 8 (0x80 ||| (d.dg + 32).toNat),
       BitVec.ofNat 8 ((d.dr - d.dg + 8).toNat <<< 4 ||| (d.db - d.dg + 8).toNat)] := by
  obtain ⟨hg, hg', hr, hr', hb, hb'⟩ := of_decide_eq_true hfits
  simp only [encode, lumaChunk, append_eq_ofNat, toNat_lumaGreenField hg hg', toNat_lumaRelativeField hr hr',
    toNat_lumaRelativeField hb hb']
  rfl

/-! ## The precedence -/

theorem fitsDiff_iff (d : Deltas) :
    fitsDiff d = true ↔ (-2 ≤ d.dr ∧ d.dr ≤ 1) ∧ (-2 ≤ d.dg ∧ d.dg ≤ 1) ∧ (-2 ≤ d.db ∧ d.db ≤ 1) := by
  simp [fitsDiff, and_assoc]

theorem fitsLuma_iff (d : Deltas) :
    fitsLuma d = true ↔
      (-32 ≤ d.dg ∧ d.dg ≤ 31) ∧ (-8 ≤ d.dr - d.dg ∧ d.dr - d.dg ≤ 7) ∧ (-8 ≤ d.db - d.dg ∧ d.db - d.dg ≤ 7) := by
  simp only [fitsLuma, decide_eq_true_eq, and_assoc]

theorem Encoder.runApplies_iff (e : Encoder) (c : Pixel) : e.runApplies c = true ↔ e.opts.useRun = true ∧ c = e.prev := by
  simp [Encoder.runApplies]

/-- Settles O42: the cases of `Encoder.select` in their order, each with the bytes of its chunk. -/
theorem chunkPrecedence : Obligations.ChunkPrecedence := by
  rintro e c ahead _ _ _ rfl rfl rfl
  unfold Encoder.select Encoder.selectSingle
  simp only [apply_ite encode]
  refine ite_congr (propext (e.runApplies_iff c)) (fun _ => ?run) fun _ => ?_
  case run => exact encode_runChunk (e.covered_le_runMax c ahead)
  refine ite_congr ?hit (fun _ => encode_indexChunk c) fun _ => ?_
  case hit => simp [Cache.hit_iff]
  refine ite_congr rfl (fun _ => rfl) fun _ => ?_
  refine ite_congr ?diff (fun hdiff => encode_diffChunk ((fitsDiff_iff (deltas c e.prev)).mpr hdiff.2)) fun _ => ?_
  case diff => rw [Bool.and_eq_true, fitsDiff_iff]; rfl
  refine ite_congr ?luma (fun hluma => encode_lumaChunk ((fitsLuma_iff (deltas c e.prev)).mpr hluma.2)) fun _ => rfl
  case luma => rw [Bool.and_eq_true, fitsLuma_iff]; rfl

/-! ## The length of a RUN -/

/-- The look-ahead stops at its limit or at the first pixel that is not `prev` (R198). -/
theorem le_runAhead {prev : Pixel} {limit k : Nat} {ps : List Pixel} (hlimit : k ≤ limit)
    (hequal : ∀ j, j < k → ps[j]? = some prev) : k ≤ runAhead prev limit ps := by
  induction limit generalizing k ps with
  | zero => exact hlimit
  | succ limit ih =>
    cases k with
    | zero => exact Nat.zero_le _
    | succ k =>
      cases ps with
      | nil => simpa using hequal 0
      | cons p ps =>
        obtain rfl : p = prev := by simpa using hequal 0
        simp only [runAhead, if_true]
        exact Nat.succ_le_succ (ih (Nat.le_of_succ_le_succ hlimit) fun j hj => hequal (j + 1) (Nat.succ_lt_succ hj))

/-- Settles O43: the bounds of a chunk, the pixels it covers, and `le_runAhead` for the longest stretch. -/
theorem runIsMaximal : Obligations.RunIsMaximal := by
  intro e c ahead hmore _
  refine ⟨fun huse hprev => ?run, fun hsingle => if_neg fun hrun => hsingle ((e.runApplies_iff c).mp hrun)⟩
  subst hprev
  have hrun : e.runApplies e.prev = true := (e.runApplies_iff e.prev).mpr ⟨huse, rfl⟩
  obtain ⟨n, hn, hmax, hwithin⟩ := Encoder.exists_covered_eq_add_one hmore e.prev ahead
  have htake := e.take_covered e.prev ahead
  have hbytes : encode (e.select e.prev ahead) = [BitVec.ofNat 8 (0xC0 ||| (e.covered e.prev ahead - 1))] := by
    rw [Encoder.select, if_pos hrun]
    exact encode_runChunk (e.covered_le_runMax e.prev ahead)
  refine ⟨by omega, by omega, by omega, hbytes, fun j hj => ?equal, ?last, fun k hk62 hkpix hequal => ?longest⟩
  case equal => rw [← List.getElem?_take_of_lt hj, htake, List.getElem?_replicate_of_lt hj]
  case last => rw [htake, hn, List.getLastD_eq_getLast?, List.getLast?_replicate]; rfl
  case longest =>
    rw [Encoder.covered, if_pos hrun]
    exact le_runAhead (le_min hk62 (Nat.le_sub_of_add_le' hkpix)) hequal

end Sys2Proof.Machine
end

section
/-! PROOFS. One step of an encode pass over a whole Image (spec/42_encoder.md R193, R206 to R208): a turn of the pixel loop, the
step that leaves the loop, and TAIL; and no step of the machine is refused but a bad encode START (R210, R280, R289). -/

namespace Sys2Proof.Machine

/-- A pass that is over, or has not begun, stays as it is. -/
theorem Encoder.passStep_of_startable {e : Encoder} (hover : e.startable = true) : e.passStep = some e := by
  have hphase : e.phase = .idle ∨ e.phase = .done := by simpa [Encoder.startable] using hover
  rcases hphase with hphase | hphase <;> simp only [Encoder.passStep, hphase]

/-- Every step of a running encode pass is the pass step of the encoder. -/
theorem step_encoder {s : State} {e : Encoder} (hagent : s.agent = .encoder) (hrunning : s.enc.startable = false)
    (he : s.enc.passStep = some e) : step s = .next (s.setEnc e) := by
  simp [step, hagent, encoderStep, hrunning, he]

/-- A pass that is over gives the turn back to the host. -/
theorem step_of_encoder_startable {s : State} (hagent : s.agent = .encoder) (hover : s.enc.startable = true) :
    step s = .next (s.setAgent .host) := by
  simp [step, hagent, encoderStep, hover]

/-! ## The pixel loop -/

/-- A turn of the pixel loop, written out for the pixel it stands at (R193, R206). -/
theorem Encoder.encodeChunk_of_drop {e : Encoder} {c : Pixel} {ahead : List Pixel} (hdrop : e.pixels.drop e.i = c :: ahead) :
    e.encodeChunk = some { e with
      out := e.out ++ encode (e.select c ahead)
      opos := e.opos + (encode (e.select c ahead)).length
      cache := ((c :: ahead).take (e.covered c ahead)).foldl Cache.update e.cache
      prev := ((c :: ahead).take (e.covered c ahead)).getLastD e.prev
      i := e.i + e.covered c ahead } := by
  unfold Encoder.encodeChunk
  simp only [hdrop, Encoder.commitPixels_eq]
  rfl

/-- Settles O44: a turn is `Encoder.encodeChunk` at the pixel it stands at, and the loop is left by the phase alone. -/
theorem encoderTurn : Obligations.EncoderTurn := by
  intro s hagent hphase
  have hrunning : s.enc.startable = false := by simp [Encoder.startable, hphase]
  refine ⟨fun c ahead hmore hdrop => ?turn, fun hall => ?leave⟩
  case turn =>
    have hturn := (Encoder.passStep_of_more hphase hmore).trans (Encoder.encodeChunk_of_drop hdrop)
    exact step_encoder hagent hrunning hturn
  case leave => exact step_encoder hagent hrunning (Encoder.passStep_of_all hphase hall)

/-! ## TAIL -/

/-- Settles O45: the bytes are those of `Encoder.tailBytes`. -/
theorem encoderTail : Obligations.EncoderTail := by
  intro s hagent hphase
  have hrunning : s.enc.startable = false := by simp [Encoder.startable, hphase]
  refine ⟨s.enc.tailBytes, ?_, rfl⟩
  rw [step_encoder hagent hrunning (Encoder.passStep_of_tail hphase), Encoder.writeTail_eq]
  rfl

/-! ## No step is refused -/

/-- A pass that has all its pixels finds the one it stands at (R45, R193). -/
theorem Encoder.exists_passStep {e : Encoder} (hsize : e.pixels.length = e.npix) : ∃ e', e.passStep = some e' := by
  cases hphase : e.phase
  case pixels =>
    by_cases hmore : e.i < e.npix
    · have hworking : e.Working := ⟨hsize, Nat.le_of_lt hmore, .inl hphase⟩
      obtain ⟨e', hchunk, -⟩ := hworking.exists_encodeChunk hphase hmore
      exact ⟨e', (Encoder.passStep_of_more hphase hmore).trans hchunk⟩
    · exact ⟨_, Encoder.passStep_of_all hphase hmore⟩
  case tail => exact ⟨_, Encoder.passStep_of_tail hphase⟩
  all_goals exact ⟨e, Encoder.passStep_of_startable (by simp [Encoder.startable, hphase])⟩

/-- A host's START of an encode pass outside the encoder's contract (R190, R289). -/
def Event.Refusable : Event → Prop
  | .encode _ x => x.valid = false
  | .startEncode _ regs _ => fieldsLegal regs = false
  | _ => False

/-- An event takes effect or is dropped, unless it is a START outside the contract. -/
theorem deliver_next_or_refusable (ev : Event) (s : State) : (∃ t, deliver ev s = .next t) ∨ ev.Refusable := by
  cases ev with
  | encode o x =>
    simp only [deliver, Event.Refusable, Image.valid]
    split
    · exact .inl ⟨_, rfl⟩
    split
    · next hfields => exact .inr (by simp [hfields])
    split
    · next hsize => exact .inr (by simp [hsize])
    · exact .inl ⟨_, rfl⟩
  | startEncode o regs trailing =>
    simp only [deliver, Event.Refusable]
    split
    · exact .inl ⟨_, rfl⟩
    split
    · next hfields => exact .inr hfields
    · exact .inl ⟨_, rfl⟩
  | _ => exact .inl ⟨_, rfl⟩

theorem hostStep_next_or_refusable (s : State) :
    (∃ t, hostStep s = .next t) ∨ ∃ ev later, s.pending = ev :: later ∧ ev.Refusable := by
  unfold hostStep
  split
  · exact .inl ⟨_, rfl⟩
  split
  · exact .inl ⟨_, rfl⟩
  · next ev later hpending =>
    exact (deliver_next_or_refusable ev _).imp_right fun hbad => ⟨ev, later, hpending, hbad⟩

/-- Settles O57: the decoder's steps are total, the encoder's find their pixel under the invariant, and of the host's events
only a START outside the contract is refused. -/
theorem onlyABadImageIsRefused : Obligations.OnlyABadImageIsRefused := by
  intro s h
  cases hagent : s.agent
  case host =>
    have hstep : step s = hostStep s := by simp only [step, hagent]
    rw [hstep]
    refine (hostStep_next_or_refusable s).imp_right fun ⟨ev, later, hpending, hbad⟩ => ⟨rfl, later, ?_⟩
    cases ev with
    | encode o x => exact .inl ⟨o, x, hpending, hbad⟩
    | startEncode o regs trailing => exact .inr ⟨o, regs, trailing, hpending, hbad⟩
    | _ => exact hbad.elim
  case decoder =>
    by_cases hrest : s.dec.nextAction = .rest
    · exact .inl ⟨_, step_of_rest hagent hrest⟩
    · exact .inl ⟨_, step_decoder hagent hrest⟩
  case encoder =>
    cases hover : s.enc.startable
    case true => exact .inl ⟨_, step_of_encoder_startable hagent hover⟩
    case false =>
      obtain ⟨e, he⟩ := Encoder.exists_passStep (h.wholeImage hagent).1
      exact .inl ⟨_, step_encoder hagent hover he⟩

end Sys2Proof.Machine
end

section
/-! PROOFS. A whole encode pass of a valid Image (spec/42_encoder.md R190, R209 to R211): it ends in DONE within the worst case,
the machine runs it to that end, and `channels` and `colorspace` stand in the header alone. -/

namespace Sys2Proof.Machine

/-! ## The pass ends within the worst case -/

/-- The steps of an encode pass over a whole Image (R193, R207, R208). -/
inductive Encoder.PassMove (e : Encoder) : Encoder → Prop
  | turn {e₁ : Encoder} (hphase : e.phase = .pixels) (hmore : e.i < e.npix) (hchunk : e.encodeChunk = some e₁) :
      Encoder.PassMove e e₁
  | leaveLoop (hphase : e.phase = .pixels) (hall : ¬ e.i < e.npix) : Encoder.PassMove e (e.goTo .tail)
  | writeTail (hphase : e.phase = .tail) : Encoder.PassMove e e.writeTail
  | rest (hover : e.startable = true) : Encoder.PassMove e e

theorem Encoder.passMove_of_passStep {e e₁ : Encoder} (h : e.passStep = some e₁) : e.PassMove e₁ := by
  cases hphase : e.phase
  case pixels =>
    by_cases hmore : e.i < e.npix
    · rw [Encoder.passStep_of_more hphase hmore] at h
      exact .turn hphase hmore h
    · rw [Encoder.passStep_of_all hphase hmore] at h
      cases h
      exact .leaveLoop hphase hmore
  case tail =>
    rw [Encoder.passStep_of_tail hphase] at h
    cases h
    exact .writeTail hphase
  all_goals
    have hover : e.startable = true := by simp [Encoder.startable, hphase]
    rw [Encoder.passStep_of_startable hover] at h
    cases h
    exact .rest hover

/-- What every step of an encode pass keeps holds at its end. -/
theorem Encoder.runPass_induction {P : Encoder → Prop} (hkeep : ∀ e e₁ : Encoder, P e → e.PassMove e₁ → P e₁) {n : Nat}
    {e e' : Encoder} (h : P e) (hrun : e.runPass n = some e') : P e' := by
  induction n generalizing e with
  | zero => cases hrun; exact h
  | succ n ih =>
    cases hstep : e.passStep with
    | none => simp [Encoder.runPass, hstep] at hrun
    | some e₁ =>
      rw [Encoder.runPass_of_passStep hstep] at hrun
      exact ih (hkeep e e₁ h (Encoder.passMove_of_passStep hstep)) hrun

/-- How many pixels are consumed and how many bytes are out at most, by where the pass stands (R193, R209). -/
def Encoder.Bounded (e : Encoder) : Prop :=
  match e.phase with
  | .pixels => e.i ≤ e.npix ∧ e.out.length ≤ headerLen + 5 * e.i
  | .tail => e.i = e.npix ∧ e.out.length ≤ headerLen + 5 * e.i
  | .done => e.i = e.npix ∧ e.out.length ≤ headerLen + 8 + 5 * e.npix + e.trailing.length
  | .idle => True

theorem Encoder.bounded_start (seed : Bool) (o : EncoderOptions) (regs : HeaderRegs) (pixels : List Pixel)
    (trailing : List Byte) : (Encoder.start seed o regs pixels trailing).Bounded := by
  unfold Encoder.Bounded
  rw [Encoder.start_phase]
  by_cases hzero : regs.npix = 0
  · rw [if_pos hzero]
    exact ⟨hzero.symm, Nat.le_refl _⟩
  · rw [if_neg hzero]
    exact ⟨Nat.zero_le _, Nat.le_refl _⟩

/-- A turn adds at most five bytes and consumes a pixel (R93, R193). -/
theorem Encoder.Bounded.encodeChunk {e e₁ : Encoder} (h : e.Bounded) (hphase : e.phase = .pixels) (hmore : e.i < e.npix)
    (hchunk : e.encodeChunk = some e₁) : e₁.Bounded := by
  obtain ⟨c, ahead, -, rfl⟩ := Encoder.encodeChunk_eq hchunk
  obtain ⟨hpos, hwithin⟩ := Encoder.covered_bounds hmore c ahead
  have hbytes := e.select_byteLength_le c ahead
  simp only [Encoder.Bounded, hphase] at h ⊢
  refine ⟨hwithin, ?_⟩
  rw [List.length_append, encode_length]
  omega

/-- TAIL adds the marker and the trailing data at most (R207, R208). -/
theorem Encoder.Bounded.writeTail {e : Encoder} (h : e.Bounded) (hphase : e.phase = .tail) : e.writeTail.Bounded := by
  have htail := e.tailBytes_length_le
  simp only [Encoder.Bounded, hphase] at h
  obtain ⟨hall, hsize⟩ := h
  rw [Encoder.writeTail_eq]
  refine ⟨hall, ?_⟩
  show (e.out ++ e.tailBytes).length ≤ headerLen + 8 + 5 * e.npix + e.trailing.length
  rw [List.length_append]
  omega

theorem Encoder.Bounded.passMove {e e₁ : Encoder} (h : e.Bounded) (hmove : e.PassMove e₁) : e₁.Bounded := by
  cases hmove with
  | turn hphase hmore hchunk => exact h.encodeChunk hphase hmore hchunk
  | leaveLoop hphase hall =>
    simp only [Encoder.Bounded, hphase] at h
    exact ⟨Nat.le_antisymm h.1 (Nat.le_of_not_lt hall), h.2⟩
  | writeTail hphase => exact h.writeTail hphase
  | rest => exact h

/-- The Image of a pass stays the one it was started with (R35, R36). -/
theorem Encoder.PassMove.image {e e₁ : Encoder} (hmove : e.PassMove e₁) :
    e₁.regs = e.regs ∧ e₁.trailing = e.trailing := by
  cases hmove with
  | turn _ _ hchunk =>
    obtain ⟨c, ahead, -, rfl⟩ := Encoder.encodeChunk_eq hchunk
    exact ⟨rfl, rfl⟩
  | writeTail =>
    rw [Encoder.writeTail_eq]
    exact ⟨rfl, rfl⟩
  | _ => exact ⟨rfl, rfl⟩

/-- Settles O46: each turn consumes a pixel, so the pass ends, and it keeps `Encoder.Bounded`. -/
theorem encodeNeverFails : Obligations.EncodeNeverFails := by
  intro seed o x hvalid
  obtain ⟨-, hsize⟩ := (Image.valid_iff x).mp hvalid
  obtain ⟨e, hrun, hphase, hdone⟩ := (Encoder.working_start seed o hsize).runPass_ends (n := x.pixels.length + 2)
    (by rw [hsize]; exact Nat.le_refl _)
  have hbounded : e.Bounded := Encoder.runPass_induction (fun _ _ h hmove => h.passMove hmove)
    (Encoder.bounded_start seed o x.regs x.pixels x.trailing) hrun
  have himage : e.regs = x.regs ∧ e.trailing = x.trailing :=
    Encoder.runPass_induction (P := fun e => e.regs = x.regs ∧ e.trailing = x.trailing)
      (fun _ _ h hmove => hmove.image.imp (·.trans h.1) (·.trans h.2)) ⟨rfl, rfl⟩ hrun
  simp only [Encoder.Bounded, hphase, Encoder.npix_eq, himage] at hbounded
  exact ⟨e, hrun, hphase, hdone, hbounded.1, by simp [encodePass, hvalid, hrun, hdone], hbounded.2⟩

/-! ## The machine runs it -/

theorem Encoder.runPass_of_startable {e : Encoder} (hover : e.startable = true) (n : Nat) : e.runPass n = some e := by
  induction n with
  | zero => rfl
  | succ n ih => rw [Encoder.runPass_of_passStep (Encoder.passStep_of_startable hover), ih]

/-- The machine runs a pass to its end, and one step more gives the turn back to the host. -/
theorem core_run_encoderPass {n : Nat} {s : State} {e : Encoder} (hagent : s.agent = .encoder)
    (hrun : s.enc.runPass n = some e) (hover : e.startable = true) :
    ∃ k, Sys2Proof.core.run k s = .next ((s.setEnc e).setAgent .host) := by
  induction n generalizing s with
  | zero =>
    cases hrun
    exact ⟨1, core_run_one (step_of_encoder_startable hagent hover)⟩
  | succ n ih =>
    cases hstart : s.enc.startable
    case true =>
      rw [Encoder.runPass_of_startable hstart] at hrun
      cases hrun
      exact ⟨1, core_run_one (step_of_encoder_startable hagent hover)⟩
    case false =>
      cases hstep : s.enc.passStep with
      | none => simp [Encoder.runPass, hstep] at hrun
      | some e₁ =>
        rw [Encoder.runPass_of_passStep hstep] at hrun
        obtain ⟨k, hk⟩ := ih (s := s.setEnc e₁) hagent hrun
        exact ⟨k + 1, (core_run_of_step (step_encoder hagent hstart hstep) k).trans hk⟩

/-- Settles O49: the START, then the steps of the pass, which ends by `encodeNeverFails`, then the step that gives the turn
back. -/
theorem machineRunsAnEncodePass : Obligations.MachineRunsAnEncodePass := by
  intro s o x later hagent hrun hstart hvalid hpending
  obtain ⟨e, hpass, hphase, hdone, -, hout, -⟩ := encodeNeverFails Config.cacheSeed o x hvalid
  obtain ⟨k, hk⟩ := core_run_encoderPass (s := ({ s with pending := later }.setEnc
    (Encoder.start Config.cacheSeed o x.regs x.pixels x.trailing)).setAgent .encoder) rfl hpass
    (by simp [Encoder.startable, hphase])
  refine ⟨k + 1, e, ?_, hdone, hout⟩
  rw [core_run_of_step (step_encode hagent hrun hstart hvalid hpending), hk]
  cases s
  cases hagent
  rfl

/-! ## The header fields -/

/-- The same encoder with other header registers and the header they give in front of its output (R191). -/
def Encoder.withHeader (regs : HeaderRegs) (e : Encoder) : Encoder :=
  { e with
    regs := regs
    out := encode (.header regs.width regs.height regs.channels regs.colorspace) ++ e.out
    opos := headerLen + e.opos }

/-- The encoder at START, before it emits the header. -/
def Encoder.beforeHeader (seed : Bool) (o : EncoderOptions) (x : Image) : Encoder :=
  { Encoder.start seed o x.regs x.pixels x.trailing with out := [], opos := 0 }

theorem Encoder.start_eq_withHeader (seed : Bool) (o : EncoderOptions) (x : Image) {regs : HeaderRegs}
    (hnpix : regs.npix = x.regs.npix) :
    Encoder.start seed o regs x.pixels x.trailing = (Encoder.beforeHeader seed o x).withHeader regs := by
  simp only [Encoder.start, Encoder.beforeHeader, hnpix]
  rfl

/-- The look-ahead reads no header register but `npix` (R198, R211). -/
theorem Encoder.covered_withHeader {regs : HeaderRegs} {e : Encoder} (hnpix : regs.npix = e.npix) (c : Pixel)
    (ahead : List Pixel) : (e.withHeader regs).covered c ahead = e.covered c ahead := by
  show (if e.runApplies c then runAhead e.prev (min runMax (regs.npix - e.i)) (c :: ahead) else 1) = _
  rw [hnpix]
  rfl

theorem Encoder.select_withHeader {regs : HeaderRegs} {e : Encoder} (hnpix : regs.npix = e.npix) (c : Pixel)
    (ahead : List Pixel) : (e.withHeader regs).select c ahead = e.select c ahead := by
  unfold Encoder.select
  rw [Encoder.covered_withHeader hnpix]
  rfl

theorem Encoder.tailBytes_withHeader (regs : HeaderRegs) (e : Encoder) : (e.withHeader regs).tailBytes = e.tailBytes := rfl

theorem Encoder.encodeChunk_withHeader {regs : HeaderRegs} {e : Encoder} (hnpix : regs.npix = e.npix) :
    (e.withHeader regs).encodeChunk = e.encodeChunk.map (Encoder.withHeader regs) := by
  cases hdrop : e.pixels.drop e.i with
  | nil =>
    have hdrop' : (e.withHeader regs).pixels.drop (e.withHeader regs).i = [] := hdrop
    simp only [Encoder.encodeChunk, hdrop, hdrop', Option.map_none]
  | cons c ahead =>
    have hdrop' : (e.withHeader regs).pixels.drop (e.withHeader regs).i = c :: ahead := hdrop
    rw [Encoder.encodeChunk_of_drop hdrop, Encoder.encodeChunk_of_drop hdrop', Encoder.covered_withHeader hnpix,
      Encoder.select_withHeader hnpix]
    simp [Encoder.withHeader, Nat.add_assoc]

theorem Encoder.passStep_withHeader {regs : HeaderRegs} {e : Encoder} (hnpix : regs.npix = e.npix) :
    (e.withHeader regs).passStep = e.passStep.map (Encoder.withHeader regs) := by
  cases hphase : e.phase
  case pixels =>
    have hphase' : (e.withHeader regs).phase = .pixels := hphase
    by_cases hmore : e.i < e.npix
    · have hmore' : (e.withHeader regs).i < (e.withHeader regs).npix := hmore.trans_eq hnpix.symm
      rw [Encoder.passStep_of_more hphase hmore, Encoder.passStep_of_more hphase' hmore', Encoder.encodeChunk_withHeader hnpix]
    · have hall : ¬ (e.withHeader regs).i < (e.withHeader regs).npix := fun h => hmore (h.trans_eq hnpix)
      rw [Encoder.passStep_of_all hphase hmore, Encoder.passStep_of_all hphase' hall]
      rfl
  case tail =>
    have hphase' : (e.withHeader regs).phase = .tail := hphase
    rw [Encoder.passStep_of_tail hphase, Encoder.passStep_of_tail hphase', Encoder.writeTail_eq, Encoder.writeTail_eq,
      Encoder.tailBytes_withHeader]
    simp [Encoder.withHeader, Nat.add_assoc]
  all_goals
    have hover : e.startable = true := by simp [Encoder.startable, hphase]
    have hover' : (e.withHeader regs).startable = true := hover
    rw [Encoder.passStep_of_startable hover, Encoder.passStep_of_startable hover']
    rfl

theorem Encoder.runPass_withHeader {n : Nat} {regs : HeaderRegs} {e : Encoder} (hnpix : regs.npix = e.npix) :
    (e.withHeader regs).runPass n = (e.runPass n).map (Encoder.withHeader regs) := by
  induction n generalizing e with
  | zero => rfl
  | succ n ih =>
    have hstep := e.passStep_withHeader hnpix
    cases hpass : e.passStep with
    | none => simp only [Encoder.runPass, hstep, hpass, Option.map_none]
    | some e₁ =>
      have hregs := (Encoder.passMove_of_passStep hpass).image.1
      rw [hpass] at hstep
      rw [Encoder.runPass_of_passStep hpass, Encoder.runPass_of_passStep hstep]
      exact ih (hnpix.trans (congrArg HeaderRegs.npix hregs.symm))

/-- The output of a pass is the header and bytes that depend on no header register but `npix` (R191, R211). -/
theorem encodePass_eq_header_append {seed : Bool} {o : EncoderOptions} {x : Image} {regs : HeaderRegs} {out : List Byte}
    (hnpix : regs.npix = x.regs.npix) (h : encodePass seed o { x with regs := regs } = some out) :
    ∃ e, (Encoder.beforeHeader seed o x).runPass (x.pixels.length + 2) = some e ∧
      out = encode (.header regs.width regs.height regs.channels regs.colorspace) ++ e.out := by
  simp only [encodePass, Encoder.start_eq_withHeader seed o x hnpix] at h
  rw [Encoder.runPass_withHeader (hnpix.trans rfl)] at h
  cases hrun : (Encoder.beforeHeader seed o x).runPass (x.pixels.length + 2) with
  | none => simp [hrun] at h
  | some e =>
    simp only [hrun, Option.map_some] at h
    split at h
    · split at h
      · cases h
        exact ⟨e, rfl, rfl⟩
      · cases h
    · cases h

/-- Settles O47: two such passes write one body behind their headers, which differ in bytes 12 and 13. -/
theorem channelsAndColorspaceAreCopied : Obligations.ChannelsAndColorspaceAreCopied := by
  intro seed o x c cs out out' hout hout'
  obtain ⟨e, hrun, rfl⟩ := encodePass_eq_header_append (x := x) rfl hout
  obtain ⟨e', hrun', rfl⟩ :=
    encodePass_eq_header_append (x := x) (regs := { x.regs with channels := c, colorspace := cs }) rfl hout'
  obtain rfl : e = e' := Option.some.inj (hrun.symm.trans hrun')
  exact ⟨rfl, rfl, rfl, rfl, rfl, rfl⟩

end Sys2Proof.Machine
end

section
/-! PROOFS. The host's turn (spec/43_streaming_fsm.md R240): with no transfer due the oldest pending event is delivered, and it
takes effect on its own block alone or, a START during a pass, not at all (spec/93_implementation_defined.md U14). -/

namespace Sys2Proof.Machine

theorem step_of_pending {s : State} {ev : Event} {later : List Event} (hagent : s.agent = .host) (hrun : s.dec.runLeft = 0)
    (hpending : s.pending = ev :: later) : step s = deliver ev { s with pending := later } := by
  simp only [step, hagent, hostStep, hrun, hpending, ne_eq, not_true_eq_false, if_false]

theorem Decoder.startable_iff (d : Decoder) :
    d.startable = true ↔ d.phase = .idle ∨ d.phase = .done ∨ d.phase = .error := by
  simp [Decoder.startable, or_assoc]

theorem Encoder.startable_iff (e : Encoder) : e.startable = true ↔ e.phase = .idle ∨ e.phase = .done := by
  simp [Encoder.startable]

/-- Settles O4: each event is delivered to its block; of the STARTs the acceptable ones take effect. -/
theorem hostEvents : Obligations.HostEvents := by
  intro s later hagent hrun
  have hdeliver {ev : Event} : s.pending = ev :: later → step s = deliver ev { s with pending := later } :=
    step_of_pending hagent hrun
  simp only [← Decoder.startable_iff, ← Encoder.startable_iff]
  refine ⟨fun b h => hdeliver h, fun h => hdeliver h, fun p h => hdeliver h, fun o h => ⟨fun hstart => ?startDecode,
    fun hstart => ?noStartDecode⟩, fun o input h => ⟨fun hstart => ?decode, fun hstart => ?noDecode⟩, fun o x h =>
    ⟨fun hstart => ?noEncode, fun hstart hvalid => step_encode hagent hrun hstart hvalid h⟩, fun o regs trailing h =>
    ⟨fun hstart => ?noStartEncode, fun hstart hlegal => ?startEncode⟩, fun h => ?nothing⟩
  case startDecode =>
    rw [hdeliver h]
    cases s
    cases hagent
    exact congrArg Host.Outcome.next (if_pos hstart)
  case decode => exact step_decode hagent hrun hstart h
  case noStartDecode | noDecode => rw [hdeliver h]; exact congrArg Host.Outcome.next (if_neg hstart)
  case noEncode | noStartEncode => rw [hdeliver h]; exact if_pos (Bool.eq_false_of_not_eq_true hstart)
  case startEncode =>
    rw [hdeliver h]
    exact (if_neg (by simp [hstart])).trans (if_neg (by simp [hlegal]))
  case nothing => simp only [step, hagent, hostStep, hrun, h, ne_eq, not_true_eq_false, if_false]

end Sys2Proof.Machine
end

section
/-! PROOFS. The byte-serial decoder, phase by phase (spec/43_streaming_fsm.md R242 to R246): what a BYTE and what EOI do. -/

namespace Sys2Proof.Machine

theorem step_of_byte {s : State} {b : Byte} {later : List Event} (hagent : s.agent = .host) (hrun : s.dec.runLeft = 0)
    (hpending : s.pending = .byte b :: later) : step s = .next ({ s with pending := later }.setDec (s.dec.byteEvent b)) :=
  step_of_pending hagent hrun hpending

theorem step_of_eoi {s : State} {later : List Event} (hagent : s.agent = .host) (hrun : s.dec.runLeft = 0)
    (hpending : s.pending = .eoi :: later) : step s = .next ({ s with pending := later }.setDec s.dec.eoiEvent) :=
  step_of_pending hagent hrun hpending

/-! ## The events by phase -/

theorem Decoder.byteEvent_of_header {d : Decoder} (hphase : d.phase = .header) (hrun : d.runLeft = 0) (b : Byte) :
    d.byteEvent b = d.byteHeader b := by simp [Decoder.byteEvent, hphase, hrun]

theorem Decoder.byteEvent_of_tag {d : Decoder} (hphase : d.phase = .tag) (hrun : d.runLeft = 0) (t : Byte) :
    d.byteEvent t = d.acceptPixelByte.takeTag t := by simp [Decoder.byteEvent, hphase, hrun, Decoder.byteTag]

theorem Decoder.byteEvent_of_args {d : Decoder} (hphase : d.phase = .args) (hrun : d.runLeft = 0) (b : Byte) :
    d.byteEvent b =
      if d.args.length + 1 = d.need then (d.pushArg b).completeChunk (d.tag :: (d.args ++ [b])) else d.pushArg b := by
  simp [Decoder.byteEvent, hphase, hrun, Decoder.byteArgs, Decoder.takeArgs]

theorem Decoder.byteEvent_of_endMark {d : Decoder} (hphase : d.phase = .endMark) (hrun : d.runLeft = 0) (b : Byte) :
    d.byteEvent b = d.byteEnd b := by simp [Decoder.byteEvent, hphase, hrun]

theorem Decoder.byteEvent_of_trailing {d : Decoder} (hphase : d.phase = .trailing) (hrun : d.runLeft = 0) (b : Byte) :
    d.byteEvent b = d.accept.pushTrail [b] := by simp [Decoder.byteEvent, hphase, hrun, Decoder.byteTrailing]

theorem Decoder.eoiEvent_of_header {d : Decoder} (hphase : d.phase = .header) (hrun : d.runLeft = 0) :
    d.eoiEvent = d.raise .truncated := by simp [Decoder.eoiEvent, hphase, hrun]

theorem Decoder.eoiEvent_of_tag {d : Decoder} (hphase : d.phase = .tag) (hrun : d.runLeft = 0) :
    d.eoiEvent = d.eoiWithoutMarker [] := by simp [Decoder.eoiEvent, hphase, hrun]

theorem Decoder.eoiEvent_of_args {d : Decoder} (hphase : d.phase = .args) (hrun : d.runLeft = 0) :
    d.eoiEvent = d.raise .truncated := by simp [Decoder.eoiEvent, hphase, hrun]

theorem Decoder.eoiEvent_of_endMark {d : Decoder} (hphase : d.phase = .endMark) (hrun : d.runLeft = 0) :
    d.eoiEvent = d.eoiWithoutMarker (endMarkerBytes.take d.matched) := by simp [Decoder.eoiEvent, hphase, hrun]

theorem Decoder.eoiEvent_of_trailing {d : Decoder} (hphase : d.phase = .trailing) (hrun : d.runLeft = 0) :
    d.eoiEvent = d.finish := by simp [Decoder.eoiEvent, hphase, hrun]

/-! ## The header -/

theorem legalChannels_eq_false_iff (c : Byte) : legalChannels c = false ↔ c ≠ 3#8 ∧ c ≠ 4#8 := by simp [legalChannels]

theorem legalColorspace_eq_false_iff (s : Byte) : legalColorspace s = false ↔ s ≠ 0#8 ∧ s ≠ 1#8 := by
  simp [legalColorspace]

/-- Settles O35: the byte is appended to `hdr`, and the judgement is by the length it gives. -/
theorem byteInHeader : Obligations.ByteInHeader := by
  intro d b hphase hrun
  refine ⟨?byte, Decoder.eoiEvent_of_header hphase hrun⟩
  have hlen : (d.pushHeader b).hdr.length = d.hdr.length + 1 := by simp
  rw [Decoder.byteEvent_of_header hphase hrun, Decoder.byteHeader, Decoder.judgeHeader, hlen]
  refine ite_congr rfl (fun _ => rfl) fun _ =>
    ite_congr (propext (and_congr_right fun _ => legalChannels_eq_false_iff b)) (fun _ => rfl) fun _ => ?_
  by_cases hfull : d.hdr.length + 1 = 14
  · simp only [hfull, true_and, if_true]
    exact ite_congr (propext (legalColorspace_eq_false_iff b)) (fun _ => rfl) fun _ => rfl
  · simp only [hfull, false_and, if_false]
    rfl

/-! ## The chunks -/

/-- `next_phase()`, written out (R243). -/
theorem Decoder.nextPhase_eq (d : Decoder) :
    d.nextPhase =
      { d with phase := if d.error then d.phase else if d.opix = d.npix then .endMark else .tag } := by
  unfold Decoder.nextPhase
  split <;> rfl

theorem Decoder.completeChunk_of_decode {bytes : List Byte} {i : Instr} {rest : List Byte}
    (h : decodeChunk bytes = .ok (i, rest)) (d : Decoder) :
    d.completeChunk bytes = ((itemEffect i d).setIpos d.ipos).nextPhase := by
  simp only [Decoder.completeChunk, h]

/-- A chunk whose bytes are all in is executed, with the cursor at the number of accepted bytes, and the next phase is taken
(R243, R244). -/
theorem completeChunk_runs_item {t : Byte} {args : List Byte} (hargs : args.length = continuationBytes t) (s : State) :
    ∃ i u, decodeChunk (t :: args) = .ok (i, []) ∧ exec i s = .next u ∧
      s.setDec (s.dec.completeChunk (t :: args)) = { u with dec := { u.dec with
        ipos := s.dec.ipos
        phase := if u.dec.error then u.dec.phase else if u.dec.opix = u.dec.npix then .endMark else .tag } } := by
  obtain ⟨i, hdecode, -⟩ := decodeChunk_of_le (Nat.le_of_eq hargs.symm)
  rw [← hargs, List.drop_length] at hdecode
  refine ⟨i, _, hdecode, exec_eq i s, ?_⟩
  rw [Decoder.completeChunk_of_decode hdecode, Decoder.nextPhase_eq]
  rfl

/-- A one-byte chunk on a port that does not serialise it (R243). -/
theorem Decoder.takeTag_of_short {d : Decoder} {t : Byte} (hshort : continuationBytes t = 0)
    (hport : d.serialPort = false ∨ dispatchTag t ≠ .run) : d.takeTag t = d.completeChunk [t] := by
  unfold Decoder.takeTag
  rw [if_neg (not_not.mpr hshort), if_neg]
  rcases hport with hport | hport <;> simp [hport]

theorem Decoder.eoiWithoutMarker_eq (held : List Byte) (d : Decoder) :
    d.eoiWithoutMarker held =
      if d.opts.requireEndTag then
        { d with endTagPresent := false, error := true, cause := .missingEndTag, phase := .error }
      else { d with endTagPresent := false, trail := d.trail ++ held, phase := .done, done := true } := rfl

/-- Settles O36: a tag is kept, or its chunk is complete. -/
theorem byteInTag : Obligations.ByteInTag := by
  intro s later t hagent hphase hrun
  refine ⟨fun hpending => ⟨fun hlong => ?long, fun hshort hport => ?short⟩, fun hpending => ⟨fun hreq => ?required,
    fun hreq => ?tolerated⟩⟩
  case long =>
    rw [step_of_byte hagent hrun hpending, Decoder.byteEvent_of_tag hphase hrun, Decoder.takeTag,
      if_pos (Nat.ne_of_gt hlong)]
    rfl
  case short =>
    rw [step_of_byte hagent hrun hpending, Decoder.byteEvent_of_tag hphase hrun,
      Decoder.takeTag_of_short (d := s.dec.acceptPixelByte) hshort hport]
    obtain ⟨i, u, hdecode, hexec, hcomplete⟩ :=
      completeChunk_runs_item (args := []) hshort.symm ({ s with pending := later }.setDec s.dec.acceptPixelByte)
    exact ⟨i, u, hdecode, hexec, congrArg Host.Outcome.next hcomplete⟩
  case required =>
    rw [step_of_eoi hagent hrun hpending, Decoder.eoiEvent_of_tag hphase hrun, Decoder.eoiWithoutMarker_eq, if_pos hreq]
    rfl
  case tolerated =>
    rw [step_of_eoi hagent hrun hpending, Decoder.eoiEvent_of_tag hphase hrun, Decoder.eoiWithoutMarker_eq,
      if_neg (by simp [hreq]), List.append_nil]
    rfl

/-- Settles O37: an argument is kept, or the chunk is complete. -/
theorem byteInArgs : Obligations.ByteInArgs := by
  intro s later b hagent hphase hrun hneed _
  refine ⟨fun hpending => ⟨fun hmore => ?more, fun hlast => ?last⟩, fun hpending => ?eoi⟩
  case more =>
    rw [step_of_byte hagent hrun hpending, Decoder.byteEvent_of_args hphase hrun, if_neg (Nat.ne_of_lt hmore)]
    rfl
  case last =>
    rw [step_of_byte hagent hrun hpending, Decoder.byteEvent_of_args hphase hrun, if_pos hlast]
    obtain ⟨i, u, hdecode, hexec, hcomplete⟩ := completeChunk_runs_item (t := s.dec.tag) (args := s.dec.args ++ [b])
      (by simp [hlast, hneed]) ({ s with pending := later }.setDec (s.dec.pushArg b))
    exact ⟨i, u, hdecode, hexec, congrArg Host.Outcome.next hcomplete⟩
  case eoi =>
    rw [step_of_eoi hagent hrun hpending, Decoder.eoiEvent_of_args hphase hrun]
    rfl

/-! ## The marker and the trailing data -/

/-- The marker's bytes are seven zeros and a one (R92). -/
theorem getElem?_endMarkerBytes {k : Nat} (hk : k < 8) :
    endMarkerBytes[k]? = some (if k = 7 then 1#8 else 0#8) := by
  revert k
  decide

theorem take_endMarkerBytes {k : Nat} (hk : k < 8) : endMarkerBytes.take k = List.replicate k 0#8 := by
  revert k
  decide

theorem Decoder.byteEnd_of_match {d : Decoder} {b : Byte} (h : endMarkerBytes[d.matched]? = some b) :
    d.byteEnd b =
      if d.matched = 7 then { d with ipos := d.ipos + 1, matched := 8, endTagPresent := true, phase := .trailing }
      else { d with ipos := d.ipos + 1, matched := d.matched + 1 } := if_pos h

theorem Decoder.byteEnd_of_mismatch {d : Decoder} {b : Byte} (h : endMarkerBytes[d.matched]? ≠ some b) :
    d.byteEnd b =
      if d.opts.requireEndTag then
        { d with ipos := d.ipos + 1, endTagPresent := false, error := true, cause := .missingEndTag, phase := .error }
      else
        { d with
          ipos := d.ipos + 1, endTagPresent := false
          trail := d.trail ++ (endMarkerBytes.take d.matched ++ [b]), phase := .trailing } := if_neg h

/-- Settles O38: the byte is compared with the marker's next one; in TRAILING there is nothing to compare. -/
theorem byteInEndAndTrailing : Obligations.ByteInEndAndTrailing := by
  refine ⟨fun d b hphase hrun hopen => ⟨fun hmatch => ?hit, fun hmiss => ?miss, ?eoi⟩, fun d b hphase hrun =>
    ⟨Decoder.byteEvent_of_trailing hphase hrun b, Decoder.eoiEvent_of_trailing hphase hrun⟩⟩
  case hit =>
    rw [Decoder.byteEvent_of_endMark hphase hrun, Decoder.byteEnd_of_match (by rw [getElem?_endMarkerBytes hopen, hmatch])]
  case miss =>
    rw [Decoder.byteEvent_of_endMark hphase hrun, Decoder.byteEnd_of_mismatch, take_endMarkerBytes hopen]
    rw [getElem?_endMarkerBytes hopen]
    exact fun heq => hmiss (Option.some.inj heq).symm
  case eoi =>
    rw [Decoder.eoiEvent_of_endMark hphase hrun, Decoder.eoiWithoutMarker_eq, take_endMarkerBytes hopen]

end Sys2Proof.Machine
end

section
/-! PROOFS. The serialised run (spec/43_streaming_fsm.md R247): its transfers, one by one and all together, and the run put out at
once. -/

namespace Sys2Proof.Machine

/-! ## One transfer -/

theorem Decoder.transfer_of_due {d : Decoder} (hdue : d.runLeft ≠ 0) :
    d.transfer =
      ((d.commitPixel d.prev .run (runLength (d.tag.extractLsb' 0 6) - d.runLeft)).setRunLeft (d.runLeft - 1)).closeRun :=
  if_neg hdue

theorem Decoder.runLeft_nextPhase (d : Decoder) : d.nextPhase.runLeft = d.runLeft := by
  rw [Decoder.nextPhase_eq]

theorem Decoder.runLeft_closeRun (d : Decoder) : d.closeRun.runLeft = d.runLeft := by
  unfold Decoder.closeRun
  split
  · exact Decoder.runLeft_nextPhase _
  · rfl

theorem Decoder.runLeft_transfer (d : Decoder) : d.transfer.runLeft = d.runLeft - 1 := by
  by_cases hdue : d.runLeft = 0
  · simp [Decoder.transfer, hdue]
  · rw [Decoder.transfer_of_due hdue, Decoder.runLeft_closeRun]
    rfl

/-- The output registers take one pixel equal to `prev` (R247). -/
theorem Decoder.outputRegs_transfer {d : Decoder} (hdue : d.runLeft ≠ 0) :
    d.transfer.outputRegs =
      d.outputRegs.commit d.prev .run (runLength (d.tag.extractLsb' 0 6) - d.runLeft) 1 := by
  rw [Decoder.transfer_of_due hdue, Decoder.outputRegs_closeRun]
  exact d.outputRegs_commitPixels d.prev .run _ 1

/-- While a run is in transfer no byte is accepted (R247). -/
theorem Decoder.byteEvent_of_due {d : Decoder} (hdue : d.runLeft ≠ 0) (b : Byte) : d.byteEvent b = d := if_pos hdue

theorem step_of_due {s : State} (hagent : s.agent = .host) (hdue : s.dec.runLeft ≠ 0) :
    step s = .next (s.setDec s.dec.transfer) := by
  simp only [step, hagent, hostStep, ne_eq, hdue, not_false_eq_true, if_true]

/-! ## All the transfers of a run -/

theorem Decoder.commitPixels_setRunLeft (p : Pixel) (type : ChunkType) (k n m : Nat) (d : Decoder) :
    (d.setRunLeft m).commitPixels p type k n = (d.commitPixels p type k n).setRunLeft m := by
  simp only [Decoder.commitPixels_eq]
  rfl

/-- The last transfer counts the run and takes the next phase, an earlier one does neither (R247). -/
theorem Decoder.transfers_eq {n : Nat} {d : Decoder} (hdue : d.runLeft = n + 1)
    (hlength : n + 1 ≤ runLength (d.tag.extractLsb' 0 6)) :
    d.transfers (n + 1) =
      (((d.commitPixels d.prev .run (runLength (d.tag.extractLsb' 0 6) - (n + 1)) (n + 1)).setRunLeft 0).countChunk
        .run).nextPhase := by
  induction n generalizing d with
  | zero =>
    rw [Decoder.transfers, Decoder.transfer_of_due (by omega), hdue]
    rfl
  | succ n ih =>
    have hfirst : d.transfer =
        (d.commitPixel d.prev .run (runLength (d.tag.extractLsb' 0 6) - (n + 2))).setRunLeft (n + 1) := by
      rw [Decoder.transfer_of_due (by omega), hdue]
      exact if_neg (Nat.succ_ne_zero n)
    have hnext : runLength (d.tag.extractLsb' 0 6) - (n + 1) = runLength (d.tag.extractLsb' 0 6) - (n + 2) + 1 := by omega
    have hrest := ih (d := d.transfer) (by rw [Decoder.runLeft_transfer, hdue]; rfl)
      (by rw [hfirst]; exact Nat.le_of_succ_le hlength)
    rw [Decoder.transfers, hrest, hfirst, Decoder.commitPixels_setRunLeft, Decoder.setRunLeft_tag,
      Decoder.commitPixel_tag, hnext]
    rfl

/-- A tag byte of a RUN is a chunk of one byte (R93, R100). -/
theorem continuationBytes_of_run {t : Byte} (h : dispatchTag t = .run) : continuationBytes t = 0 := by
  rw [continuationBytes_eq, h]

theorem decodeChunk_of_run {t : Byte} (h : dispatchTag t = .run) (rest : List Byte) :
    decodeChunk (t :: rest) = .ok (.run (t.extractLsb' 0 6), rest) := by
  simp only [decodeChunk, h]

/-- The same decoder with another tag register. -/
def Decoder.withTag (t : Byte) (d : Decoder) : Decoder := { d with tag := t }

/-- A serialised run, with all its transfers, ends as the run put out at once, but for the tag kept for it (R247, R139). -/
theorem Decoder.transfers_loadRun {d : Decoder} (hrun : d.runLeft = 0) {t : Byte} (ht : dispatchTag t = .run) :
    ∃ t', (d.loadRun t).transfers (d.loadRun t).runLeft = (d.completeChunk [t]).withTag t' := by
  rw [Decoder.completeChunk_of_decode (decodeChunk_of_run ht [])]
  by_cases hlong : d.opix + runLength (t.extractLsb' 0 6) > d.npix
  · have hload : d.loadRun t = d.raise .runOverrun := if_pos hlong
    have heffect : itemEffect (.run (t.extractLsb' 0 6)) d = d.raise .runOverrun := if_pos hlong
    rw [hload, heffect, Decoder.raise_runLeft, hrun]
    exact ⟨d.tag, rfl⟩
  · have hload : d.loadRun t = { d with tag := t, runLeft := runLength (t.extractLsb' 0 6) } := if_neg hlong
    have heffect : itemEffect (.run (t.extractLsb' 0 6)) d =
        (d.advance 1).commit d.prev (runLength (t.extractLsb' 0 6)) .run := if_neg hlong
    have htransfers := Decoder.transfers_eq (n := (t.extractLsb' 0 6).toNat)
      (d := { d with tag := t, runLeft := runLength (t.extractLsb' 0 6) }) rfl (Nat.le_refl _)
    rw [hload, heffect]
    refine ⟨t, htransfers.trans ?_⟩
    rw [runLength, Nat.sub_self, Decoder.commitPixels_eq, Decoder.commit_eq, Decoder.nextPhase_eq, Decoder.nextPhase_eq]
    simp only [Decoder.withTag, Decoder.setRunLeft, Decoder.setIpos, Decoder.countChunk, Decoder.advance, hrun]
    rfl

/-- A tag byte on a port that serialises runs, with the transfers it causes (R243, R247). -/
theorem Decoder.feedByte_run {d : Decoder} (hphase : d.phase = .tag) (hrun : d.runLeft = 0) (hport : d.serialPort = true)
    {t : Byte} (ht : dispatchTag t = .run) : ∃ t', d.feedByte t = (d.acceptPixelByte.completeChunk [t]).withTag t' := by
  have hload : d.byteEvent t = d.acceptPixelByte.loadRun t := by
    rw [Decoder.byteEvent_of_tag hphase hrun, Decoder.takeTag, if_neg (not_not.mpr (continuationBytes_of_run ht)),
      if_pos (by simp [hport, ht])]
  rw [Decoder.feedByte, hload]
  exact Decoder.transfers_loadRun (d := d.acceptPixelByte) hrun ht

/-- The port is not read when a chunk is complete. -/
theorem Decoder.completeChunk_onPort (bytes : List Byte) (port : Bool) (d : Decoder) :
    (d.onPort port).completeChunk bytes = (d.completeChunk bytes).onPort port := by
  unfold Decoder.completeChunk
  cases decodeChunk bytes with
  | ok r =>
    show (((itemEffect r.1 (d.onPort port)).setIpos d.ipos).nextPhase) = _
    rw [itemEffect_onPort, Decoder.nextPhase_eq]
    show _ = (((itemEffect r.1 d).setIpos d.ipos).nextPhase).onPort port
    rw [Decoder.nextPhase_eq]
    rfl
  | error r => rfl

/-- Settles O39: a transfer is one commit of `prev`, and all of them are the commit of the run. -/
theorem serialRun : Obligations.SerialRun := by
  refine ⟨fun s hagent hdue => ?transfer, fun d t hphase hrun ht => ?run⟩
  case transfer =>
    have hdue : s.dec.runLeft ≠ 0 := Nat.ne_of_gt hdue
    have hregs := Decoder.outputRegs_transfer hdue
    exact ⟨step_of_due hagent hdue, Decoder.byteEvent_of_due hdue, congrArg OutputRegs.pix hregs,
      congrArg OutputRegs.cache hregs, congrArg OutputRegs.prev hregs, congrArg OutputRegs.hist hregs,
      congrArg OutputRegs.opix hregs, s.dec.runLeft_transfer⟩
  case run =>
    obtain ⟨t', hfeed⟩ := Decoder.feedByte_run (d := d.onPort true) hphase hrun rfl ht
    have hbyte : (d.onPort false).byteEvent t = (d.onPort false).acceptPixelByte.completeChunk [t] := by
      rw [Decoder.byteEvent_of_tag (d := d.onPort false) hphase hrun]
      exact Decoder.takeTag_of_short (continuationBytes_of_run ht) (.inl rfl)
    show (d.onPort true).feedByte t = (((d.onPort false).byteEvent t).onPort true).withTag ((d.onPort true).feedByte t).tag
    rw [hbyte, ← Decoder.completeChunk_onPort, hfeed]
    rfl

end Sys2Proof.Machine
end

section
/-! PROOFS. The machine feeds pending bytes and EOI to the decoder (spec/43_streaming_fsm.md R240, R247): a byte and the transfers
it causes take a step each. -/

namespace Sys2Proof.Machine

theorem Decoder.runLeft_transfers {n : Nat} {d : Decoder} (hdue : d.runLeft = n) : (d.transfers n).runLeft = 0 := by
  induction n generalizing d with
  | zero => exact hdue
  | succ n ih => exact ih (by rw [Decoder.runLeft_transfer, hdue]; rfl)

/-- After a byte with all its transfers none is due (R247). -/
theorem Decoder.runLeft_feedByte (d : Decoder) (b : Byte) : (d.feedByte b).runLeft = 0 := Decoder.runLeft_transfers rfl

/-- The transfers of a run take a step each, and no event is served before the last of them. -/
theorem core_run_transfers {n : Nat} {s : State} (hagent : s.agent = .host) (hdue : s.dec.runLeft = n) :
    Sys2Proof.core.run n s = .next (s.setDec (s.dec.transfers n)) := by
  induction n generalizing s with
  | zero => rfl
  | succ n ih =>
    rw [core_run_of_step (step_of_due hagent (by omega))]
    exact ih hagent (by rw [State.setDec_dec, Decoder.runLeft_transfer, hdue]; rfl)

theorem core_run_feedByte {s : State} {b : Byte} {later : List Event} (hagent : s.agent = .host) (hrun : s.dec.runLeft = 0)
    (hpending : s.pending = .byte b :: later) :
    ∃ k, Sys2Proof.core.run k s = .next ({ s with pending := later }.setDec (s.dec.feedByte b)) := by
  refine ⟨(s.dec.byteEvent b).runLeft + 1, ?_⟩
  rw [core_run_of_step (step_of_byte hagent hrun hpending)]
  exact core_run_transfers (s := { s with pending := later }.setDec (s.dec.byteEvent b)) hagent rfl

/-- Settles O41: byte by byte, by induction on the input, then EOI. -/
theorem machineFeedsTheDecoder : Obligations.MachineFeedsTheDecoder := by
  intro s input later hagent hrun hpending
  induction input generalizing s with
  | nil => exact ⟨1, core_run_one (step_of_eoi hagent hrun hpending)⟩
  | cons b input ih =>
    obtain ⟨m, hbyte⟩ := core_run_feedByte hagent hrun hpending
    obtain ⟨n, hrest⟩ := ih ({ s with pending := input.map Event.byte ++ Event.eoi :: later }.setDec (s.dec.feedByte b)) hagent
      (s.dec.runLeft_feedByte b) rfl
    exact ⟨m + n, (core_run_add hbyte n).trans hrest⟩

end Sys2Proof.Machine
end

section
/-! PROOFS. The decoder fed byte by byte (spec/43_streaming_fsm.md R241 to R248): what it makes of a header, of a chunk, and of the
bytes from the marker on, each followed by whatever comes next. -/

namespace Sys2Proof.Machine

/-! ## Feeding -/

theorem Decoder.feed_nil (d : Decoder) : d.feed [] = d.eoiEvent := rfl

theorem Decoder.feed_cons (d : Decoder) (b : Byte) (bytes : List Byte) : d.feed (b :: bytes) = (d.feedByte b).feed bytes := rfl

/-- A byte that causes no transfer. -/
theorem Decoder.feedByte_of_noRun {d : Decoder} {b : Byte} (h : (d.byteEvent b).runLeft = 0) :
    d.feedByte b = d.byteEvent b := by rw [Decoder.feedByte, h]; rfl

theorem Decoder.feed_cons_of_noRun {d : Decoder} {b : Byte} (h : (d.byteEvent b).runLeft = 0) (bytes : List Byte) :
    d.feed (b :: bytes) = (d.byteEvent b).feed bytes := by rw [Decoder.feed_cons, Decoder.feedByte_of_noRun h]

/-- Outside a pass the events are ignored (R248, U14). -/
theorem Decoder.feed_of_startable {d : Decoder} (h : d.startable = true) (hrun : d.runLeft = 0) (bytes : List Byte) :
    d.feed bytes = d := by
  induction bytes with
  | nil => exact (Decoder.ignores_data_of_startable h 0).2
  | cons b bytes ih =>
    have hbyte := (Decoder.ignores_data_of_startable h b).1
    rw [Decoder.feed_cons_of_noRun (by rw [hbyte, hrun]), hbyte, ih]

/-- An error is final for the rest of the input (R248, R282). -/
theorem Decoder.Failed.feed {d : Decoder} {c : Cause} (h : d.Failed c) (hrun : d.runLeft = 0) (bytes : List Byte) :
    (d.feed bytes).Failed c := by
  rwa [Decoder.feed_of_startable (d.startable_iff.mpr (.inr (.inr h.phase))) hrun]

theorem Decoder.failed_raise (c : Cause) (d : Decoder) : (d.raise c).Failed c := ⟨rfl, rfl, rfl⟩

/-! ## The registers both levels use -/

/-- The decoder with every register cleared that the two levels use differently: phase, cursor and input, the byte-serial
registers and `pixel_data_byte_length`, which the pass writes at the loop end only (R30, R34, R243). -/
def Decoder.shared (d : Decoder) : Decoder :=
  { d with
    serialPort := false, phase := .tag, input := [], ipos := 0, pixelDataByteLength := 0, hdr := [], tag := 0#8, args := []
    need := 0, matched := 0 }

/-- The effect of an item on these registers depends on them alone. -/
theorem itemEffect_shared (i : Instr) (d : Decoder) : (itemEffect i d).shared = (itemEffect i d.shared).shared := by
  cases i with
  | run len1 =>
    simp only [itemEffect, runEffect, apply_ite Decoder.shared]
    refine if_congr Iff.rfl rfl ?_
    simp only [runLength, Decoder.commit_eq]
    rfl
  | header w h c cs =>
    simp only [itemEffect, headerEffect, apply_ite Decoder.shared]
    rfl
  | _ => rfl

theorem itemEffect_shared_congr {d d' : Decoder} (h : d.shared = d'.shared) (i : Instr) :
    (itemEffect i d).shared = (itemEffect i d').shared := by
  rw [itemEffect_shared, h, ← itemEffect_shared]

/-! ## The header -/

/-- What is wrong with the bytes of a header, in stream order (R151, R242, R279). -/
def headerFault (bytes : List Byte) : Option Cause :=
  if bytes.length < 4 then some .truncated
  else if bytes.take 4 ≠ magic then some .badMagic
  else if bytes.length < 13 then some .truncated
  else if ¬ legalChannels (headerFields bytes).channels = true then some .badChannels
  else if bytes.length < 14 then some .truncated
  else if ¬ legalColorspace (headerFields bytes).colorspace = true then some .badColorspace
  else none

/-- The judgements that the bytes of an unfinished header have passed. -/
structure HeaderOpen (hdr : List Byte) : Prop where
  short : hdr.length < 14
  begins : 4 ≤ hdr.length → hdr.take 4 = magic
  legal : 13 ≤ hdr.length → legalChannels (headerFields hdr).channels = true

theorem headerFault_of_open {hdr : List Byte} (h : HeaderOpen hdr) : headerFault hdr = some .truncated := by
  obtain ⟨hshort, hbegins, hlegal⟩ := h
  unfold headerFault
  split_ifs with h4 hm h13 hc
  · rfl
  · exact absurd (hbegins (Nat.le_of_not_lt h4)) hm
  · rfl
  · rfl
  · exact absurd (hlegal (Nat.le_of_not_lt h13)) hc

/-- Byte 12 stays byte 12 when more bytes come. -/
theorem channels_append {hdr : List Byte} (h : 13 ≤ hdr.length) (bytes : List Byte) :
    (headerFields (hdr ++ bytes)).channels = (headerFields hdr).channels :=
  List.getD_append _ _ _ _ h

theorem headerFields_append {hdr : List Byte} (h : 14 ≤ hdr.length) (bytes : List Byte) :
    headerFields (hdr ++ bytes) = headerFields hdr := by
  simp (disch := omega) only [headerFields, List.getD_append]

theorem channels_push {hdr : List Byte} (h : hdr.length = 12) (b : Byte) : (headerFields (hdr ++ [b])).channels = b := by
  simp [headerFields, List.getD_eq_getElem?_getD, h]

theorem colorspace_push {hdr : List Byte} (h : hdr.length = 13) (b : Byte) :
    (headerFields (hdr ++ [b])).colorspace = b := by
  simp [headerFields, List.getD_eq_getElem?_getD, h]

/-- The magic is compared when its fourth byte is in (R242). -/
theorem headerFault_of_badMagic {hdr : List Byte} (hlen : hdr.length = 4) (hmagic : hdr ≠ magic) (bytes : List Byte) :
    headerFault (hdr ++ bytes) = some .badMagic := by
  have htake : (hdr ++ bytes).take 4 = hdr := List.take_left' hlen
  rw [headerFault, if_neg (by rw [List.length_append]; omega), if_pos (by rwa [htake])]

/-- What the judgements of the first 13 bytes leave of the fault. -/
theorem headerFault_of_begins {bytes : List Byte} (hbegins : bytes.take 4 = magic) (hlen : 13 ≤ bytes.length) :
    headerFault bytes =
      if ¬ legalChannels (headerFields bytes).channels = true then some .badChannels
      else if bytes.length < 14 then some .truncated
      else if ¬ legalColorspace (headerFields bytes).colorspace = true then some .badColorspace
      else none := by
  rw [headerFault, if_neg (by omega), if_neg (not_not.mpr hbegins), if_neg (by omega)]

/-- The 13th byte is judged as `channels` (R242). -/
theorem headerFault_of_badChannels {hdr : List Byte} (hopen : HeaderOpen hdr) (hlen : hdr.length = 12) {b : Byte}
    (hb : legalChannels b = false) (bytes : List Byte) : headerFault (hdr ++ b :: bytes) = some .badChannels := by
  have hbegins : (hdr ++ b :: bytes).take 4 = magic := by
    rw [List.take_append_of_le_length (by omega), hopen.begins (by omega)]
  have hchannels : (headerFields (hdr ++ b :: bytes)).channels = b := by
    rw [List.append_cons, channels_append (by simp [hlen]), channels_push hlen]
  rw [headerFault_of_begins hbegins (by simp; omega), hchannels, if_pos (by simp [hb])]

/-- The 14th byte is judged as `colorspace`, and completes the header (R242). -/
theorem headerFault_of_full {hdr : List Byte} (hopen : HeaderOpen hdr) (hlen : hdr.length = 13) (b : Byte)
    (bytes : List Byte) :
    headerFault (hdr ++ b :: bytes) = if ¬ legalColorspace b = true then some .badColorspace else none := by
  have hbegins : (hdr ++ b :: bytes).take 4 = magic := by
    rw [List.take_append_of_le_length (by omega), hopen.begins (by omega)]
  have hchannels : legalChannels (headerFields (hdr ++ b :: bytes)).channels = true := by
    rw [channels_append (Nat.le_of_eq hlen.symm), hopen.legal (Nat.le_of_eq hlen.symm)]
  have hcolorspace : (headerFields (hdr ++ b :: bytes)).colorspace = b := by
    rw [List.append_cons, headerFields_append (by simp [hlen]), colorspace_push hlen]
  rw [headerFault_of_begins hbegins (by simp; omega), hchannels, hcolorspace, if_neg (by simp), if_neg (by simp; omega)]

/-- The header registers are written, and the pass goes on with the chunks, or with the marker when there is no pixel (R242). -/
structure Decoder.Latched (regs : HeaderRegs) (d d₁ : Decoder) : Prop where
  shared : d₁.shared = { d.shared with regs := regs }
  phase : d₁.phase = if regs.npix = 0 then .endMark else .tag
  matched : d₁.matched = d.matched
  length : d₁.pixelDataByteLength = d.pixelDataByteLength

/-- How a pass goes on that is fed a header's bytes and more: it fails, or the header registers are written and the bytes behind
the header are fed (R242). -/
def Decoder.FeedsHeader (bytes : List Byte) (d d' : Decoder) : Prop :=
  match headerFault bytes with
  | some c => d'.Failed c
  | none => ∃ d₁ : Decoder, d' = d₁.feed (bytes.drop 14) ∧ d.Latched (headerFields bytes) d₁

theorem Decoder.FeedsHeader.of_fault {bytes : List Byte} {d d' : Decoder} {c : Cause} (h : headerFault bytes = some c)
    (hfailed : d'.Failed c) : d.FeedsHeader bytes d' := by
  rw [Decoder.FeedsHeader, h]
  exact hfailed

theorem Decoder.FeedsHeader.of_pushHeader {bytes : List Byte} {b : Byte} {d d' : Decoder}
    (h : (d.pushHeader b).FeedsHeader bytes d') : d.FeedsHeader bytes d' := by
  unfold Decoder.FeedsHeader at h ⊢
  cases hfault : headerFault bytes with
  | some c => simpa only [hfault] using h
  | none =>
    simp only [hfault] at h ⊢
    obtain ⟨d₁, hfeed, hlatched⟩ := h
    exact ⟨d₁, hfeed, { hlatched with }⟩

theorem Decoder.feed_cons_of_header {d : Decoder} (hphase : d.phase = .header) (hrun : d.runLeft = 0) (b : Byte)
    (bytes : List Byte) : d.feed (b :: bytes) = ((d.pushHeader b).judgeHeader b).feed bytes := by
  have hbyte : d.byteEvent b = (d.pushHeader b).judgeHeader b := Decoder.byteEvent_of_header hphase hrun b
  have hkeep : ((d.pushHeader b).judgeHeader b).runLeft = 0 := by
    unfold Decoder.judgeHeader
    split_ifs <;> exact hrun
  rw [Decoder.feed_cons_of_noRun (by rw [hbyte, hkeep]), hbyte]

/-- A byte that passes the judgements leaves the header open, or it is the last one (R242). -/
theorem HeaderOpen.push {hdr : List Byte} (h : HeaderOpen hdr) {b : Byte}
    (hmagic : ¬ ((hdr ++ [b]).length = 4 ∧ hdr ++ [b] ≠ magic))
    (hchannels : ¬ ((hdr ++ [b]).length = 13 ∧ legalChannels b = false)) (hmore : (hdr ++ [b]).length ≠ 14) :
    HeaderOpen (hdr ++ [b]) := by
  obtain ⟨hshort, hbegins, hlegal⟩ := h
  simp only [List.length_append, List.length_cons, List.length_nil] at hmagic hchannels hmore
  refine ⟨by simp; omega, fun h4 => ?begins, fun h13 => ?legal⟩
  case begins =>
    simp only [List.length_append, List.length_cons, List.length_nil] at h4
    rcases Nat.lt_or_ge hdr.length 4 with hlt | hge
    · have hlen : hdr.length + 1 = 4 := by omega
      rw [List.take_of_length_le (by simp; omega)]
      exact not_not.mp fun hne => hmagic ⟨hlen, hne⟩
    · rw [List.take_append_of_le_length hge, hbegins hge]
  case legal =>
    simp only [List.length_append, List.length_cons, List.length_nil] at h13
    have hlen : hdr.length = 12 := by omega
    rw [channels_push hlen]
    exact Bool.eq_true_of_not_eq_false fun hb => hchannels ⟨by omega, hb⟩

/-- Each byte is judged where the whole header would be (R242, R279). -/
theorem Decoder.feedsHeader_feed {d : Decoder} (hphase : d.phase = .header) (hrun : d.runLeft = 0) (hopen : HeaderOpen d.hdr)
    (bytes : List Byte) : d.FeedsHeader (d.hdr ++ bytes) (d.feed bytes) := by
  induction bytes generalizing d with
  | nil =>
    refine .of_fault (c := .truncated) (by rw [List.append_nil, headerFault_of_open hopen]) ?_
    rw [Decoder.feed_nil, Decoder.eoiEvent_of_header hphase hrun]
    exact Decoder.failed_raise _ d
  | cons b bytes ih =>
    have hjudge := Decoder.feed_cons_of_header hphase hrun b bytes
    have hraise {c : Cause} (h : d.feed (b :: bytes) = ((d.pushHeader b).raise c).feed bytes) :
        (d.feed (b :: bytes)).Failed c := by
      rw [h]
      exact (Decoder.failed_raise c (d.pushHeader b)).feed hrun bytes
    unfold Decoder.judgeHeader at hjudge
    simp only [Decoder.pushHeader_hdr, List.length_append, List.length_cons, List.length_nil, Nat.zero_add] at hjudge
    split_ifs at hjudge with hmagic hchannels hfull hcolorspace
    · obtain ⟨hlen, hne⟩ := hmagic
      refine .of_fault (c := .badMagic) ?_ (hraise hjudge)
      rw [List.append_cons, headerFault_of_badMagic (by simp [hlen]) hne]
    · obtain ⟨hlen, hb⟩ := hchannels
      exact .of_fault (headerFault_of_badChannels hopen (by omega) hb bytes) (hraise hjudge)
    · refine .of_fault (c := .badColorspace) ?_ (hraise hjudge)
      rw [headerFault_of_full hopen (by omega), if_pos (by simp [hcolorspace])]
    · have hfields : headerFields (d.hdr ++ b :: bytes) = headerFields (d.hdr ++ [b]) := by
        rw [List.append_cons, headerFields_append (by simp; omega)]
      have hrest : (d.hdr ++ b :: bytes).drop 14 = bytes := by
        rw [List.append_cons, List.drop_left' (by simp; omega)]
      rw [Decoder.FeedsHeader, headerFault_of_full hopen (by omega), if_neg (by simpa using hcolorspace), hfields, hrest]
      exact ⟨_, hjudge, rfl, rfl, rfl, rfl⟩
    · have hpush := hopen.push (b := b) (by simpa using hmagic) (by simpa using hchannels) (by simpa using hfull)
      rw [hjudge, List.append_cons]
      exact (ih (d := d.pushHeader b) hphase hrun hpush).of_pushHeader

/-! ## A chunk -/

/-- A chunk that is read has its continuation bytes at hand, and what follows them is left (R93). -/
theorem decodeChunk_cons_ok {t : Byte} {tail rest : List Byte} {i : Instr} (h : decodeChunk (t :: tail) = .ok (i, rest)) :
    continuationBytes t ≤ tail.length ∧ rest = tail.drop (continuationBytes t) ∧ i.byteLength = 1 + continuationBytes t := by
  rcases Nat.lt_or_ge tail.length (continuationBytes t) with hlt | hle
  · rw [decodeChunk_of_lt hlt] at h
    cases h
  · obtain ⟨j, hj, -, hlen⟩ := decodeChunk_of_le hle
    rw [hj] at h
    cases h
    exact ⟨hle, rfl, hlen⟩

/-- A chunk is read from its own bytes alone (R93, R109). -/
theorem decodeChunk_take {t : Byte} {tail rest : List Byte} {i : Instr} (h : decodeChunk (t :: tail) = .ok (i, rest)) :
    decodeChunk (t :: tail.take (continuationBytes t)) = .ok (i, []) := by
  obtain ⟨hle, hrest, -⟩ := decodeChunk_cons_ok h
  obtain ⟨hsection, hbytes, hwf⟩ := encode_of_decodeChunk h
  have hown := decode_encode hwf []
  have hitem : encode i = t :: tail.take (continuationBytes t) := by
    refine List.append_cancel_right (bs := rest) ?_
    rw [hbytes, hrest, List.cons_append, List.take_append_drop]
  rw [hsection, List.append_nil, hitem] at hown
  exact hown

/-- What a chunk leaves of the registers that only the byte-serial decoder uses. -/
theorem itemEffect_serial_frame {i : Instr} {type : ChunkType} (htype : i.chunkType = some type) (d : Decoder) :
    (itemEffect i d).runLeft = d.runLeft ∧ (itemEffect i d).matched = d.matched ∧
      (itemEffect i d).pixelDataByteLength = d.pixelDataByteLength := by
  rcases itemEffect_chunk i d type htype with ⟨p, n, heffect, -⟩ | ⟨-, heffect⟩ <;> rw [heffect]
  · rw [Decoder.commit_eq]
    exact ⟨rfl, rfl, rfl⟩
  · exact ⟨rfl, rfl, rfl⟩

/-- The decoder after the bytes of a chunk: the chunk is executed and the next phase taken (R243, R244). -/
structure Decoder.Completes (i : Instr) (d d₁ : Decoder) : Prop where
  shared : d₁.shared = (itemEffect i d).shared
  phase : d₁.phase = if d₁.error then .error else if d₁.opix = d₁.npix then .endMark else .tag
  matched : d₁.matched = d.matched
  length : d₁.pixelDataByteLength = d.pixelDataByteLength + i.byteLength

/-- A chunk that does not fail keeps `error`, one that fails is in ERROR (R164). -/
theorem itemEffect_chunk_phase {i : Instr} {type : ChunkType} (htype : i.chunkType = some type) {d : Decoder}
    (herror : d.error = false) (h : (itemEffect i d).error = true) : (itemEffect i d).phase = .error := by
  rcases itemEffect_chunk i d type htype with ⟨p, n, heffect, -⟩ | ⟨-, heffect⟩ <;> rw [heffect] at h ⊢
  · rw [Decoder.commit_eq] at h
    simp [herror] at h
  · rfl

/-- The bytes of a chunk are all in: `d` has accepted them since the chunk began in `d₀`. -/
theorem Decoder.completes_completeChunk {d₀ d : Decoder} {bytes : List Byte} {i : Instr}
    (hdecode : decodeChunk bytes = .ok (i, [])) (hshared : d.shared = d₀.shared) (herror : d₀.error = false)
    (hmatched : d.matched = d₀.matched) (hlength : d.pixelDataByteLength = d₀.pixelDataByteLength + i.byteLength) :
    d₀.Completes i (d.completeChunk bytes) ∧ (d.completeChunk bytes).runLeft = d.runLeft := by
  obtain ⟨⟨type, htype⟩, -⟩ := decodeChunk_ok hdecode
  obtain ⟨hrun', hmatched', hlength'⟩ := itemEffect_serial_frame htype d
  have herror' : d.error = false := (congrArg Decoder.error hshared).trans herror
  rw [Decoder.completeChunk_of_decode hdecode, Decoder.nextPhase_eq]
  refine ⟨⟨itemEffect_shared_congr hshared i, ?phase, hmatched'.trans hmatched, hlength'.trans hlength⟩, hrun'⟩
  case phase =>
    show (if (itemEffect i d).error = true then (itemEffect i d).phase else _) = _
    exact ite_congr rfl (itemEffect_chunk_phase htype herror') fun _ => rfl

theorem Decoder.Completes.withTag {i : Instr} {d d₁ : Decoder} (h : d.Completes i d₁) (t : Byte) :
    d.Completes i (d₁.withTag t) := { h with }

/-- A tag byte that is a chunk of its own, on either port (R243, R247). -/
theorem Decoder.feedByte_short {d : Decoder} (hphase : d.phase = .tag) (hrun : d.runLeft = 0) (herror : d.error = false)
    {t : Byte} {i : Instr} (hdecode : decodeChunk [t] = .ok (i, [])) (hshort : continuationBytes t = 0) :
    d.Completes i (d.feedByte t) := by
  have hlen : i.byteLength = 1 := by rw [(decodeChunk_cons_ok hdecode).2.2, hshort]
  obtain ⟨hcompletes, hkeep⟩ := Decoder.completes_completeChunk (d₀ := d) (d := d.acceptPixelByte) hdecode rfl herror rfl
    (by rw [hlen]; rfl)
  by_cases hport : d.serialPort = false ∨ dispatchTag t ≠ .run
  · have hbyte : d.byteEvent t = d.acceptPixelByte.completeChunk [t] := by
      rw [Decoder.byteEvent_of_tag hphase hrun, Decoder.takeTag_of_short (d := d.acceptPixelByte) hshort hport]
    rw [Decoder.feedByte_of_noRun (by rw [hbyte, hkeep]; exact hrun), hbyte]
    exact hcompletes
  · simp only [not_or, Bool.not_eq_false, not_not] at hport
    obtain ⟨t', hfeed⟩ := Decoder.feedByte_run hphase hrun hport.1 hport.2
    rw [hfeed]
    exact hcompletes.withTag t'

/-- The decoder after it has accepted more of a chunk's bytes, in ARGS. -/
structure Decoder.InArgs (t : Byte) (bytes : List Byte) (d d₁ : Decoder) : Prop where
  phase : d₁.phase = .args
  tag : d₁.tag = t
  args : d₁.args = bytes
  need : d₁.need = continuationBytes t
  shared : d₁.shared = d.shared
  matched : d₁.matched = d.matched
  length : d₁.pixelDataByteLength = d.pixelDataByteLength + (bytes.length + 1)

theorem Decoder.inArgs_feedByte {d : Decoder} (hphase : d.phase = .tag) (hrun : d.runLeft = 0) {t : Byte}
    (hlong : continuationBytes t ≠ 0) : d.InArgs t [] (d.feedByte t) := by
  have hbyte : d.byteEvent t = d.acceptPixelByte.openChunk t := by
    rw [Decoder.byteEvent_of_tag hphase hrun, Decoder.takeTag, if_pos hlong]
  rw [Decoder.feedByte_of_noRun (by rw [hbyte]; exact hrun), hbyte]
  exact ⟨rfl, rfl, rfl, rfl, rfl, rfl, rfl⟩

/-- A continuation byte that is not the last one is kept (R244). -/
theorem Decoder.InArgs.feedByte {t b : Byte} {args : List Byte} {d d₁ : Decoder} (h : d.InArgs t args d₁)
    (hrun : d.runLeft = 0) (hmore : args.length + 1 < continuationBytes t) : d.InArgs t (args ++ [b]) (d₁.feedByte b) := by
  have hrun₁ : d₁.runLeft = 0 := (congrArg Decoder.runLeft h.shared).trans hrun
  have hbyte : d₁.byteEvent b = d₁.pushArg b := by
    rw [Decoder.byteEvent_of_args h.phase hrun₁, h.args, h.need, if_neg (Nat.ne_of_lt hmore)]
  rw [Decoder.feedByte_of_noRun (by rw [hbyte]; exact hrun₁), hbyte]
  refine ⟨h.phase, h.tag, by rw [Decoder.pushArg_args, h.args], h.need, h.shared, h.matched, ?_⟩
  rw [Decoder.pushArg_pixelDataByteLength, h.length, List.length_append]
  rfl

/-- The last continuation byte completes the chunk (R244). -/
theorem Decoder.InArgs.completes {t b : Byte} {args : List Byte} {d d₁ : Decoder} (h : d.InArgs t args d₁)
    (hrun : d.runLeft = 0) (herror : d.error = false) (hlast : args.length + 1 = continuationBytes t) {i : Instr}
    (hdecode : decodeChunk (t :: (args ++ [b])) = .ok (i, [])) : d.Completes i (d₁.feedByte b) := by
  have hlen := (decodeChunk_cons_ok hdecode).2.2
  have hrun₁ : d₁.runLeft = 0 := (congrArg Decoder.runLeft h.shared).trans hrun
  obtain ⟨hcompletes, hkeep⟩ := Decoder.completes_completeChunk (d₀ := d) (d := d₁.pushArg b) hdecode h.shared herror
    h.matched (by rw [Decoder.pushArg_pixelDataByteLength, h.length, hlen, ← hlast]; omega)
  have hbyte : d₁.byteEvent b = (d₁.pushArg b).completeChunk (t :: (args ++ [b])) := by
    rw [Decoder.byteEvent_of_args h.phase hrun₁, h.args, h.tag, h.need, if_pos hlast]
  rw [Decoder.feedByte_of_noRun (by rw [hbyte, hkeep]; exact hrun₁), hbyte]
  exact hcompletes

/-- A chunk whose bytes end too early is TRUNCATED (R244, R275). -/
theorem Decoder.InArgs.failed {t : Byte} {args : List Byte} {d d₁ : Decoder} (h : d.InArgs t args d₁)
    (hrun : d.runLeft = 0) (bytes : List Byte) (hshort : args.length + bytes.length < continuationBytes t) :
    (d₁.feed bytes).Failed .truncated := by
  induction bytes generalizing args d₁ with
  | nil =>
    rw [Decoder.feed_nil, Decoder.eoiEvent_of_args h.phase ((congrArg Decoder.runLeft h.shared).trans hrun)]
    exact Decoder.failed_raise _ d₁
  | cons b bytes ih =>
    rw [List.length_cons] at hshort
    exact ih (h.feedByte hrun (by omega)) (by simp; omega)

/-- The continuation bytes of a chunk, one after the other (R244). -/
theorem Decoder.InArgs.feed {t : Byte} {args more : List Byte} {d d₁ : Decoder} (h : d.InArgs t args d₁)
    (hrun : d.runLeft = 0) (herror : d.error = false) (hne : more ≠ [])
    (hall : args.length + more.length = continuationBytes t) {i : Instr}
    (hdecode : decodeChunk (t :: (args ++ more)) = .ok (i, [])) (rest : List Byte) :
    ∃ d₂ : Decoder, d₁.feed (more ++ rest) = d₂.feed rest ∧ d.Completes i d₂ := by
  induction more generalizing args d₁ with
  | nil => exact absurd rfl hne
  | cons b more ih =>
    rw [List.length_cons] at hall
    cases more with
    | nil => exact ⟨_, rfl, h.completes hrun herror hall hdecode⟩
    | cons c more =>
      rw [List.length_cons] at hall
      exact ih (h.feedByte hrun (by omega)) (by simp) (by simp; omega) (by simpa using hdecode)

/-- A chunk at the front of the bytes is executed, on either port, and the bytes behind it are fed (R243, R244, R247). -/
theorem Decoder.feed_chunk {d : Decoder} (hphase : d.phase = .tag) (hrun : d.runLeft = 0) (herror : d.error = false)
    {t : Byte} {tail rest : List Byte} {i : Instr} (hdecode : decodeChunk (t :: tail) = .ok (i, rest)) :
    ∃ d₁ : Decoder, d.feed (t :: tail) = d₁.feed rest ∧ d.Completes i d₁ := by
  have hown := decodeChunk_take hdecode
  obtain ⟨hle, rfl, -⟩ := decodeChunk_cons_ok hdecode
  rw [Decoder.feed_cons]
  by_cases hshort : continuationBytes t = 0
  · rw [hshort] at hown ⊢
    exact ⟨_, rfl, Decoder.feedByte_short hphase hrun herror hown hshort⟩
  · have hlen : (tail.take (continuationBytes t)).length = continuationBytes t := List.length_take_of_le hle
    have hne : tail.take (continuationBytes t) ≠ [] := List.ne_nil_of_length_pos (by omega)
    have hfeed := (Decoder.inArgs_feedByte hphase hrun hshort).feed hrun herror hne (by simpa using hlen) hown
      (tail.drop (continuationBytes t))
    rwa [List.take_append_drop] at hfeed

theorem Decoder.failed_feed_truncated {d : Decoder} (hphase : d.phase = .tag) (hrun : d.runLeft = 0) {t : Byte}
    {tail : List Byte} (hshort : tail.length < continuationBytes t) : (d.feed (t :: tail)).Failed .truncated :=
  (Decoder.inArgs_feedByte hphase hrun (by omega)).failed hrun tail (by simpa using hshort)

/-! ## The marker and the trailing data -/

/-- A pass that has ended in DONE, with the marker present or not, and with these bytes appended to `TRAIL`. -/
structure Decoder.Closed (present : Bool) (bytes : List Byte) (d d' : Decoder) : Prop where
  phase : d'.phase = .done
  shared : d'.shared = { d.shared with endTagPresent := present, trail := d.trail ++ bytes, done := true }
  length : d'.pixelDataByteLength = d.pixelDataByteLength

theorem Decoder.Closed.congr {present : Bool} {bytes : List Byte} {d d₁ d' : Decoder} (h : d₁.Closed present bytes d')
    (hshared : d₁.shared = d.shared) (hlength : d₁.pixelDataByteLength = d.pixelDataByteLength) :
    d.Closed present bytes d' := by
  have htrail : d₁.trail = d.trail := (congrArg Decoder.trail hshared :)
  exact ⟨h.phase, by rw [h.shared, hshared, htrail], h.length.trans hlength⟩

/-- How a pass ends whose bytes from the marker on are given (R167, R168, R245, R246). -/
def Decoder.EndsWith (bytes : List Byte) (d d' : Decoder) : Prop :=
  if bytes.take 8 = endMarkerBytes then d.Closed true (bytes.drop 8) d'
  else if d.opts.requireEndTag = true then d'.Failed .missingEndTag
  else d.Closed false bytes d'

theorem Decoder.EndsWith.congr {bytes : List Byte} {d d₁ d' : Decoder} (h : d₁.EndsWith bytes d')
    (hshared : d₁.shared = d.shared) (hlength : d₁.pixelDataByteLength = d.pixelDataByteLength) : d.EndsWith bytes d' := by
  have hopts : d₁.opts = d.opts := (congrArg Decoder.opts hshared :)
  unfold Decoder.EndsWith at h ⊢
  rw [hopts] at h
  split_ifs at h ⊢
  · exact h.congr hshared hlength
  · exact h
  · exact h.congr hshared hlength

theorem Decoder.EndsWith.of_present {bytes : List Byte} {d d' : Decoder} (hmarker : bytes.take 8 = endMarkerBytes)
    (hclosed : d.Closed true (bytes.drop 8) d') : d.EndsWith bytes d' := by
  rw [Decoder.EndsWith, if_pos hmarker]
  exact hclosed

/-- Without the marker the pass fails or the bytes are trailing data, as the option says. -/
theorem Decoder.EndsWith.of_absent {bytes : List Byte} {d d' : Decoder} (habsent : bytes.take 8 ≠ endMarkerBytes)
    (hrequired : d.opts.requireEndTag = true → d'.Failed .missingEndTag)
    (htolerated : d.opts.requireEndTag = false → d.Closed false bytes d') : d.EndsWith bytes d' := by
  rw [Decoder.EndsWith, if_neg habsent]
  split_ifs with hreq
  · exact hrequired hreq
  · exact htolerated (Bool.eq_false_of_not_eq_true hreq)

/-- In TRAILING the bytes are appended, and EOI ends the pass (R246). -/
theorem Decoder.closed_feed_trailing {d : Decoder} (hphase : d.phase = .trailing) (hrun : d.runLeft = 0)
    (bytes : List Byte) : d.Closed d.endTagPresent bytes (d.feed bytes) := by
  induction bytes generalizing d with
  | nil =>
    rw [Decoder.feed_nil, Decoder.eoiEvent_of_trailing hphase hrun]
    exact ⟨rfl, by rw [List.append_nil]; rfl, rfl⟩
  | cons b bytes ih =>
    have hbyte := Decoder.byteEvent_of_trailing hphase hrun b
    rw [Decoder.feed_cons_of_noRun (by rw [hbyte]; exact hrun), hbyte]
    obtain ⟨hdone, hshared, hlength⟩ := ih (d := d.accept.pushTrail [b]) hphase hrun
    refine ⟨hdone, hshared.trans ?_, hlength⟩
    rw [Decoder.pushTrail_trail, List.append_assoc]
    rfl

/-- EOI before the marker is complete (R173, R243, R245). -/
theorem Decoder.endsWith_eoiWithoutMarker {held : List Byte} (habsent : held.take 8 ≠ endMarkerBytes) (d : Decoder) :
    d.EndsWith held (d.eoiWithoutMarker held) := by
  rw [Decoder.eoiWithoutMarker_eq]
  refine .of_absent habsent (fun hreq => ?_) (fun hreq => ?_)
  · rw [if_pos hreq]
    exact ⟨rfl, rfl, rfl⟩
  · rw [if_neg (by simp [hreq])]
    exact ⟨rfl, rfl, rfl⟩

/-- A byte that is not the marker's next one: what has matched and the byte itself are no marker (R245). -/
theorem take_ne_endMarkerBytes_of_mismatch {k : Nat} (hk : k < 8) {b : Byte} (h : endMarkerBytes[k]? ≠ some b)
    (bytes : List Byte) : (endMarkerBytes.take k ++ b :: bytes).take 8 ≠ endMarkerBytes := by
  intro hmarker
  have hlen : (endMarkerBytes.take k).length = k := List.length_take_of_le (Nat.le_of_lt hk)
  rw [← hmarker, List.getElem?_take_of_lt hk, List.getElem?_append_right (Nat.le_of_eq hlen), hlen, Nat.sub_self] at h
  exact h rfl

theorem take_ne_endMarkerBytes_of_lt {held : List Byte} (h : held.length < 8) : held.take 8 ≠ endMarkerBytes := by
  intro hmarker
  have hlen := congrArg List.length hmarker
  simp only [List.length_take, endMarkerBytes, List.length_cons, List.length_nil] at hlen
  omega

/-- Bytes are held back while they match the marker, and given back when they turn out not to be it (R245). -/
theorem Decoder.endsWith_feed {d : Decoder} (hphase : d.phase = .endMark) (hrun : d.runLeft = 0) (hopen : d.matched < 8)
    (bytes : List Byte) : d.EndsWith (endMarkerBytes.take d.matched ++ bytes) (d.feed bytes) := by
  induction bytes generalizing d with
  | nil =>
    rw [Decoder.feed_nil, Decoder.eoiEvent_of_endMark hphase hrun, List.append_nil]
    exact d.endsWith_eoiWithoutMarker (take_ne_endMarkerBytes_of_lt (by simp; omega))
  | cons b bytes ih =>
    have hbyte := Decoder.byteEvent_of_endMark hphase hrun b
    by_cases hmatch : endMarkerBytes[d.matched]? = some b
    · have hheld : endMarkerBytes.take d.matched ++ b :: bytes = endMarkerBytes.take (d.matched + 1) ++ bytes := by
        rw [List.take_add_one, hmatch, List.append_assoc]
        rfl
      rw [Decoder.byteEnd_of_match hmatch] at hbyte
      split_ifs at hbyte with hlast
      · rw [Decoder.feed_cons_of_noRun (by rw [hbyte]; exact hrun), hbyte, hheld, hlast]
        have hclosed := Decoder.closed_feed_trailing
          (d := { d with ipos := d.ipos + 1, matched := 8, endTagPresent := true, phase := .trailing }) rfl hrun bytes
        exact .of_present rfl ⟨hclosed.phase, hclosed.shared, hclosed.length⟩
      · rw [Decoder.feed_cons_of_noRun (by rw [hbyte]; exact hrun), hbyte, hheld]
        exact (ih (d := { d with ipos := d.ipos + 1, matched := d.matched + 1 }) hphase hrun
          (by show d.matched + 1 < 8; omega)).congr rfl rfl
    · rw [Decoder.byteEnd_of_mismatch hmatch] at hbyte
      refine .of_absent (take_ne_endMarkerBytes_of_mismatch hopen hmatch bytes) (fun hreq => ?required)
        fun hreq => ?tolerated
      case required =>
        rw [if_pos hreq] at hbyte
        have hkeep : (d.byteEvent b).runLeft = 0 := by rw [hbyte]; exact hrun
        have hfailed : (d.byteEvent b).Failed .missingEndTag := by rw [hbyte]; exact ⟨rfl, rfl, rfl⟩
        rw [Decoder.feed_cons_of_noRun hkeep]
        exact hfailed.feed hkeep bytes
      case tolerated =>
        rw [if_neg (by simp [hreq])] at hbyte
        rw [Decoder.feed_cons_of_noRun (by rw [hbyte]; exact hrun), hbyte]
        have hclosed := Decoder.closed_feed_trailing (d := { d with
          ipos := d.ipos + 1, endTagPresent := false
          trail := d.trail ++ (endMarkerBytes.take d.matched ++ [b]), phase := .trailing }) rfl hrun bytes
        refine ⟨hclosed.phase, hclosed.shared.trans ?_, hclosed.length⟩
        simp [Decoder.shared]

end Sys2Proof.Machine
end

section
/-! PROOFS. Decoding byte by byte ends as the pass over the whole input ends (spec/43_streaming_fsm.md R249): between two items the
two levels agree in the registers they share, and the byte-serial decoder is fed what stands at the cursor of the pass. -/

namespace Sys2Proof.Machine

/-! ## How the two end -/

/-- Both have ended in DONE with the same outputs, or both have failed with the same cause. -/
inductive Decoder.EndsAlike (f g : Decoder) : Prop
  | done (hserial : f.phase = .done) (hpass : g.phase = .done) (hshared : f.shared = g.shared)
      (hlength : f.pixelDataByteLength = g.pixelDataByteLength)
  | failed (c : Cause) (hserial : f.Failed c) (hpass : g.Failed c)

/-- A byte-serial decoder has ended in `f` as the pass that goes on from `g` ends. -/
def Decoder.EndsAsPass (f g : Decoder) : Prop := ∃ g', g.Reaches g' ∧ g'.nextAction = .rest ∧ f.EndsAlike g'

theorem Decoder.EndsAsPass.of_passStep {f g : Decoder} (h : f.EndsAsPass g.passStep) : f.EndsAsPass g := by
  obtain ⟨g', hreaches, hends⟩ := h
  exact ⟨g', hreaches.of_passStep, hends⟩

theorem Decoder.endsAsPass_of_failed {f g : Decoder} {c : Cause} (hserial : f.Failed c) (hpass : g.Failed c) :
    f.EndsAsPass g :=
  ⟨g, ⟨0, rfl⟩, by simp only [Decoder.nextAction, hpass.phase], .failed c hserial hpass⟩

theorem Decoder.EndsWith.endsAlike {bytes : List Byte} {f f' g g' : Decoder} (hf : f.EndsWith bytes f')
    (hg : g.EndsWith bytes g') (hshared : f.shared = g.shared) (hlength : f.pixelDataByteLength = g.pixelDataByteLength) :
    f'.EndsAlike g' := by
  have hf := hf.congr hshared hlength
  unfold Decoder.EndsWith at hf hg
  split_ifs at hf hg
  · exact .done hf.phase hg.phase (hf.shared.trans hg.shared.symm) (hf.length.trans hg.length.symm)
  · exact .failed _ hf hg
  · exact .done hf.phase hg.phase (hf.shared.trans hg.shared.symm) (hf.length.trans hg.length.symm)

/-- A pass at its marker test ends as the bytes at the cursor say (R167, R168). -/
theorem Decoder.exists_endsWith {g : Decoder} (hphase : g.phase = .endMark) (htrail : g.trail = []) :
    ∃ g', g.Reaches g' ∧ g'.nextAction = .rest ∧ g.EndsWith (g.input.drop g.ipos) g' := by
  by_cases hmarker : (g.input.drop g.ipos).take 8 = endMarkerBytes
  · refine ⟨(endMarkerEffect g).takeTrailing, ⟨2, ?run⟩, rfl, .of_present hmarker ⟨rfl, ?shared, rfl⟩⟩
    case run =>
      simp only [Decoder.runPass, Decoder.passStep_of_marker hphase hmarker]
      exact Decoder.passStep_of_trailing rfl
    case shared =>
      rw [htrail, List.nil_append, List.drop_drop]
      rfl
  · cases hreq : g.opts.requireEndTag
    case true =>
      have hmiss := Decoder.missMarker_of_required hreq
      refine ⟨g.missMarker, ⟨1, Decoder.passStep_of_no_marker hphase hmarker⟩, by rw [hmiss]; rfl,
        .of_absent hmarker (fun _ => by rw [hmiss]; exact ⟨rfl, rfl, rfl⟩) (by simp [hreq])⟩
    case false =>
      have hmiss := Decoder.missMarker_of_not_required hreq
      refine ⟨g.missMarker.takeTrailing, ⟨2, ?run⟩, rfl, .of_absent hmarker (by simp [hreq])
        fun _ => by rw [hmiss]; exact ⟨rfl, by rw [htrail]; rfl, rfl⟩⟩
      case run =>
        simp only [Decoder.runPass, Decoder.passStep_of_no_marker hphase hmarker]
        exact Decoder.passStep_of_trailing (by rw [hmiss])

/-- At the loop end the marker test is next, on both levels (R166, R243). -/
theorem Decoder.EndsWith.endsAsPass {f f' g : Decoder} (h : f.EndsWith (g.input.drop g.ipos) f') (hphase : g.phase = .tag)
    (hover : ¬ (g.ipos < g.input.length ∧ g.opix < g.npix)) (hshared : f.shared = g.shared)
    (hlength : f.pixelDataByteLength = g.ipos - headerLen) (htrail : g.trail = []) : f'.EndsAsPass g := by
  obtain ⟨g', hreaches, hrest, hends⟩ := Decoder.exists_endsWith (g := g.endLoop) rfl htrail
  refine .of_passStep ?_
  rw [Decoder.passStep_of_loop_over hphase hover]
  exact ⟨g', hreaches, hrest, h.endsAlike hends hshared hlength⟩

/-! ## Between two items -/

/-- The byte-serial decoder `f` and the pass `g` stand between the same two items: the shared registers agree, the next phase
is taken, and as many bytes are counted as the cursor has moved behind the header (R241, R243). -/
structure Decoder.InStep (f g : Decoder) : Prop where
  shared : f.shared = g.shared
  serialPhase : f.phase = if g.opix = g.npix then .endMark else .tag
  passPhase : g.phase = .tag
  inPixels : g.InPixels
  noTrail : g.trail = []
  unmatched : f.matched = 0
  cursor : g.ipos = headerLen + f.pixelDataByteLength

theorem Decoder.InStep.noRun {f g : Decoder} (h : f.InStep g) : f.runLeft = 0 :=
  (congrArg Decoder.runLeft h.shared :).trans h.inPixels.noRun

theorem Decoder.InStep.noError {f g : Decoder} (h : f.InStep g) : f.error = false :=
  (congrArg Decoder.error h.shared :).trans h.inPixels.error

theorem Decoder.InStep.length {f g : Decoder} (h : f.InStep g) : f.pixelDataByteLength = g.ipos - headerLen := by
  rw [h.cursor, Nat.add_sub_cancel_left]

/-- All pixels are out: the bytes at the cursor are the marker's, or the trailing data. -/
theorem Decoder.InStep.endsAsPass_of_all {f g : Decoder} (h : f.InStep g) (hall : g.opix = g.npix) :
    (f.feed (g.input.drop g.ipos)).EndsAsPass g := by
  have hphase : f.phase = .endMark := h.serialPhase.trans (if_pos hall)
  have hends := Decoder.endsWith_feed hphase h.noRun (by rw [h.unmatched]; decide) (g.input.drop g.ipos)
  rw [h.unmatched] at hends
  exact hends.endsAsPass h.passPhase (fun hmore => Nat.ne_of_lt hmore.2 hall) h.shared h.length h.noTrail

/-- The input has ended before the last pixel: the marker is missing (R173, R243). -/
theorem Decoder.InStep.endsAsPass_of_end {f g : Decoder} (h : f.InStep g) (hmore : g.opix ≠ g.npix)
    (hend : g.input.drop g.ipos = []) : (f.feed (g.input.drop g.ipos)).EndsAsPass g := by
  have hphase : f.phase = .tag := h.serialPhase.trans (if_neg hmore)
  have hends : f.EndsWith (g.input.drop g.ipos) (f.feed (g.input.drop g.ipos)) := by
    rw [hend, Decoder.feed_nil, Decoder.eoiEvent_of_tag hphase h.noRun]
    exact f.endsWith_eoiWithoutMarker (by decide)
  refine hends.endsAsPass h.passPhase (fun hinput => ?_) h.shared h.length h.noTrail
  exact Nat.not_le.mpr hinput.1 (List.drop_eq_nil_iff.mp hend)

/-- A chunk is executed on both levels: they agree behind it, or both have failed (R164, R243, R244). -/
theorem Decoder.InStep.completes {f f₁ g : Decoder} (h : f.InStep g) (hmore : g.opix < g.npix) {i : Instr}
    {type : ChunkType} (htype : i.chunkType = some type) (hcompletes : f.Completes i f₁) :
    (f₁.InStep (itemEffect i g) ∧
      (itemEffect i g).input.drop (itemEffect i g).ipos = (g.input.drop g.ipos).drop i.byteLength) ∨
    ∃ c, f₁.Failed c ∧ f₁.runLeft = 0 ∧ (itemEffect i g).Failed c := by
  have hshared := hcompletes.shared.trans (itemEffect_shared_congr h.shared i)
  have herror : f₁.error = (itemEffect i g).error := (congrArg Decoder.error hshared :)
  have hopix : f₁.opix = (itemEffect i g).opix := (congrArg Decoder.opix hshared :)
  have hregs : f₁.regs = (itemEffect i g).regs := (congrArg Decoder.regs hshared :)
  have hphase := hcompletes.phase
  rw [herror, hopix, Decoder.npix_eq, hregs] at hphase
  rcases h.inPixels.inPixels_itemEffect hmore htype with ⟨hin, hphase', hipos, htrail, hinput⟩ | hraise
  · rw [hin.error] at hphase
    refine .inl ⟨⟨hshared, hphase, hphase'.trans h.passPhase, hin, htrail.trans h.noTrail,
      hcompletes.matched.trans h.unmatched, ?cursor⟩, by rw [hinput, hipos, List.drop_drop]⟩
    case cursor => rw [hipos, h.cursor, hcompletes.length, Nat.add_assoc]
  · rw [hraise] at herror hphase hshared ⊢
    exact .inr ⟨.runOverrun, ⟨hphase, herror, (congrArg Decoder.cause hshared :)⟩,
      (congrArg Decoder.runLeft hshared :).trans h.inPixels.noRun, Decoder.failed_raise _ g⟩

/-- A chunk whose bytes end too early fails the pass (R165, R275). -/
theorem Decoder.failed_passStep_truncated {g : Decoder} (hphase : g.phase = .tag) (hmore : g.opix < g.npix) {t : Byte}
    {tail : List Byte} (hbytes : g.input.drop g.ipos = t :: tail) (hshort : tail.length < continuationBytes t) :
    g.passStep.Failed .truncated := by
  have hinput : g.ipos < g.input.length := by
    by_contra hend
    rw [List.drop_eq_nil_of_le (Nat.le_of_not_lt hend)] at hbytes
    cases hbytes
  have hnext : g.nextAction = g.fetch .chunks := by simp only [Decoder.nextAction, hphase, if_pos (And.intro hinput hmore)]
  rw [Decoder.passStep_of_fetch hnext, hbytes, decode, decodeChunk_of_lt hshort]
  exact ⟨rfl, rfl, rfl⟩

/-- Chunk by chunk, by induction on the bytes that are left. -/
theorem Decoder.InStep.endsAsPass {f g : Decoder} (h : f.InStep g) : (f.feed (g.input.drop g.ipos)).EndsAsPass g := by
  induction hleft : (g.input.drop g.ipos).length using Nat.strong_induction_on generalizing f g with
  | _ n ih =>
    by_cases hall : g.opix = g.npix
    · exact h.endsAsPass_of_all hall
    have hmore : g.opix < g.npix := Nat.lt_of_le_of_ne h.inPixels.within hall
    have hphase : f.phase = .tag := h.serialPhase.trans (if_neg hall)
    cases hbytes : g.input.drop g.ipos with
    | nil => rw [← hbytes]; exact h.endsAsPass_of_end hall hbytes
    | cons t tail =>
      rw [hbytes, List.length_cons] at hleft
      rcases Nat.lt_or_ge tail.length (continuationBytes t) with hshort | hle
      · exact .of_passStep (Decoder.endsAsPass_of_failed (Decoder.failed_feed_truncated hphase h.noRun hshort)
          (Decoder.failed_passStep_truncated h.passPhase hmore hbytes hshort))
      · obtain ⟨i, hdecode, htype, -⟩ := decodeChunk_of_le hle
        obtain ⟨f₁, hfeed, hcompletes⟩ := Decoder.feed_chunk hphase h.noRun h.noError hdecode
        have hstep : g.passStep = itemEffect i g := by
          rw [Decoder.passStep, Decoder.nextAction_of_chunk h.passPhase hmore (hbytes ▸ hdecode)]
        refine .of_passStep ?_
        rw [hstep, hfeed]
        rcases h.completes hmore htype hcompletes with ⟨hin, hrest⟩ | ⟨c, hserial, hrun, hpass⟩
        · rw [hbytes, drop_byteLength_of_decode (sec := .chunks) (bytes := t :: tail) hdecode] at hrest
          have hless : (tail.drop (continuationBytes t)).length < n := by rw [List.length_drop]; omega
          rw [← hrest] at hless ⊢
          exact ih _ hless hin rfl
        · exact Decoder.endsAsPass_of_failed (hserial.feed hrun _) hpass

/-! ## The header -/

/-- The pass judges the header as the byte-serial decoder does (R151, R242, R279). -/
theorem Decoder.passStep_by_headerFault {g : Decoder} (hphase : g.phase = .header) (hipos : g.ipos = 0) :
    (∃ c, headerFault g.input = some c ∧ g.passStep.Failed c) ∨
    headerFault g.input = none ∧ g.passStep = { g with regs := headerFields g.input, ipos := headerLen, phase := .tag } := by
  rw [Decoder.passStep_of_header hphase hipos, headerFault]
  split_ifs
  any_goals exact .inl ⟨_, rfl, rfl, rfl, rfl⟩
  exact .inr ⟨rfl, rfl⟩

/-- A header that is in order puts the two in step (R151, R242). -/
theorem Decoder.Latched.inStep {f f₁ g : Decoder} {regs : HeaderRegs} (h : f.Latched regs f₁) (hpass : g.PassInv)
    (hphase : g.phase = .tag) (hipos : g.ipos = headerLen) (hopix : g.opix = 0)
    (hshared : { f.shared with regs := regs } = g.shared) (hmatched : f.matched = 0) (hlength : f.pixelDataByteLength = 0) :
    f₁.InStep g where
  shared := h.shared.trans hshared
  serialPhase := by
    have hregs : regs = g.regs := (congrArg Decoder.regs hshared :)
    rw [h.phase, hopix, hregs, Decoder.npix_eq]
    simp only [eq_comm]
  passPhase := hphase
  inPixels := hpass.inPixels (.inl hphase)
  noTrail := hpass.trail_eq_nil hphase (by decide)
  unmatched := h.matched.trans hmatched
  cursor := by rw [hipos, h.length, hlength, Nat.add_zero]

/-- From START on: the header, then item by item. -/
theorem Decoder.endsAsPass_start (seed : Bool) (unparsed unparsed' : HeaderRegs) (o : DecoderOptions) (input : List Byte)
    (d d' : Decoder) : ((d'.start seed unparsed' o []).feed input).EndsAsPass (d.start seed unparsed o input) := by
  have hopen : HeaderOpen [] :=
    ⟨Nat.succ_pos 13, fun h => absurd h (Nat.not_succ_le_zero 3), fun h => absurd h (Nat.not_succ_le_zero 12)⟩
  have hfeeds := Decoder.feedsHeader_feed (d := d'.start seed unparsed' o []) rfl rfl hopen input
  rw [show (d'.start seed unparsed' o []).hdr ++ input = input from rfl] at hfeeds
  refine .of_passStep ?_
  rcases Decoder.passStep_by_headerFault (g := d.start seed unparsed o input) rfl rfl with
    ⟨c, hfault, hfailed⟩ | ⟨hfault, hstep⟩
  · rw [Decoder.FeedsHeader, show headerFault input = some c from hfault] at hfeeds
    exact Decoder.endsAsPass_of_failed hfeeds hfailed
  · rw [Decoder.FeedsHeader, show headerFault input = none from hfault] at hfeeds
    obtain ⟨f₁, hfeed, hlatched⟩ := hfeeds
    have hpass := (d.passInv_start seed unparsed o input).passMove (Decoder.passMove_passStep _)
    rw [hstep] at hpass ⊢
    rw [hfeed]
    exact (hlatched.inStep hpass rfl rfl rfl rfl rfl rfl).endsAsPass

/-- The result of a pass is in the shared registers and `pixel_data_byte_length` (R150). -/
theorem Decoder.result_congr {f g : Decoder} (hshared : f.shared = g.shared)
    (hlength : f.pixelDataByteLength = g.pixelDataByteLength) : f.result = g.result := by
  have hresult (d : Decoder) : d.result = { d.shared with pixelDataByteLength := d.pixelDataByteLength }.result := rfl
  rw [hresult f, hresult g, hshared, hlength]

/-- Settles O40: the two end alike, and the pass in DONE or in ERROR. -/
theorem streamDecoderMatchesThePass : Obligations.StreamDecoderMatchesThePass := by
  intro seed unparsed unparsed' o input d d'
  obtain ⟨g, hreaches, hrest, hends⟩ := Decoder.endsAsPass_start seed unparsed unparsed' o input d d'
  have hflags := decodeAlwaysEnds seed unparsed o input d
  rw [decodeFinal_eq_of_reaches hreaches hrest] at hflags ⊢
  cases hends with
  | done hserial hpass hshared hlength =>
    obtain ⟨-, hdone, herror⟩ := hflags.resolve_right fun h => by simp [hpass] at h
    exact ⟨by simp [hserial, hdone], by simp [hserial, herror], Decoder.result_congr hshared hlength, fun _ =>
      ⟨(congrArg Decoder.prev hshared :), (congrArg Decoder.cache hshared :)⟩⟩
  | failed c hserial hpass =>
    obtain ⟨-, herror, hdone, -⟩ := hflags.resolve_left fun h => by simp [hpass.phase] at h
    exact ⟨by simp [hserial.phase, hdone], by simp [hserial.phase, herror],
      (hserial.result_runPass 0).trans (hpass.result_runPass 0).symm, by simp [hdone]⟩

end Sys2Proof.Machine
end

section
/-! PROOFS. The pixel-serial encoder (spec/43_streaming_fsm.md R251, R252): what writing out the pending run does, what taking a
pixel does, before the last pixel and at it. -/

namespace Sys2Proof.Machine

/-! ## The pending run -/

/-- The bytes of the pending run: its RUN chunk, or none when no run is pending (R198, R251). -/
def Encoder.pendingBytes (e : Encoder) : List Byte :=
  if e.run = 0 then [] else [BitVec.ofNat 8 (0xC0 ||| (e.run - 1))]

theorem Encoder.flushRun_of_none {e : Encoder} (hnone : e.run = 0) : e.flushRun = e :=
  if_neg (by simp [hnone])

theorem Encoder.flushRun_of_pending {e : Encoder} (hpending : 0 < e.run) :
    e.flushRun = (e.emitItem (runChunk e.run)).setRun 0 :=
  if_pos hpending

theorem Encoder.flushRun_eq {e : Encoder} (hmax : e.run ≤ 62) :
    e.flushRun = { e with run := 0, out := e.out ++ e.pendingBytes, opos := e.opos + e.pendingBytes.length } := by
  rcases Nat.eq_zero_or_pos e.run with hnone | hpending
  · rw [Encoder.flushRun_of_none hnone, Encoder.pendingBytes, if_pos hnone, List.append_nil]
    cases e
    cases hnone
    rfl
  · rw [Encoder.flushRun_of_pending hpending, Encoder.pendingBytes, if_neg (Nat.ne_of_gt hpending), ← encode_runChunk hmax]
    rfl

theorem Encoder.flushFullRun_of_full {e : Encoder} (hfull : e.run = 62) : e.flushFullRun = e.flushRun := if_pos hfull

theorem Encoder.flushFullRun_of_short {e : Encoder} (hshort : e.run ≠ 62) : e.flushFullRun = e := if_neg hshort

/-- A run of 62 written out at once leaves nothing to write out (R251). -/
theorem Encoder.flushRun_flushFullRun (e : Encoder) : e.flushFullRun.flushRun = e.flushRun := by
  by_cases hfull : e.run = 62
  · rw [Encoder.flushFullRun_of_full hfull, Encoder.flushRun_of_none e.flushRun_run]
  · rw [Encoder.flushFullRun_of_short hfull]

/-- Cases 2 to 7 do not look at the pending run (R197). -/
theorem Encoder.selectSingle_flushRun (e : Encoder) (c : Pixel) : e.flushRun.selectSingle c = e.selectSingle c := by
  unfold Encoder.flushRun
  split <;> rfl

/-! ## One pixel -/

theorem Encoder.takePixel_of_equal {e : Encoder} (huse : e.opts.useRun = true) :
    e.takePixel e.prev = { e with run := e.run + 1, cache := e.cache.update e.prev }.flushFullRun :=
  if_pos ((e.runApplies_iff e.prev).mpr ⟨huse, rfl⟩)

theorem Encoder.takePixel_of_other {e : Encoder} {c : Pixel} (hother : ¬ (e.opts.useRun = true ∧ c = e.prev))
    (hmax : e.run ≤ 62) :
    e.takePixel c =
      { e with
        run := 0
        cache := e.cache.update c
        prev := c
        out := e.out ++ e.pendingBytes ++ encode (e.selectSingle c)
        opos := e.opos + e.pendingBytes.length + (encode (e.selectSingle c)).length } := by
  have htake : e.takePixel c = e.emitSingle c := if_neg (mt (e.runApplies_iff c).mp hother)
  rw [htake, Encoder.emitSingle, Encoder.emitPixel, Encoder.selectSingle_flushRun, Encoder.flushRun_eq hmax]
  rfl

theorem Encoder.takePixel_frame (e : Encoder) (c : Pixel) : (e.takePixel c).i = e.i ∧ (e.takePixel c).npix = e.npix := by
  unfold Encoder.takePixel Encoder.absorb Encoder.flushFullRun
  split_ifs
  case pos => exact (Encoder.flushRun_frame _).imp_right And.left
  case neg => exact ⟨rfl, rfl⟩
  case neg => exact e.flushRun_frame.imp_right And.left

/-! ## The event -/

/-- A pixel that is not the last is taken, and the next one is expected. -/
theorem Encoder.pixelEvent_of_more {e : Encoder} (hphase : e.phase = .pixels) (hmore : e.i + 1 < e.npix) (c : Pixel) :
    e.pixelEvent c = (e.takePixel c).advance 1 := by
  obtain ⟨hi, hnpix⟩ := e.takePixel_frame c
  have hinside : ((e.takePixel c).advance 1).i ≠ ((e.takePixel c).advance 1).npix := by
    show (e.takePixel c).i + 1 ≠ (e.takePixel c).npix
    omega
  have hpixels : ((e.takePixel c).advance 1).phase ≠ .tail := by simp [Encoder.advance, e.takePixel_phase c, hphase]
  simp only [Encoder.pixelEvent, hphase, Encoder.endOfImage, if_neg hinside, Encoder.settle, if_neg hpixels]

/-- The last pixel is taken, and what is pending, the marker and the trailing data follow (R252). -/
theorem Encoder.pixelEvent_of_last {e : Encoder} (hphase : e.phase = .pixels) (hlast : e.i + 1 = e.npix) (c : Pixel) :
    e.pixelEvent c = ((e.takePixel c).advance 1).flushRun.writeTail := by
  obtain ⟨hi, hnpix⟩ := e.takePixel_frame c
  have hend : ((e.takePixel c).advance 1).i = ((e.takePixel c).advance 1).npix := by
    show (e.takePixel c).i + 1 = (e.takePixel c).npix
    omega
  simp only [Encoder.pixelEvent, hphase, Encoder.endOfImage, if_pos hend]
  have htail (f : Encoder) : (f.goTo .tail).settle = (f.goTo .tail).writeTail := if_pos rfl
  rw [htail, Encoder.writeTail_eq, Encoder.writeTail_eq]
  rfl

/-- Settles O50: the three cases of `Encoder.takePixel`; the byte of a full run is that of the pending run of 62. -/
theorem pixelEvent : Obligations.PixelEvent := by
  intro e c hphase hmore
  rw [Encoder.pixelEvent_of_more hphase hmore]
  refine ⟨?counted, ?full, fun hother hmax => ?other⟩
  case counted =>
    rintro huse rfl hshort
    rw [Encoder.takePixel_of_equal huse, Encoder.flushFullRun_of_short hshort]
    rfl
  case full =>
    rintro huse rfl hfull
    rw [Encoder.takePixel_of_equal huse, Encoder.flushFullRun_of_full hfull,
      Encoder.flushRun_eq (Nat.le_of_eq hfull)]
    simp only [Encoder.pendingBytes, hfull]
    rfl
  case other =>
    have hlength : e.pendingBytes.length = if e.run = 0 then 0 else 1 := apply_ite List.length _ _ _
    rw [Encoder.takePixel_of_other hother hmax, hlength]
    rfl

/-- A pixel, and the pending run written out after it (R251). -/
theorem Encoder.flushRun_takePixel {e : Encoder} (hrun : e.run < 62) (c : Pixel) :
    ∃ chunks,
      (e.takePixel c).flushRun =
        { e with
          run := 0, cache := e.cache.update c, prev := c, out := e.out ++ chunks, opos := e.opos + chunks.length } ∧
      chunks =
        if e.opts.useRun = true ∧ c = e.prev then [BitVec.ofNat 8 (0xC0 ||| e.run)]
        else e.pendingBytes ++ encode (e.selectSingle c) := by
  refine ⟨_, ?_, rfl⟩
  by_cases hequal : e.opts.useRun = true ∧ c = e.prev
  · rw [if_pos hequal]
    obtain ⟨huse, rfl⟩ := hequal
    rw [Encoder.takePixel_of_equal huse, Encoder.flushRun_flushFullRun, Encoder.flushRun_eq (Nat.succ_le_of_lt hrun)]
    rfl
  · rw [if_neg hequal, Encoder.takePixel_of_other hequal (Nat.le_of_lt hrun), Encoder.flushRun_of_none rfl,
      List.append_assoc, List.length_append, Nat.add_assoc]

theorem Encoder.flushRun_advance (n : Nat) (e : Encoder) : (e.advance n).flushRun = e.flushRun.advance n := by
  rcases Nat.eq_zero_or_pos e.run with hnone | hpending
  · rw [Encoder.flushRun_of_none hnone, Encoder.flushRun_of_none (e := e.advance n) hnone]
  · rw [Encoder.flushRun_of_pending hpending, Encoder.flushRun_of_pending (e := e.advance n) hpending]
    rfl

/-- Settles O51: the pixel is taken and the pending run written out by `Encoder.flushRun_takePixel`, then TAIL. -/
theorem lastPixelEvent : Obligations.LastPixelEvent := by
  intro e c hphase hlast hrun
  obtain ⟨chunks, htaken, hchunks⟩ := Encoder.flushRun_takePixel hrun c
  rw [Encoder.pixelEvent_of_last hphase hlast, Encoder.flushRun_advance, htaken, Encoder.writeTail_eq]
  exact ⟨chunks, (List.append_assoc ..).symm, rfl, rfl, rfl, hlast, rfl, rfl, hchunks⟩

end Sys2Proof.Machine
end

section
/-! PROOFS. Encoding pixel by pixel writes the bytes of the pass over the whole Image (spec/43_streaming_fsm.md R254): the serial
encoder stands where the pass stood at the start of the run it holds back, but for that run. -/

namespace Sys2Proof.Machine

/-! ## Steps of the pass -/

/-- Some steps of the pass lead from one encoder to the other. -/
def Encoder.Reaches (e e' : Encoder) : Prop := ∃ k, e.runPass k = some e'

theorem Encoder.Reaches.refl (e : Encoder) : e.Reaches e := ⟨0, rfl⟩

theorem Encoder.runPass_add {m : Nat} {e e₁ : Encoder} (h : e.runPass m = some e₁) (n : Nat) :
    e.runPass (m + n) = e₁.runPass n := by
  induction m generalizing e with
  | zero => cases h; rw [Nat.zero_add]
  | succ m ih =>
    cases hstep : e.passStep with
    | none => simp [Encoder.runPass, hstep] at h
    | some e₂ =>
      rw [Encoder.runPass_of_passStep hstep] at h
      rw [Nat.add_right_comm, Encoder.runPass_of_passStep hstep, ih h]

theorem Encoder.Reaches.trans {e e₁ e₂ : Encoder} (h : e.Reaches e₁) (h' : e₁.Reaches e₂) : e.Reaches e₂ := by
  obtain ⟨m, hm⟩ := h
  obtain ⟨n, hn⟩ := h'
  exact ⟨m + n, (Encoder.runPass_add hm n).trans hn⟩

theorem Encoder.Reaches.of_passStep {e e₁ : Encoder} (h : e.passStep = some e₁) : e.Reaches e₁ :=
  ⟨1, Encoder.runPass_of_passStep h 0⟩

/-- A pass ends in one way only. -/
theorem Encoder.Reaches.eq_of_done {n : Nat} {e e₁ e₂ : Encoder} (h : e.Reaches e₁) (hdone : e₁.phase = .done)
    (hrun : e.runPass n = some e₂) (hdone' : e₂.phase = .done) : e₂ = e₁ := by
  obtain ⟨k, hk⟩ := h
  have hfirst := (Encoder.runPass_add hk n).trans (Encoder.runPass_of_done hdone n)
  have hsecond := (Encoder.runPass_add hrun k).trans (Encoder.runPass_of_done hdone' k)
  rw [Nat.add_comm, hfirst] at hsecond
  exact (Option.some.inj hsecond).symm

/-! ## The run held back -/

/-- The serial encoder that has counted and committed `r` pixels of a run which the pass has yet to write (R251). -/
def Encoder.owing (g : Encoder) (r : Nat) : Encoder :=
  { g with
    pixels := []
    run := r
    i := g.i + r
    cache := (List.replicate r g.prev).foldl Cache.update g.cache }

/-- The pass after it has written a run of `r` pixels (R193, R198). -/
def Encoder.wroteRun (g : Encoder) (r : Nat) : Encoder :=
  { g with
    out := g.out ++ encode (runChunk r)
    opos := g.opos + (encode (runChunk r)).length
    i := g.i + r
    cache := (List.replicate r g.prev).foldl Cache.update g.cache }

/-- The pass stands before `r` pixels of a run, after which come the pixels `ps` and no others. -/
structure Encoder.Before (g : Encoder) (r : Nat) (ps : List Pixel) : Prop where
  phase : g.phase = .pixels
  noRun : g.run = 0
  ahead : g.pixels.drop g.i = List.replicate r g.prev ++ ps
  size : g.i + r + ps.length = g.npix
  useRun : 0 < r → g.opts.useRun = true

/-- The look-ahead finds the whole run when it is full or another pixel, or none, comes after it (R198). -/
theorem runAhead_replicate_append {prev : Pixel} {r limit : Nat} {ps : List Pixel} (hlimit : r ≤ limit)
    (hends : r = limit ∨ ps.head? ≠ some prev) : runAhead prev limit (List.replicate r prev ++ ps) = r := by
  induction r generalizing limit with
  | zero =>
    cases limit with
    | zero => rfl
    | succ limit =>
      cases ps with
      | nil => rfl
      | cons p ps =>
        have hother : p ≠ prev := by simpa using hends
        exact if_neg hother
  | succ r ih =>
    obtain ⟨limit, rfl⟩ := Nat.exists_eq_add_one.mpr (Nat.lt_of_lt_of_le (Nat.succ_pos r) hlimit)
    have hrest := ih (Nat.le_of_succ_le_succ hlimit) (hends.imp_left Nat.succ.inj)
    rw [List.replicate_succ, List.cons_append, runAhead, if_pos rfl, hrest]

/-- The pass writes the run held back in one turn when it is full or another pixel, or none, comes after it (R198). -/
theorem Encoder.Before.encodeChunk {g : Encoder} {r : Nat} {ps : List Pixel} (h : g.Before r ps) (hpending : 0 < r)
    (hmax : r ≤ 62) (hends : r = 62 ∨ ps.head? ≠ some g.prev) : g.encodeChunk = some (g.wroteRun r) := by
  obtain ⟨n, rfl⟩ := Nat.exists_eq_add_one.mpr hpending
  have hrun : g.runApplies g.prev = true := (g.runApplies_iff g.prev).mpr ⟨h.useRun hpending, rfl⟩
  have hsize := h.size
  have hcovered : g.covered g.prev (List.replicate n g.prev ++ ps) = n + 1 := by
    have hlimit : n + 1 ≤ min runMax (g.npix - g.i) := le_min hmax (by omega)
    have hfull : n + 1 = 62 → n + 1 = min runMax (g.npix - g.i) :=
      fun hfull => Nat.le_antisymm hlimit (hfull ▸ min_le_left 62 (g.npix - g.i))
    rw [Encoder.covered, if_pos hrun]
    exact runAhead_replicate_append hlimit (hends.imp_left hfull)
  have hselect : g.select g.prev (List.replicate n g.prev ++ ps) = runChunk (n + 1) := by
    rw [Encoder.select, if_pos hrun, hcovered]
  have htake := g.take_covered g.prev (List.replicate n g.prev ++ ps)
  rw [Encoder.encodeChunk_of_drop (ahead := List.replicate n g.prev ++ ps) h.ahead, htake, hselect, hcovered]
  simp [Encoder.wroteRun, List.getLast?_replicate]

/-- Writing out the run held back brings the serial encoder to where the pass stands after it (R251). -/
theorem Encoder.Before.flushRun {g : Encoder} {r : Nat} {ps : List Pixel} (h : g.Before r ps) (hmax : r ≤ 62)
    (hends : 0 < r → r = 62 ∨ ps.head? ≠ some g.prev) :
    ∃ g', g.Reaches g' ∧ g'.Before 0 ps ∧ (g.owing r).flushRun = g'.owing 0 ∧ g'.opts = g.opts ∧ g'.prev = g.prev := by
  rcases Nat.eq_zero_or_pos r with rfl | hpending
  · exact ⟨g, .refl g, h, Encoder.flushRun_of_none rfl, rfl, rfl⟩
  · have hsize := h.size
    have hmore : g.i < g.npix := by omega
    have hturn := (Encoder.passStep_of_more h.phase hmore).trans (h.encodeChunk hpending hmax (hends hpending))
    have hahead : g.pixels.drop (g.i + r) = ps := by
      rw [← List.drop_drop, h.ahead, List.drop_left' (List.length_replicate ..)]
    refine ⟨g.wroteRun r, .of_passStep hturn, ⟨h.phase, h.noRun, hahead, hsize, ?_⟩, ?_, rfl, rfl⟩
    · exact fun hnone => absurd hnone (Nat.lt_irrefl 0)
    · rw [Encoder.flushRun_of_pending hpending]
      rfl

/-! ## One pixel -/

theorem Encoder.flushFullRun_advance (n : Nat) (e : Encoder) : (e.advance n).flushFullRun = e.flushFullRun.advance n := by
  by_cases hfull : e.run = 62
  · rw [Encoder.flushFullRun_of_full hfull, Encoder.flushFullRun_of_full (e := e.advance n) hfull, Encoder.flushRun_advance]
  · rw [Encoder.flushFullRun_of_short hfull, Encoder.flushFullRun_of_short (e := e.advance n) hfull]

/-- A pixel equal to `prev` makes the run held back one longer (R251). -/
theorem Encoder.takePixel_owing_prev {g : Encoder} (huse : g.opts.useRun = true) (r : Nat) :
    ((g.owing r).takePixel g.prev).advance 1 = (g.owing (r + 1)).flushFullRun := by
  have hequal := Encoder.takePixel_of_equal (e := g.owing r) huse
  have hcache : (g.owing r).cache.update g.prev = (g.owing (r + 1)).cache := by
    simp only [Encoder.owing, List.replicate_succ', List.foldl_append, List.foldl_cons, List.foldl_nil]
  rw [show (g.owing r).prev = g.prev from rfl] at hequal
  rw [hequal, hcache, ← Encoder.flushFullRun_advance]
  rfl

/-- Any other pixel is written by the serial encoder with no run held back as by a turn of the pass (R193, R251). -/
theorem Encoder.Before.takePixel_of_other {g : Encoder} {c : Pixel} {ps : List Pixel} (h : g.Before 0 (c :: ps))
    (hother : ¬ (g.opts.useRun = true ∧ c = g.prev)) :
    ∃ g', g.Reaches g' ∧ g'.Before 0 ps ∧ ((g.owing 0).takePixel c).advance 1 = g'.owing 0 := by
  have hrun : ¬ g.runApplies c = true := mt (g.runApplies_iff c).mp hother
  have hsize := h.size
  rw [List.length_cons] at hsize
  have hmore : g.i < g.npix := by omega
  have hahead : g.pixels.drop (g.i + 1) = ps := by rw [← List.drop_drop, h.ahead]; rfl
  have hturn := (Encoder.passStep_of_more h.phase hmore).trans (Encoder.encodeChunk_of_drop h.ahead)
  rw [Encoder.covered, if_neg hrun, Encoder.select, if_neg hrun] at hturn
  refine ⟨_, .of_passStep hturn, ⟨h.phase, h.noRun, hahead, ?_, ?_⟩, ?_⟩
  · show g.i + 1 + 0 + ps.length = g.npix
    omega
  · exact fun hnone => absurd hnone (Nat.lt_irrefl 0)
  · rw [Encoder.takePixel_of_other (e := g.owing 0) hother (Nat.zero_le 62)]
    simp [Encoder.owing, Encoder.pendingBytes, Encoder.advance, Encoder.selectSingle]

/-- Such a pixel is taken alike with the run held back and with the run written out (R251). -/
theorem Encoder.takePixel_flushRun {e : Encoder} {c : Pixel} (hother : ¬ (e.opts.useRun = true ∧ c = e.prev)) :
    e.flushRun.takePixel c = e.takePixel c := by
  have hrun : ¬ e.runApplies c = true := mt (e.runApplies_iff c).mp hother
  have hrun' : ¬ e.flushRun.runApplies c = true := by
    unfold Encoder.flushRun
    split <;> exact hrun
  rw [Encoder.takePixel, if_neg hrun', Encoder.takePixel, if_neg hrun, Encoder.emitSingle,
    Encoder.flushRun_of_none e.flushRun_run, Encoder.emitSingle]

/-- Each pixel leaves the serial encoder where the pass can get to, but for a run of less than 62 held back (R251). -/
theorem Encoder.Before.takePixel {g : Encoder} {r : Nat} {c : Pixel} {ps : List Pixel} (h : g.Before r (c :: ps))
    (hshort : r < 62) :
    ∃ g' r', g.Reaches g' ∧ g'.Before r' ps ∧ r' < 62 ∧ ((g.owing r).takePixel c).advance 1 = g'.owing r' := by
  by_cases hequal : g.opts.useRun = true ∧ c = g.prev
  · obtain ⟨huse, rfl⟩ := hequal
    have hlonger : g.Before (r + 1) ps := by
      refine ⟨h.phase, h.noRun, ?_, ?_, fun _ => huse⟩
      · rw [h.ahead, List.replicate_succ', List.append_assoc]
        rfl
      · rw [← h.size, List.length_cons]
        omega
    rw [Encoder.takePixel_owing_prev huse]
    by_cases hfull : r + 1 = 62
    · obtain ⟨g', hreaches, hbefore, hflush, -⟩ := hlonger.flushRun (Nat.le_of_eq hfull) fun _ => .inl hfull
      exact ⟨g', 0, hreaches, hbefore, by decide, (Encoder.flushFullRun_of_full hfull).trans hflush⟩
    · exact ⟨g, r + 1, .refl g, hlonger, by omega, Encoder.flushFullRun_of_short hfull⟩
  · have hends (hpending : 0 < r) : r = 62 ∨ (c :: ps).head? ≠ some g.prev :=
      .inr fun hprev => hequal ⟨h.useRun hpending, Option.some.inj hprev⟩
    obtain ⟨g₁, hreaches, hbefore, hflush, hopts, hprev⟩ := h.flushRun (Nat.le_of_lt hshort) hends
    obtain ⟨g', hreaches', hbefore', htaken⟩ := hbefore.takePixel_of_other (by rw [hopts, hprev]; exact hequal)
    refine ⟨g', 0, hreaches.trans hreaches', hbefore', by decide, ?_⟩
    rw [← htaken, ← hflush, Encoder.takePixel_flushRun (e := g.owing r) hequal]

/-! ## The whole Image -/

/-- The serial encoder has ended with the output that the pass ends with. -/
structure Encoder.EndsAs (g f : Encoder) : Prop where
  done : f.done = true
  pass : ∃ e, g.Reaches e ∧ e.phase = .done ∧ e.out = f.out

theorem Encoder.EndsAs.of_reaches {g g' f : Encoder} (hreaches : g.Reaches g') (h : g'.EndsAs f) : g.EndsAs f := by
  obtain ⟨e, hends, hphase, hout⟩ := h.pass
  exact ⟨h.done, e, hreaches.trans hends, hphase, hout⟩

/-- Both write the same tail (R207, R208, R252). -/
theorem Encoder.endsAs_writeTail {g f : Encoder} (hphase : g.phase = .tail) (hout : f.out = g.out)
    (htail : f.tailBytes = g.tailBytes) : g.EndsAs f.writeTail := by
  refine ⟨by rw [Encoder.writeTail_eq], g.writeTail, .of_passStep (Encoder.passStep_of_tail hphase), ?_, ?_⟩
  · rw [Encoder.writeTail_eq]
  · rw [Encoder.writeTail_eq, Encoder.writeTail_eq, hout, htail]

/-- Behind the last pixel the run held back is written out, then the tail (R251, R252). -/
theorem Encoder.Before.endsAs_flushRun {g : Encoder} {r : Nat} (h : g.Before r []) (hshort : r < 62) :
    g.EndsAs (g.owing r).flushRun.writeTail := by
  obtain ⟨g', hreaches, hbefore, hflush, -⟩ := h.flushRun (Nat.le_of_lt hshort) fun _ => .inr (by simp)
  have hall : ¬ g'.i < g'.npix := Nat.not_lt_of_le (Nat.le_of_eq hbefore.size.symm)
  rw [hflush]
  exact .of_reaches (hreaches.trans (.of_passStep (Encoder.passStep_of_all hbefore.phase hall)))
    (Encoder.endsAs_writeTail rfl rfl rfl)

/-- The pixels of the Image, one by one, up to the last (R254). -/
theorem Encoder.Before.endsAs_foldl {g : Encoder} {r : Nat} {c : Pixel} {ps : List Pixel} (h : g.Before r (c :: ps))
    (hshort : r < 62) : g.EndsAs ((c :: ps).foldl (fun e p => e.pixelEvent p) (g.owing r)) := by
  induction ps generalizing g r c with
  | nil =>
    obtain ⟨g', r', hreaches, hbefore, hshort', htaken⟩ := h.takePixel hshort
    rw [List.foldl_cons, List.foldl_nil, Encoder.pixelEvent_of_last (e := g.owing r) h.phase h.size, htaken]
    exact .of_reaches hreaches (hbefore.endsAs_flushRun hshort')
  | cons c' ps ih =>
    obtain ⟨g', r', hreaches, hbefore, hshort', htaken⟩ := h.takePixel hshort
    have hmore : g.i + r + 1 < g.npix := by
      rw [← h.size, List.length_cons, List.length_cons]
      omega
    rw [List.foldl_cons, Encoder.pixelEvent_of_more (e := g.owing r) h.phase hmore, htaken]
    exact .of_reaches hreaches (ih hbefore hshort')

theorem Encoder.before_start (seed : Bool) (o : EncoderOptions) {x : Image} (hsize : x.pixels.length = x.regs.npix)
    (hpixels : x.regs.npix ≠ 0) :
    (Encoder.start seed o x.regs x.pixels x.trailing).Before 0 x.pixels where
  phase := by rw [Encoder.start_phase, if_neg hpixels]
  noRun := rfl
  ahead := rfl
  size := (Nat.zero_add _).trans hsize
  useRun hnone := absurd hnone (Nat.lt_irrefl 0)

theorem Encoder.endsAs_feed (seed : Bool) (o : EncoderOptions) {x : Image} (hsize : x.pixels.length = x.regs.npix) :
    (Encoder.start seed o x.regs x.pixels x.trailing).EndsAs (Encoder.feed seed o x) := by
  unfold Encoder.feed
  cases hpixels : x.pixels with
  | nil =>
    have hzero : x.regs.npix = 0 := by rw [← hsize, hpixels]; rfl
    have htail (pixels : List Pixel) : (Encoder.start seed o x.regs pixels x.trailing).phase = .tail := by
      rw [Encoder.start_phase, if_pos hzero]
    rw [List.foldl_nil, Encoder.settle, if_pos (htail [])]
    exact Encoder.endsAs_writeTail (htail []) rfl rfl
  | cons c ps =>
    have hnonzero : x.regs.npix ≠ 0 := by rw [← hsize, hpixels]; exact Nat.succ_ne_zero _
    have hbefore := Encoder.before_start seed o hsize hnonzero
    have hphase : (Encoder.start seed o x.regs [] x.trailing).phase ≠ .tail := by
      rw [Encoder.start_phase, if_neg hnonzero]
      decide
    rw [hpixels] at hbefore
    rw [Encoder.settle, if_neg hphase]
    exact hbefore.endsAs_foldl (by decide)

/-- Settles O52: the two end alike by `Encoder.endsAs_feed`, and the pass ends in one way only. -/
theorem streamEncoderMatchesThePass : Obligations.StreamEncoderMatchesThePass := by
  intro seed o x hvalid
  obtain ⟨-, hsize⟩ := (Image.valid_iff x).mp hvalid
  obtain ⟨hdone, e, hreaches, hphase, hout⟩ := Encoder.endsAs_feed seed o hsize
  obtain ⟨e', hrun, hphase', -, -, hpass, -⟩ := encodeNeverFails seed o x hvalid
  rw [hreaches.eq_of_done hphase hrun hphase', hout] at hpass
  exact ⟨hdone, hpass⟩

end Sys2Proof.Machine
end

section
/-! PROOFS. Exceptions (spec/60_exceptions.md R281, R289): a FormatError is raised on a decoder that has committed nothing in
this step, and an Image outside the encoder's contract is refused at its START. -/

namespace Sys2Proof.Machine

/-! ## Raising -/

/-- What the step that raises an error leaves alone (R281). -/
def Decoder.committed (d : Decoder) : OutputRegs × ChunkCounts × List Byte × Bool :=
  (d.outputRegs, d.count, d.trail, d.done)

/-- From one decoder to the other `error` has kept its value, or an error has been raised with nothing committed (R280, R281). -/
def Decoder.RaisesAtMost (d d' : Decoder) : Prop :=
  d'.error = d.error ∨ ∃ (d₁ : Decoder) (c : Cause), d₁.committed = d.committed ∧ d' = d₁.raise c

/-- An error raised on a decoder that has committed nothing yet. -/
theorem Decoder.RaisesAtMost.raise {d d₁ : Decoder} (h : d₁.committed = d.committed) (c : Cause) :
    d.RaisesAtMost (d₁.raise c) := .inr ⟨d₁, c, h, rfl⟩

/-- What came before committed nothing and raised nothing, as the acceptance of a byte does. -/
theorem Decoder.RaisesAtMost.after {d d₁ d' : Decoder} (h : d₁.RaisesAtMost d') (herror : d₁.error = d.error)
    (hcommitted : d₁.committed = d.committed) : d.RaisesAtMost d' := by
  rcases h with hkept | ⟨d₂, c, hsame, hraise⟩
  · exact .inl (hkept.trans herror)
  · exact .inr ⟨d₂, c, hsame.trans hcommitted, hraise⟩

theorem Decoder.error_nextPhase (d : Decoder) : d.nextPhase.error = d.error := by rw [Decoder.nextPhase_eq]

/-- `next_phase()` leaves a chunk that has raised in ERROR, so that raising was the last thing done (R243, R248). -/
theorem Decoder.RaisesAtMost.setIpos_nextPhase {d d' : Decoder} (h : d.RaisesAtMost d') (n : Nat) :
    d.RaisesAtMost (d'.setIpos n).nextPhase := by
  rcases h with hkept | ⟨d₁, c, hcommitted, rfl⟩
  · exact .inl ((d'.setIpos n).error_nextPhase.trans hkept)
  · exact .raise (d₁ := d₁.setIpos n) hcommitted c

/-! ## Each operation of the decoder -/

theorem Decoder.raisesAtMost_headerEffect (w h : U32) (c cs : Byte) (d : Decoder) :
    d.RaisesAtMost (headerEffect w h c cs d) := by
  unfold headerEffect
  split
  · exact .raise rfl .badChannels
  split
  · exact .raise rfl .badColorspace
  · exact .inl rfl

/-- Of the chunks only an overlong run raises, before its first pixel (R164). -/
theorem Decoder.raisesAtMost_itemEffect (i : Instr) (d : Decoder) : d.RaisesAtMost (itemEffect i d) := by
  cases htype : i.chunkType with
  | some type =>
    rcases itemEffect_chunk i d type htype with ⟨p, n, heffect, -⟩ | ⟨-, heffect⟩ <;> rw [heffect]
    · rw [Decoder.commit_eq]
      exact .inl rfl
    · exact .raise rfl .runOverrun
  | none =>
    cases i with
    | header w h c cs => exact d.raisesAtMost_headerEffect w h c cs
    | endMarker => exact .inl rfl
    | _ => cases htype

theorem Decoder.raisesAtMost_completeChunk (bytes : List Byte) (d : Decoder) : d.RaisesAtMost (d.completeChunk bytes) := by
  unfold Decoder.completeChunk
  split
  · next i _ _ => exact (d.raisesAtMost_itemEffect i).setIpos_nextPhase d.ipos
  · exact .inl rfl

theorem Decoder.raisesAtMost_loadRun (t : Byte) (d : Decoder) : d.RaisesAtMost (d.loadRun t) := by
  unfold Decoder.loadRun
  split
  · exact .raise rfl .runOverrun
  · exact .inl rfl

theorem Decoder.raisesAtMost_takeTag (t : Byte) (d : Decoder) : d.RaisesAtMost (d.takeTag t) := by
  unfold Decoder.takeTag
  split
  · exact .inl rfl
  split
  · exact d.raisesAtMost_loadRun t
  · exact d.raisesAtMost_completeChunk [t]

theorem Decoder.raisesAtMost_takeArgs (d : Decoder) : d.RaisesAtMost d.takeArgs := by
  unfold Decoder.takeArgs
  split
  · exact d.raisesAtMost_completeChunk _
  · exact .inl rfl

theorem Decoder.raisesAtMost_judgeHeader (b : Byte) (d : Decoder) : d.RaisesAtMost (d.judgeHeader b) := by
  unfold Decoder.judgeHeader
  split
  · exact .raise rfl .badMagic
  split
  · exact .raise rfl .badChannels
  split
  · split
    · exact .raise rfl .badColorspace
    · exact .inl rfl
  · exact .inl rfl

/-- A byte that breaks the required marker raises; the bytes held back are given back only where it is not required (R245). -/
theorem Decoder.raisesAtMost_byteEnd (b : Byte) (d : Decoder) : d.RaisesAtMost (d.byteEnd b) := by
  unfold Decoder.byteEnd
  split
  · unfold Decoder.matchMarker
    split <;> exact .inl rfl
  · unfold Decoder.breakMarker
    split
    · exact .raise rfl .missingEndTag
    · exact .inl rfl

theorem Decoder.raisesAtMost_byteEvent (b : Byte) (d : Decoder) : d.RaisesAtMost (d.byteEvent b) := by
  unfold Decoder.byteEvent
  split
  · exact .inl rfl
  cases d.phase
  case header => exact ((d.pushHeader b).raisesAtMost_judgeHeader b).after rfl rfl
  case tag => exact (d.acceptPixelByte.raisesAtMost_takeTag b).after rfl rfl
  case args => exact (d.pushArg b).raisesAtMost_takeArgs.after rfl rfl
  case endMark => exact d.raisesAtMost_byteEnd b
  all_goals exact .inl rfl

theorem Decoder.raisesAtMost_eoiWithoutMarker (held : List Byte) (d : Decoder) :
    d.RaisesAtMost (d.eoiWithoutMarker held) := by
  unfold Decoder.eoiWithoutMarker
  split
  · exact .raise rfl .missingEndTag
  · exact .inl rfl

theorem Decoder.raisesAtMost_eoiEvent (d : Decoder) : d.RaisesAtMost d.eoiEvent := by
  unfold Decoder.eoiEvent
  split
  · exact .inl rfl
  cases d.phase
  case header | args => exact .raise rfl .truncated
  case tag | endMark => exact d.raisesAtMost_eoiWithoutMarker _
  all_goals exact .inl rfl

theorem Decoder.raisesAtMost_missMarker (d : Decoder) : d.RaisesAtMost d.missMarker := by
  unfold Decoder.missMarker
  split
  · exact .raise rfl .missingEndTag
  · exact .inl rfl

/-- A transfer of a serialised run commits its pixel and never raises: the run was judged when it was loaded (R247). -/
theorem Decoder.error_transfer (d : Decoder) : d.transfer.error = d.error := by
  unfold Decoder.transfer
  split
  · rfl
  unfold Decoder.closeRun
  split
  · exact Decoder.error_nextPhase _
  · rfl

theorem Decoder.PassMove.raisesAtMost {d d' : Decoder} (h : d.PassMove d') : d.RaisesAtMost d' := by
  cases h with
  | header w h c cs => exact d.raisesAtMost_headerEffect w h c cs
  | chunk i => exact d.raisesAtMost_itemEffect i
  | fail c => exact .raise rfl c
  | markerAbsent => exact d.raisesAtMost_missMarker
  | _ => exact .inl rfl

/-! ## The machine's step -/

/-- A step that sets `error` is a step of the decoder alone: a BYTE, EOI, or a step of its pass over a whole input. -/
theorem State.Move.decoder_raises {s s' : State} (h : s.Move s') (hset : s'.dec.error ≠ s.dec.error)
    (herror : s'.dec.error = true) : s.dec.RaisesAtMost s'.dec ∧ s'.enc = s.enc := by
  cases h with
  | transfer => exact absurd s.dec.error_transfer hset
  | byte _ _ b => exact ⟨s.dec.raisesAtMost_byteEvent b, rfl⟩
  | eoi => exact ⟨s.dec.raisesAtMost_eoiEvent, rfl⟩
  | startDecode => cases herror
  | decoderPass => exact ⟨s.dec.passMove_passStep.raisesAtMost, rfl⟩
  | _ => exact absurd rfl hset

/-- Settles O58: the error is raised on a decoder that still has the committed registers of before the step. -/
theorem faultingStepCommitsNothing : Obligations.FaultingStepCommitsNothing := by
  intro s s' hstep hbefore hafter
  have hset : s'.dec.error ≠ s.dec.error := by simp [hbefore, hafter]
  obtain ⟨hraises, henc⟩ := (State.move_of_step hstep).decoder_raises hset hafter
  obtain ⟨d₁, c, hcommitted, hraise⟩ := hraises.resolve_left hset
  simp only [Decoder.committed, Decoder.outputRegs, Prod.mk.injEq, OutputRegs.mk.injEq] at hcommitted
  obtain ⟨⟨-, hcache, hprev, hpix, hopix, hhist⟩, hcount, htrail, hdone⟩ := hcommitted
  rw [hraise]
  exact ⟨hpix, hopix, hcache, hprev, hcount, hhist, htrail, hdone, rfl, henc⟩

/-! ## Refusing an Image -/

/-- Settles O48: the pending START is delivered, and judged by its fields first, then by its pixel count (log entry 7). -/
theorem encodeRefusesOutsideTheContract : Obligations.EncodeRefusesOutsideTheContract := by
  intro s later o hagent hrun hstart
  have htaken : ¬ s.enc.startable = false := by simp [hstart]
  refine ⟨fun x hpending => ⟨fun hillegal => ?fields, fun hlegal hsize => ?size⟩,
    fun regs trailing hpending hillegal => ?serial⟩
  all_goals rw [step_of_pending hagent hrun hpending]
  case fields | serial => exact (if_neg htaken).trans (if_pos hillegal)
  case size => exact (if_neg htaken).trans ((if_neg (by simp [hlegal])).trans (if_pos hsize))

end Sys2Proof.Machine
end

section
/-! PROOFS. Power-on (spec/70_reset_and_hazards.md R311): the reset state, and a START from any state, which leaves what a START
from power-on leaves, but for the port strap. -/

namespace Sys2Proof.Machine

/-- A START leaves what it would leave from power-on, and of the old decoder only the strap of R247 (log entry 8). -/
theorem Decoder.start_eq_start_reset (seed : Bool) (unparsed : HeaderRegs) (o : DecoderOptions) (input : List Byte)
    (d : Decoder) :
    d.start seed unparsed o input =
      { Decoder.reset.start seed unparsed o input with serialPort := d.serialPort } :=
  rfl

/-- Settles O1: the reset values are `State.reset`'s own; two decoders with one strap start as the reset decoder does. -/
theorem powerOnReset : Obligations.PowerOnReset := by
  refine ⟨rfl, rfl, rfl, rfl, rfl, rfl, rfl, fun seed unparsed o input d d' hstrap => ?_⟩
  rw [d.start_eq_start_reset, d'.start_eq_start_reset, hstrap]

end Sys2Proof.Machine
end
